-- ==== Sys2Proof/Config.lean ====
section
/-! DEFINITION. Config.lean: the implementation parameters of `00_scope.md` rules R10 and R11 as one record, its
default instance (the source's literals, which the spec calls normative), the relations a legal record keeps
(rules R11 and R118), and the two parameters the spec leaves OPEN, as constants without a body. -/

namespace Sys2Proof

/-- `00_scope.md` rule R10: every numeric literal of the source is a named parameter. Capacities are in entries,
durations in microseconds, widths in bits. -/
structure Config where
  /-- `TS_WIDTH`: width of a timestamp, in bits. -/
  tsWidth      : Nat
  /-- `DUR_WIDTH`: width of a pulse duration, in bits. -/
  durWidth     : Nat
  /-- `DATA_WIDTH`: width of the accumulated data word, in bits. -/
  dataWidth    : Nat
  /-- `STEP_WIDTH`: width of the step counter, in bits (`92_eei_decisions.md` D14). -/
  stepWidth    : Nat
  /-- `EDGE_Q_CAP`: capacity of the edge queue. -/
  edgeQCap     : Nat
  /-- `PULSE_Q_CAP`: capacity of the pulse queue. -/
  pulseQCap    : Nat
  /-- `BIT_MARK_LO`, `BIT_MARK_HI`: mark window of Zero, One and End. -/
  bitMarkLo    : Nat
  bitMarkHi    : Nat
  /-- `ZERO_SPACE_LO`, `ZERO_SPACE_HI`: space window of Zero. -/
  zeroSpaceLo  : Nat
  zeroSpaceHi  : Nat
  /-- `ONE_SPACE_LO`, `ONE_SPACE_HI`: space window of One. -/
  oneSpaceLo   : Nat
  oneSpaceHi   : Nat
  /-- `END_SPACE_LO`: least space of End, which has no upper bound. -/
  endSpaceLo   : Nat
  /-- `HDR_MARK_LO`, `HDR_MARK_HI`: mark window of Repeat and Start. -/
  hdrMarkLo    : Nat
  hdrMarkHi    : Nat
  /-- `RPT_SPACE_LO`, `RPT_SPACE_HI`: space window of Repeat. -/
  rptSpaceLo   : Nat
  rptSpaceHi   : Nat
  /-- `START_SPACE_LO`, `START_SPACE_HI`: space window of Start. -/
  startSpaceLo : Nat
  startSpaceHi : Nat
  /-- `END_TIMEOUT_US`: delay of the one-shot alarm. -/
  endTimeoutUs : Nat
  /-- `END_MARGIN_US`: safety margin subtracted for `spared_until`. -/
  endMarginUs  : Nat
  /-- `CAL_STABLE_US`: time a level must hold to be declared idle (Auto). -/
  calStableUs  : Nat
  /-- `CAL_TIMEOUT_US`: overall timeout of Auto calibration. -/
  calTimeoutUs : Nat
  deriving DecidableEq, Repr

/-- The defaults of rule R10, "the source's literal". Reducible, as `cfg` is, because the widths stand in types. -/
abbrev Config.default : Config where
  tsWidth := 64
  durWidth := 32
  dataWidth := 32
  stepWidth := 32
  edgeQCap := 128
  pulseQCap := 32
  bitMarkLo := 500
  bitMarkHi := 650
  zeroSpaceLo := 500
  zeroSpaceHi := 650
  oneSpaceLo := 1600
  oneSpaceHi := 1750
  endSpaceLo := 1750
  hdrMarkLo := 8000
  hdrMarkHi := 10000
  rptSpaceLo := 2000
  rptSpaceHi := 2500
  startSpaceLo := 4000
  startSpaceHi := 5000
  endTimeoutUs := 125000
  endMarginUs := 5000
  calStableUs := 30000
  calTimeoutUs := 1000000

/-- `SPARE_US` of rule R11. -/
def Config.spareUs (c : Config) : Nat := c.endTimeoutUs - c.endMarginUs

/-- `DATA_BITS` of rule R11: the number of data bits in a message. -/
def Config.dataBits (c : Config) : Nat := c.dataWidth

/-- The relations rules R11 and R118 ask of a configuration. -/
abbrev Config.Legal (c : Config) : Prop :=
  c.endMarginUs ≤ c.endTimeoutUs ∧
  c.bitMarkLo < c.bitMarkHi ∧ c.zeroSpaceLo < c.zeroSpaceHi ∧ c.oneSpaceLo < c.oneSpaceHi ∧
  c.hdrMarkLo < c.hdrMarkHi ∧ c.rptSpaceLo < c.rptSpaceHi ∧ c.startSpaceLo < c.startSpaceHi ∧
  c.bitMarkHi ≤ c.hdrMarkLo ∧ c.zeroSpaceHi ≤ c.oneSpaceLo ∧ c.oneSpaceHi ≤ c.endSpaceLo ∧
  c.rptSpaceHi ≤ c.startSpaceLo

/-- The configuration of the modelled block. -/
abbrev cfg : Config := Config.default

/-- `ALARM_LATENCY` of rule R10, OPEN: how late after its deadline an alarm may fire (`44_end_timer.md` rule R146).
No step of the machine reads it: an alarm may fire at any lateness. Only `Safety.alarmsTimely` names it. -/
opaque Config.alarmLatency : Nat

/-- `CAL_SAMPLE_PERIOD` of rule R10, OPEN. Calibration is idealised as continuous (rule R92), so nothing reads it. -/
opaque Config.calSamplePeriod : Nat

end Sys2Proof
end

