-- ==== Sys2Proof/Word.lean ====
section
/-! DEFINITION. Word.lean: the widths of `00_scope.md` rule R10 and the bit vectors the block computes with. The block
has no register file and no memory (`10_state.md` rule R40); these are the widths of its datapath values. -/

namespace Sys2Proof

/-- A byte. -/
abbrev Byte := BitVec 8
/-- A value of `TIME`, a timestamp or a deadline, in microseconds (`10_state.md` rule R34). The width is `TS_WIDTH`. -/
abbrev Time := BitVec cfg.tsWidth
/-- A pulse duration, and the classifier's mark (`30_encoding.md` rules R74 and R79). The width is `DUR_WIDTH`. -/
abbrev Duration := BitVec cfg.durWidth
/-- The NEC data word (`30_encoding.md` rule R76). The width is `DATA_WIDTH`. -/
abbrev DataWord := BitVec cfg.dataWidth
/-- The decoder's step counter (`10_state.md` rule R22). The width is `STEP_WIDTH` (`92_eei_decisions.md` D14). -/
abbrev StepCount := BitVec cfg.stepWidth
/-- The opaque pin identifier of `EDGE_INIT`. DESIGN CHOICE (log 3): 64 bits, since no rule reads it. -/
abbrev Pin := BitVec 64
/-- The word by which an operation is requested. DESIGN CHOICE (log 3): 72 bits, of which the spec gives the
identifier `ID[3:0]` in bits 3:0 (`30_encoding.md` rule R82). -/
abbrev OpWord := BitVec 72

end Sys2Proof
end

