-- ==== Sys2Proof/Syntax.lean ====
section
/-! DEFINITION. Syntax.lean: the levels, directions, idle modes, records, symbols and operations of the block. `Instr`
has one constructor per row of spec/opcode_table.json: seven operations performed by agents and six symbols executed by
the decoder (`00_scope.md` rule R9). -/

namespace Sys2Proof

/-- Logic level of the pin (`10_state.md` rules R29 and R35). -/
inductive Level where
  | low
  | high
  deriving DecidableEq, Repr

/-- Direction of an edge (`30_encoding.md` rule R72). -/
inductive Direction where
  | falling
  | rising
  deriving DecidableEq, Repr

/-- The `IDLE_MODE` argument of `EDGE_INIT` (`30_encoding.md` rule R73). `reserved` is the reserved code 3, which no
well-formed instruction carries. -/
inductive IdleMode where
  | low
  | high
  | auto
  | reserved
  deriving DecidableEq, Repr

/-- One captured level transition (`30_encoding.md` rule R71). -/
structure Edge where
  timestamp : Time
  direction : Direction
  deriving DecidableEq, Repr

/-- One active interval (`30_encoding.md` rule R74). -/
structure Pulse where
  start    : Time
  duration : Duration
  deriving DecidableEq, Repr

/-- The six protocol symbols, in the order of `30_encoding.md` rule R75. -/
inductive Symbol where
  | invalid
  | zero
  | one
  | start
  | repeatSym
  | endSym
  deriving DecidableEq, Repr

/-- The four execution contexts that take steps (`00_scope.md` rule R7). -/
inductive Agent where
  | cap
  | poll
  | alarm
  | env
  deriving DecidableEq, Repr

/-- The four error kinds (`30_encoding.md` rule R88, `60_exceptions.md` rule R150). -/
inductive ErrorKind where
  | calibrationTimeout
  | queueOverflow
  | protocolViolation
  | lockContention
  deriving DecidableEq, Repr

/-- The block's two event outputs (`30_encoding.md` rule R78). -/
inductive Event where
  | newCommand (address command : Byte) (isRepeat : Bool)
  | endOfTransmission
  deriving DecidableEq, Repr

/-- The operations and symbols of spec/opcode_table.json, in its order. -/
inductive Instr where
  /-- `EDGE_INIT(pin, idle_mode)`, rule R90. -/
  | edgeInit (pin : Pin) (mode : IdleMode)
  /-- `CAPTURE(d)`, rule R93. -/
  | capture (d : Direction)
  /-- `PULSE_INIT()`, rule R100. -/
  | pulseInit
  /-- `DRAIN()`, rule R101. -/
  | drain
  /-- `DEC_INIT(...)`, rule R120: its three operands are fixed connections (`10_state.md` rule R38). -/
  | decInit
  /-- `PROCESS()`, rule R121. -/
  | process
  /-- `ALARM_FIRE(a)`, rule R142. -/
  | alarmFire (deadline : Time)
  /-- Symbol `INVALID`, rule R130. -/
  | invalid
  /-- Symbol `ZERO`, rule R125. -/
  | zero
  /-- Symbol `ONE`, rule R126. -/
  | one
  /-- Symbol `START`, rule R124. -/
  | start
  /-- Symbol `REPEAT`, rule R129. -/
  | repeatSym
  /-- Symbol `END`, rule R128. -/
  | endSym
  deriving DecidableEq, Repr

/-- The row of the operation table a symbol stands for (`30_encoding.md` rule R82). -/
def Symbol.toInstr : Symbol → Instr
  | .invalid => .invalid
  | .zero => .zero
  | .one => .one
  | .start => .start
  | .repeatSym => .repeatSym
  | .endSym => .endSym

end Sys2Proof
end

