-- ==== Sys2Proof/WellFormed.lean ====
section
/-! DEFINITION. WellFormed.lean: which instructions the spec gives a meaning as syntax. The one operand with a reserved
value is the idle mode of `EDGE_INIT` (`30_encoding.md` rules R73 and R84 (c)); the other operands are typed. -/

namespace Sys2Proof

/-- An idle mode that is not the reserved code 3 (rule R73). -/
def IdleMode.wf : IdleMode → Bool
  | .low => true
  | .high => true
  | .auto => true
  | .reserved => false

/-- A well-formed instruction. -/
def Instr.wf : Instr → Bool
  | .edgeInit _ mode => mode.wf
  | .capture _ => true
  | .pulseInit => true
  | .drain => true
  | .decInit => true
  | .process => true
  | .alarmFire _ => true
  | .invalid => true
  | .zero => true
  | .one => true
  | .start => true
  | .repeatSym => true
  | .endSym => true

end Sys2Proof
end

