-- ==== Sys2Proof/Decode.lean ====
section
/-! DEFINITION. Decode.lean: the numeric codes and record formats of `30_encoding.md` (rules R71 to R78, R82, R88), the
decoder of operation words, total and rejecting by name, and the encoder written from the same tables.

The spec gives an operation word four bits, `ID[3:0]`. Where its operands stand is the model's own layout (DESIGN
CHOICE, log 3): bits 3:0 the identifier; bits 5:4 the idle mode of `EDGE_INIT`, or bit 4 the direction of `CAPTURE`;
bits 71:8 the pin of `EDGE_INIT` or the deadline of `ALARM_FIRE`; every other bit zero. -/

namespace Sys2Proof

/-! ## Codes -/

/-- `Low` = 0, `High` = 1 (`10_state.md` rule R37). -/
def Level.code : Level → BitVec 1
  | .low => 0
  | .high => 1

/-- `Falling` = 0, `Rising` = 1 (rule R72). -/
def Direction.code : Direction → BitVec 1
  | .falling => 0
  | .rising => 1

/-- The direction of a one-bit code (rule R72). -/
def Direction.ofCode (c : BitVec 1) : Direction := if c = 1 then .rising else .falling

/-- `Low` = 0, `High` = 1, `Auto` = 2; 3 reserved (rule R73). -/
def IdleMode.code : IdleMode → BitVec 2
  | .low => 0
  | .high => 1
  | .auto => 2
  | .reserved => 3

/-- The idle mode of a two-bit code (rule R73). -/
def IdleMode.ofCode (c : BitVec 2) : IdleMode :=
  if c = 0 then .low else if c = 1 then .high else if c = 2 then .auto else .reserved

/-- `Symbol` codes 0 to 5 in the source's order of listing (rule R75). -/
def Symbol.code : Symbol → BitVec 3
  | .invalid => 0
  | .zero => 1
  | .one => 2
  | .start => 3
  | .repeatSym => 4
  | .endSym => 5

/-- The symbol of a three-bit code; 6 and 7 are reserved (rules R75 and R84 (c)). -/
def Symbol.ofCode (c : BitVec 3) : Option Symbol :=
  if c = 0 then some .invalid
  else if c = 1 then some .zero
  else if c = 2 then some .one
  else if c = 3 then some .start
  else if c = 4 then some .repeatSym
  else if c = 5 then some .endSym
  else none

/-- Error numbers 0 to 3, for traces only (rule R88). -/
def ErrorKind.code : ErrorKind → Nat
  | .calibrationTimeout => 0
  | .queueOverflow => 1
  | .protocolViolation => 2
  | .lockContention => 3

/-! ## Record formats -/

/-- `Edge`, 65 bits: direction in bit 64, timestamp in bits 63:0 (rule R71). -/
def Edge.encode (e : Edge) : BitVec 65 := e.direction.code ++ e.timestamp

/-- The edge of its 65-bit record (rule R71). -/
def Edge.decode (w : BitVec 65) : Edge :=
  { timestamp := w.extractLsb' 0 64, direction := Direction.ofCode (w.extractLsb' 64 1) }

/-- `Pulse`, 96 bits: start in bits 95:32, duration in bits 31:0 (rule R74). -/
def Pulse.encode (p : Pulse) : BitVec 96 := p.start ++ p.duration

/-- The pulse of its 96-bit record (rule R74). -/
def Pulse.decode (w : BitVec 96) : Pulse :=
  { start := w.extractLsb' 32 64, duration := w.extractLsb' 0 32 }

/-- The payload of a `new_command` event, 17 bits: `is_repeat` in bit 16, `command` in 15:8, `address` in 7:0
(rule R78). `end_of_transmission` has none. -/
def Event.payload : Event → Option (BitVec 17)
  | .newCommand address command isRepeat => some (BitVec.ofBool isRepeat ++ command ++ address)
  | .endOfTransmission => none

/-- The four bytes of a data word (rules R76 and R80). -/
def DataWord.address (d : DataWord) : Byte := d.extractLsb' 0 8
/-- Bits 15:8 (rule R76). -/
def DataWord.addressComplement (d : DataWord) : Byte := d.extractLsb' 8 8
/-- Bits 23:16 (rule R76). -/
def DataWord.command (d : DataWord) : Byte := d.extractLsb' 16 8
/-- Bits 31:24 (rule R76). -/
def DataWord.commandComplement (d : DataWord) : Byte := d.extractLsb' 24 8

/-- The word a sender of `address` and `command` builds: command complement, command, address complement, address
from the most significant byte down (rules R76 and R87). -/
def necWord (address command : Byte) : DataWord := ~~~command ++ command ++ ~~~address ++ address

/-! ## Operation words -/

/-- The identifier of rule R82. -/
def Instr.id : Instr → BitVec 4
  | .edgeInit _ _ => 0
  | .capture _ => 1
  | .pulseInit => 2
  | .drain => 3
  | .decInit => 4
  | .process => 5
  | .alarmFire _ => 6
  | .invalid => 8
  | .zero => 9
  | .one => 10
  | .start => 11
  | .repeatSym => 12
  | .endSym => 13

/-- Why a word is no operation. -/
inductive DecodeError where
  /-- `ID` 7, 14 or 15 (rule R84 (c)). -/
  | reservedId
  /-- `IdleMode` code 3 (rules R73 and R84 (c)). -/
  | reservedIdleMode
  /-- A bit outside the identifier and the operands is not zero (the model's layout, log 3). -/
  | nonzeroPadding
  /-- A byte string that is not nine bytes long (the model's layout, log 3). -/
  | wrongLength
  deriving DecidableEq, Repr

/-- `i` where the operand nibble and the payload hold nothing, a rejection otherwise. -/
def decodePlain (nibble : BitVec 4) (payload : BitVec 64) (i : Instr) : Except DecodeError Instr :=
  if nibble = 0 ∧ payload = 0 then .ok i else .error .nonzeroPadding

/-- `EDGE_INIT`: idle mode in the low two bits of the nibble, pin in the payload (rule R73; layout log 3). -/
def decodeEdgeInit (nibble : BitVec 4) (payload : BitVec 64) : Except DecodeError Instr :=
  if nibble.extractLsb' 2 2 = 0 then
    match IdleMode.ofCode (nibble.extractLsb' 0 2) with
    | .reserved => .error .reservedIdleMode
    | mode => .ok (.edgeInit payload mode)
  else .error .nonzeroPadding

/-- `CAPTURE`: direction in the low bit of the nibble (rule R72; layout log 3). -/
def decodeCapture (nibble : BitVec 4) (payload : BitVec 64) : Except DecodeError Instr :=
  if nibble.extractLsb' 1 3 = 0 ∧ payload = 0 then
    .ok (.capture (Direction.ofCode (nibble.extractLsb' 0 1)))
  else .error .nonzeroPadding

/-- `ALARM_FIRE`: deadline in the payload (rule R82; layout log 3). -/
def decodeAlarmFire (nibble : BitVec 4) (payload : BitVec 64) : Except DecodeError Instr :=
  if nibble = 0 then .ok (.alarmFire payload) else .error .nonzeroPadding

/-- The operation of a word, or the name of what is wrong with it (rules R82 and R84 (c)). -/
def decode (w : OpWord) : Except DecodeError Instr :=
  let nibble := w.extractLsb' 4 4
  let payload := w.extractLsb' 8 64
  match (w.extractLsb' 0 4).toNat with
  | 0 => decodeEdgeInit nibble payload
  | 1 => decodeCapture nibble payload
  | 2 => decodePlain nibble payload .pulseInit
  | 3 => decodePlain nibble payload .drain
  | 4 => decodePlain nibble payload .decInit
  | 5 => decodePlain nibble payload .process
  | 6 => decodeAlarmFire nibble payload
  | 8 => decodePlain nibble payload .invalid
  | 9 => decodePlain nibble payload .zero
  | 10 => decodePlain nibble payload .one
  | 11 => decodePlain nibble payload .start
  | 12 => decodePlain nibble payload .repeatSym
  | 13 => decodePlain nibble payload .endSym
  | _ => .error .reservedId

/-- The word whose bytes, least significant first, are `bytes` (layout log 3). -/
def wordOfBytes : List Byte → Nat
  | [] => 0
  | b :: bs => b.toNat + 256 * wordOfBytes bs

/-- Decoding of a byte string: nine bytes, the first holding the identifier. -/
def decodeBytes (bytes : List Byte) : Except DecodeError Instr :=
  if bytes.length = 9 then decode (BitVec.ofNat 72 (wordOfBytes bytes)) else .error .wrongLength

/-- The operand nibble of an instruction's word. -/
def Instr.nibble : Instr → BitVec 4
  | .edgeInit _ mode => (0 : BitVec 2) ++ mode.code
  | .capture d => (0 : BitVec 3) ++ d.code
  | .pulseInit => 0
  | .drain => 0
  | .decInit => 0
  | .process => 0
  | .alarmFire _ => 0
  | .invalid => 0
  | .zero => 0
  | .one => 0
  | .start => 0
  | .repeatSym => 0
  | .endSym => 0

/-- The payload of an instruction's word. -/
def Instr.payload : Instr → BitVec 64
  | .edgeInit pin _ => pin
  | .capture _ => 0
  | .pulseInit => 0
  | .drain => 0
  | .decInit => 0
  | .process => 0
  | .alarmFire deadline => deadline
  | .invalid => 0
  | .zero => 0
  | .one => 0
  | .start => 0
  | .repeatSym => 0
  | .endSym => 0

/-- The word of an instruction: payload, operand nibble, identifier from the most significant bit down. -/
def encode (i : Instr) : OpWord := i.payload ++ i.nibble ++ i.id

/-- The operation word whose low `nbits` bits are those of `w` and whose other bits are zero. -/
def tableWord (nbits w : Nat) : OpWord := BitVec.ofNat 72 (w % 2 ^ nbits)

/-- The instruction the decoder reads from a word numbered as spec/opcode_table.json numbers it. -/
def decodeTableWord (nbits w : Nat) : Option Instr :=
  match decode (tableWord nbits w) with
  | .ok i => some i
  | .error _ => none

end Sys2Proof
end

