-- ==== Sys2Proof/Machine/State.lean ====
section
/-! DEFINITION. Machine/State.lean: the whole state of the block (`10_state.md` rule R20), the model's own fields that
say which agent moves next and what an observer has seen, the reasons a step can stop, and the power-on state. -/

namespace Sys2Proof.Machine

/-- Holder of the decoder lock (`10_state.md` rule R27). -/
inductive Lock where
  | free
  | heldByPoll
  | heldByAlarm
  deriving DecidableEq, Repr

/-- `DecoderState` (`10_state.md` rules R21 to R27). -/
structure DecoderState where
  /-- `DS.data`, rule R21. -/
  data        : DataWord
  /-- `DS.step`, rule R22. -/
  step        : StepCount
  /-- `DS.implicit_end`, rule R24. -/
  implicitEnd : Bool
  /-- `DS.is_cancelled`, rule R25: true is state Idle, false state Building (rule R23). -/
  isCancelled : Bool
  /-- `DS.spared_until`, rule R26. -/
  sparedUntil : Time
  /-- `DS.lock`, rule R27. -/
  lock        : Lock
  deriving DecidableEq, Repr

/-- Where the sequential agent POLL stands between two of its atomic steps (`00_scope.md` rule R7). It holds what rule
R38 calls local to one iteration, and so is the model's own field. -/
inductive PollPhase where
  /-- Between two operations. -/
  | idle
  /-- Inside `EDGE_INIT` with `IDLE_MODE = Auto`, calibrating since `TIME = t0` (rule R92). -/
  | calibrate (t0 : Time)
  /-- Inside `DRAIN`, before an iteration (rule R105). -/
  | drain
  /-- Inside `PROCESS`, at the head of its loop (rule R121). -/
  | process
  /-- Inside `PROCESS`, before `PollAcquire` for the symbol just classified (rule R122). -/
  | acquire (sym : Symbol)
  /-- Inside `PROCESS`, the lock taken, before `Exec(sym)` (rule R122). -/
  | execute (sym : Symbol)
  /-- Inside `PROCESS`, before `PollRelease` (rule R122). -/
  | release
  /-- Inside a callback that never returns: POLL has no further step (`93_implementation_defined.md` U12, log 14). -/
  | stuck
  deriving DecidableEq, Repr

/-- What an observer outside the block can see (`00_scope.md` rule R8): the two events and the result of `EDGE_INIT`. -/
inductive Observation where
  | event (e : Event)
  | edgeInitOk (idleLevel : Level)
  | edgeInitFailed (e : ErrorKind)
  deriving DecidableEq, Repr

/-- An observation with the `TIME` at which it was made and the agent that made it (rule R8). -/
structure TraceEntry where
  time  : Time
  agent : Agent
  what  : Observation
  deriving DecidableEq, Repr

/-- What the owner's two callbacks do when they are invoked (`43_nec_decoder.md` rule R135, `93_implementation_defined.md`
U12). The duty of `60_exceptions.md` rule R169 is the first. -/
inductive OwnerConduct where
  | returns
  | neverReturns
  /-- Invokes an operation of the block from inside the callback. -/
  | reenters
  deriving DecidableEq, Repr

/-- One entry of the list that says which agent moves next and what the outside world does (rules R7, R60, R159: any
interleaving of atomic steps). DESIGN CHOICE (log 1). -/
inductive Turn where
  /-- An operation is requested by its word: POLL takes one when it is between operations, CAP and ALARM at once. -/
  | op (w : OpWord)
  /-- POLL takes one atomic step of the operation it is inside. -/
  | poll
  /-- POLL runs the operation it is inside until that has returned or POLL has to wait, before anything else happens. -/
  | finish
  /-- ENV advances `TIME` to `t` (`10_state.md` rule R34). -/
  | time (t : Time)
  /-- ENV drives the pin to level `l` (`10_state.md` rule R35). -/
  | level (l : Level)
  /-- From now on the owner's callbacks do as `c` says (rule R135). -/
  | owner (c : OwnerConduct)
  deriving DecidableEq, Repr

/-- The state: `10_state.md` rule R20, and below the line the model's own fields. -/
structure State where
  /-- `ER.init`, rule R36. -/
  erInit      : Bool
  /-- `ER.idle_level`, rule R29. -/
  erIdleLevel : Level
  /-- `ER.enabled`, rule R30. -/
  erEnabled   : Bool
  /-- `EQ`, head first, rule R31. -/
  edgeQ       : List Edge
  /-- `PD.init`, rule R36. -/
  pdInit      : Bool
  /-- `PQ`, head first, rule R32. -/
  pulseQ      : List Pulse
  /-- `DEC.init`, rule R36. -/
  decInit     : Bool
  /-- `DecoderState`, rules R21 to R27. -/
  ds          : DecoderState
  /-- `ALARMS`, rule R33: the multiset in rising order, so that equal multisets are equal lists. -/
  alarms      : List Time
  /-- `TIME`, rule R34. -/
  time        : Time
  /-- `ir_in`, rule R35. -/
  irIn        : Level
  /-- Model's own: `TIME` of the last change of `ir_in`, if it has changed (rule R92; log 4). -/
  levelSince  : Option Time
  /-- Model's own: `TIME` of the last captured change, if there was one (rule R95; log 4). -/
  lastCapture : Option Time
  /-- Model's own: what a callback does that is invoked now (rules R135, R183; log 14). -/
  owner       : OwnerConduct
  /-- Model's own: where POLL stands (log 1). -/
  poll        : PollPhase
  /-- Model's own: what happens next (log 1). -/
  turns       : List Turn
  /-- Model's own: what has been observed, oldest first (rule R8, log 2). -/
  trace       : List TraceEntry
  deriving DecidableEq, Repr

/-- The block faults on nothing: "Nothing in the decoder traps, halts or waits" (`43_nec_decoder.md` rule R134), and
`CalibrationTimeout`, the one error an operation returns, leaves the block running (`60_exceptions.md` rule R151). -/
inductive Fault where
  deriving DecidableEq, Repr

/-- The situations the spec gives no meaning (`refuse`, `00_scope.md` rule R13). Each is safe: the model stops where
the spec says that a run is outside it. -/
inductive Refusal where
  /-- Raised by no arm: an instruction the model has not reached. Safe. -/
  | notModelled (mnemonic : String)
  /-- Raised by the fetch of a word that is no operation (rule R84 (c), U13). Safe. -/
  | undefinedWord (e : DecodeError)
  /-- Raised by `EDGE_INIT` with the reserved idle mode (rule R73, U13). Safe. -/
  | reservedIdleMode
  /-- Raised by `DRAIN`, `PROCESS`, `DEC_INIT` and every symbol before the initialisation it needs (rules R172, R42,
  U11). Safe. -/
  | notInitialised
  /-- Raised by a second successful `EDGE_INIT`, a second `PULSE_INIT` or `DEC_INIT` (rule R173, U11). Safe. -/
  | initialisedTwice
  /-- Raised by a POLL operation started inside another (rules R7 and R135, U12, U17). Safe. -/
  | pollBusy
  /-- Raised by a symbol executed, and by a `PollRelease`, while POLL does not hold the lock (rules R27, R41, R62;
  logs 6 and 18). Safe. -/
  | lockNotHeld
  /-- Raised by the fetch of a symbol word that is not the symbol POLL is about to execute (rule R122, log 6). Safe. -/
  | symbolNotNext
  /-- Raised by `END` and `REPEAT` at the largest step (rules R22 and R133, U6). Safe. -/
  | stepOverflow
  /-- Raised by `ALARM_FIRE` of a deadline that is not pending (rules R142 and R169). Safe. -/
  | alarmNotPending
  /-- Raised by `ALARM_FIRE` before its deadline (rules R146 and R169). Safe. -/
  | alarmNotDue
  /-- Raised by every step at a `TIME` near `2^64`, and by ENV advancing `TIME` there (rule R34, U7). Safe. -/
  | timeOutOfRange
  /-- Raised by ENV moving `TIME` backwards (rules R34 and R169, U7). Safe. -/
  | timeDecreases
  /-- Raised by a captured direction that is no change of the pin (rule R96, U19). Safe. -/
  | edgeWithoutChange
  /-- Raised by two edges within one microsecond (rules R95 and R169, U10). Safe. -/
  | edgesSameTime
  /-- Raised by a step whose callback invokes an operation of the block (rule R135, U12). Safe. -/
  | callbackReenters
  deriving DecidableEq, Repr

/-- The outcome of a step or of an instruction. -/
abbrev Result := Host.Outcome State Fault Refusal

/-- The power-on state with the counter at `t` and the pin at `l`, which the spec leaves open ("a model takes it as a
parameter of the launch", rule R34). The flags and `ALARMS` are rule R170's; a field that "has no value" until its
initialisation operation (rule R42) holds the value that operation gives it, or `Low` (DESIGN CHOICE, log 5), and no
operation reads it before. -/
def State.powerOn (t : Time) (l : Level) : State where
  erInit := false
  erIdleLevel := .low
  erEnabled := false
  edgeQ := []
  pdInit := false
  pulseQ := []
  decInit := false
  ds := { data := 0, step := 0, implicitEnd := false, isCancelled := true, sparedUntil := 0, lock := .free }
  alarms := []
  time := t
  irIn := l
  levelSince := none
  lastCapture := none
  owner := .returns
  poll := .idle
  turns := []
  trace := []

/-- The power-on state with the counter at 0 and the pin `Low` (DESIGN CHOICE, log 5). -/
def State.reset : State := State.powerOn 0 .low

end Sys2Proof.Machine
end

