-- ==== Sys2Proof/Machine/Ops.lean ====
section
/-! DEFINITION. Machine/Ops.lean: the named operations every meaning is written with: the single-field updates of State,
the queue primitives (`20_memory.md` rule R51), the lock primitives (rule R62), `emit`, the pending alarms, `Arm` and
`EndCheck` (`44_end_timer.md` rules R140, R141), `Abort` (`43_nec_decoder.md` rule R131), and the block's one error
exit, `raise CalibrationTimeout` (`60_exceptions.md` rule R151), which is what it has for taking an exception: nothing
is saved, no mode or vector exists, and no return from one is needed (rules R150, R160 to R163). -/

namespace Sys2Proof.Machine

/-! ## Updates of one part of the state -/

def State.setPoll (s : State) (p : PollPhase) : State := { s with poll := p }
def State.setTurns (s : State) (ts : List Turn) : State := { s with turns := ts }
def State.setTime (s : State) (t : Time) : State := { s with time := t }
def State.setEdgeQ (s : State) (q : List Edge) : State := { s with edgeQ := q }
def State.setPulseQ (s : State) (q : List Pulse) : State := { s with pulseQ := q }
def State.setAlarms (s : State) (as : List Time) : State := { s with alarms := as }
def State.setTrace (s : State) (tr : List TraceEntry) : State := { s with trace := tr }
def State.setOwner (s : State) (c : OwnerConduct) : State := { s with owner := c }
def State.setDs (s : State) (d : DecoderState) : State := { s with ds := d }
/-- ENV changes the pin to `l` at the present `TIME`; the change is captured if the interrupt is enabled. -/
def State.setPin (s : State) (l : Level) : State :=
  { s with
    irIn := l, levelSince := some s.time,
    lastCapture := if s.erEnabled then some s.time else s.lastCapture }
def State.setCancelled (s : State) (b : Bool) : State := s.setDs { s.ds with isCancelled := b }
def State.setLock (s : State) (l : Lock) : State := s.setDs { s.ds with lock := l }
def State.setImplicitEnd (s : State) (b : Bool) : State := s.setDs { s.ds with implicitEnd := b }
def State.setStep (s : State) (n : StepCount) : State := s.setDs { s.ds with step := n }
def State.setData (s : State) (d : DataWord) : State := s.setDs { s.ds with data := d }
def State.setSparedUntil (s : State) (t : Time) : State := s.setDs { s.ds with sparedUntil := t }

/-! ## Queues (rule R51) -/

/-- `QCount(q)`. -/
def qCount {α : Type} (q : List α) : Nat := q.length

/-- `QTryPush(q, v)` for a queue of capacity `cap`: whether the push succeeded, and the queue after it (rule R52). -/
def qTryPush {α : Type} (cap : Nat) (q : List α) (v : α) : Bool × List α :=
  if qCount q < cap then (true, q ++ [v]) else (false, q)

/-- `QPop(q)`: the head and the queue without it. It has no answer on an empty queue (rule R53). -/
def qPop {α : Type} : List α → Option (α × List α)
  | [] => none
  | v :: rest => some (v, rest)

/-- `QPeek(q)`: the head. It has no answer on an empty queue (rule R53). -/
def qPeek {α : Type} : List α → Option α
  | [] => none
  | v :: _ => some v

/-! ## The event trace (rule R8) -/

/-- `emit`: append an observation to the trace, with the present `TIME` and the agent that makes it (rule R13). -/
def emit (agent : Agent) (o : Observation) (s : State) : State :=
  { s with trace := s.trace ++ [{ time := s.time, agent := agent, what := o }] }

/-- `raise CalibrationTimeout`: the operation ends with that error and writes no state of the block (rules R13, R151).
The caller sees the error; POLL is between two operations again. -/
def raiseCalibrationTimeout (s : State) : State :=
  (emit .poll (.edgeInitFailed .calibrationTimeout) s).setPoll .idle

/-! ## The decoder lock (rule R62) -/

/-- `PollAcquire`: enabled only when the lock is `Free`. -/
def pollAcquire (s : State) : Option State :=
  if s.ds.lock = .free then some (s.setLock .heldByPoll) else none

/-- `PollRelease`: it `requires` that POLL holds the lock, and has no answer otherwise (DESIGN CHOICE, log 18: the spec
gives that case no meaning). -/
def pollRelease (s : State) : Option State :=
  if s.ds.lock = .heldByPoll then some (s.setLock .free) else none

/-- `AlarmTry`: whether the lock was taken, and the state after it. -/
def alarmTry (s : State) : Bool × State :=
  if s.ds.lock = .free then (true, s.setLock .heldByAlarm) else (false, s)

/-- `AlarmRelease`. It `requires` that ALARM holds the lock, which is so where it is used, after an `AlarmTry` that took
it; what it answers elsewhere is the model's (DESIGN CHOICE, log 18: the spec gives that case no meaning). -/
def alarmRelease (s : State) : State := s.setLock .free

/-- The alarm context holds the lock of an existing decoder. Between two steps that is so only while an ALARM is inside
a callback that never returns, and then for ever; meanwhile "the poll context has no enabled step" (rule R62;
`93_implementation_defined.md` U12). -/
def alarmHoldsLock (s : State) : Bool := s.decInit && s.ds.lock = .heldByAlarm

/-! ## Pending alarms (rule R33) -/

/-- One more pending alarm, at its place in the rising order. -/
def addAlarm (a : Time) : List Time → List Time
  | [] => [a]
  | b :: rest => if a.toNat ≤ b.toNat then a :: b :: rest else b :: addAlarm a rest

/-- One occurrence of a deadline less. -/
def removeAlarm (a : Time) : List Time → List Time
  | [] => []
  | b :: rest => if a = b then rest else b :: removeAlarm a rest

/-! ## Arm, EndCheck, Abort -/

/-- `Arm()` (rule R140): spare the message for `SPARE_US`, and add one alarm `END_TIMEOUT_US` ahead. Both uses of `now`
are `TIME` at this step. -/
def arm (s : State) : State :=
  (s.setSparedUntil (s.time + BitVec.ofNat cfg.tsWidth cfg.spareUs)).setAlarms
    (addAlarm (s.time + BitVec.ofNat cfg.tsWidth cfg.endTimeoutUs) s.alarms)

/-- `EndCheck(force)` (rule R141), run by `agent` while the lock is held: finalise the message in progress, if there is
one and either it is forced or `now >= spared_until`, unsigned. -/
def endCheck (agent : Agent) (force : Bool) (s : State) : State :=
  if s.ds.isCancelled = false ∧ (force = true ∨ s.ds.sparedUntil.toNat ≤ s.time.toNat) then
    (emit agent (.event .endOfTransmission) s).setCancelled true
  else s

/-- `Abort()` (rule R131): the path of every rejected symbol. -/
def abort (s : State) : State := (endCheck .poll true s).setCancelled true

/-! ## Range of `TIME` (rule R34) -/

/-- Values of `TIME` within `2^32 + 125000` of `2^64` are outside the spec (rule R34): the widest duration and the longest
delay still fit (`30_encoding.md` rule R81 lines 3 and 8). -/
def timeLimit : Nat := 2 ^ cfg.tsWidth - (2 ^ cfg.durWidth + cfg.endTimeoutUs)

/-- `TIME` is in the range the spec covers. -/
def timeInRange (t : Time) : Bool := t.toNat < timeLimit

/-! ## When a symbol may be executed -/

/-- Run `body` if the decoder is initialised and POLL holds its lock: a read of `DecoderState` before `DEC_INIT` is
`refuse` (rule R42), and every access to it happens with the lock held (rules R27 and R41). -/
def underPollLock (s : State) (body : Result) : Result :=
  if s.decInit = false then .refused .notInitialised
  else if s.ds.lock = .heldByPoll then body
  else .refused .lockNotHeld

/-- Run `body` if POLL is between two operations: POLL is sequential (rule R7), and an operation invoked from inside
another is `refuse` (rule R135). -/
def whenPollIdle (s : State) (body : Result) : Result :=
  if s.poll = .idle then body else .refused .pollBusy

end Sys2Proof.Machine
end

