-- ==== Sys2Proof/Machine/Operands.lean ====
section
/-! DEFINITION. Machine/Operands.lean: how the operands are assembled from the records: levels and directions
(`30_encoding.md` rule R72), mark and space (rule R79), the pulse of two edges (`41_pulse_detector.md` rule R103), the
four bytes of the data word (rule R80). -/

namespace Sys2Proof

/-- The level the line has after an edge (rule R72). -/
def Direction.toLevel : Direction → Level
  | .falling => .low
  | .rising => .high

/-- The direction of a transition to a level (rule R93). -/
def Level.toDirection : Level → Direction
  | .low => .falling
  | .high => .rising

/-- The level that is not this one: the active level, for the idle one (rule R15). -/
def Level.other : Level → Level
  | .low => .high
  | .high => .low

end Sys2Proof

namespace Sys2Proof.Machine

/-- An edge "matches the idle level" when the level after it is the idle level (rule R102). -/
def matchesIdle (e : Edge) (idle : Level) : Bool := e.direction.toLevel = idle

/-- The pulse of a pair of edges: the 64-bit difference of the timestamps cut to its low 32 bits (rules R103, R81
line 2; the choice of the low bits is `92_eei_decisions.md` D13, log 9). -/
def pulseOf (first second : Edge) : Pulse :=
  { start := first.timestamp, duration := (second.timestamp - first.timestamp).setWidth cfg.durWidth }

/-- `end` of rule R79: where the mark of a pulse ends. -/
def markEnd (cur : Pulse) : Time := cur.start + cur.duration.setWidth cfg.tsWidth

/-- `mark` of rule R79. -/
def markOf (cur : Pulse) : Duration := cur.duration

/-- `space` of rule R79. -/
def spaceOf (cur next : Pulse) : Time := next.start - markEnd cur

/-- `valid` of rule R80: each complement byte is the complement of its byte. -/
def complementsValid (d : DataWord) : Bool :=
  d.address = ~~~d.addressComplement ∧ d.command = ~~~d.commandComplement

/-- `DS.data or (1 << DS.step)` (rule R81 line 5). -/
def setDataBit (d : DataWord) (step : StepCount) : DataWord := d ||| (1#cfg.dataWidth <<< step.toNat)

end Sys2Proof.Machine
end

