-- ==== Sys2Proof/Machine/Flags.lean ====
section
/-! DEFINITION. Machine/Flags.lean: the conditions the decoder reads off its flags and its step counter (`10_state.md`
rules R22 to R25, `43_nec_decoder.md` rules R125 to R129). -/

namespace Sys2Proof.Machine

/-- State Idle: no message in progress (rule R23). -/
def DecoderState.idle (d : DecoderState) : Bool := d.isCancelled

/-- State Building: a message is in progress (rule R23). -/
def DecoderState.building (d : DecoderState) : Bool := !d.isCancelled

/-- A data bit is accepted: Building, and `step` below `DATA_BITS`, that is at most 31 (rule R125). -/
def DecoderState.bitDue (d : DecoderState) : Bool := d.building && d.step.toNat < cfg.dataBits

/-- The bit at this `step` is the last of a word: `DATA_BITS - 1`, the 32nd (rule R127). -/
def DecoderState.atLastBit (d : DecoderState) : Bool := d.step.toNat + 1 = cfg.dataBits

/-- An `END` is accepted: Building, and `implicit_end` (rule R128). -/
def DecoderState.endDue (d : DecoderState) : Bool := d.building && d.implicitEnd

/-- A `REPEAT` is accepted: Building, `step` above `DATA_BITS` = 32 and odd (rule R129; `90_conflicts.md` C1). -/
def DecoderState.repeatDue (d : DecoderState) : Bool :=
  d.building && cfg.dataBits < d.step.toNat && d.step.getLsbD 0

/-- `DS.step` at `2^STEP_WIDTH − 1`, where an increment is `refuse` (rule R133). -/
def DecoderState.stepAtMax (d : DecoderState) : Bool := d.step = BitVec.allOnes cfg.stepWidth

end Sys2Proof.Machine
end

