-- ==== Sys2Proof/Machine/Classifier.lean ====
section
/-! DEFINITION. Machine/Classifier.lean: the block's instruction decoder, from mark and space to a symbol
(`42_nec_classifier.md`). It reads no state (rule R110). -/

namespace Sys2Proof.Machine

/-- Membership of the half-open window `[lo, hi)`: the lower bound inside, the upper outside (rule R117). -/
def inWindow (lo hi v : Nat) : Bool := lo ≤ v && v < hi

/-- `Classify(mark, space)` under a configuration, in the order of the tests of rule R110. -/
def classifyWith (c : Config) (mark : Duration) (space : Time) : Symbol :=
  if inWindow c.bitMarkLo c.bitMarkHi mark.toNat then
    if inWindow c.zeroSpaceLo c.zeroSpaceHi space.toNat then .zero
    else if inWindow c.oneSpaceLo c.oneSpaceHi space.toNat then .one
    else if c.endSpaceLo ≤ space.toNat then .endSym
    else .invalid
  else if inWindow c.hdrMarkLo c.hdrMarkHi mark.toNat then
    if inWindow c.rptSpaceLo c.rptSpaceHi space.toNat then .repeatSym
    else if inWindow c.startSpaceLo c.startSpaceHi space.toNat then .start
    else .invalid
  else .invalid

/-- `Classify(mark, space)` of the block (rule R110). -/
def classify (mark : Duration) (space : Time) : Symbol := classifyWith cfg mark space

/-- The symbol of a pulse and its successor (rules R79 and R121). -/
def symbolOf (cur next : Pulse) : Symbol := classify (markOf cur) (spaceOf cur next)

end Sys2Proof.Machine
end

