-- ==== Sys2Proof/Machine/EdgeReceiver.lean ====
section
/-! DEFINITION. Machine/EdgeReceiver.lean: `EDGE_INIT` with its calibration, and `CAPTURE` (`40_edge_receiver.md`). -/

namespace Sys2Proof.Machine

/-- The four writes of a successful `EDGE_INIT` and its result (rule R90). -/
def finishEdgeInit (lvl : Level) (s : State) : State :=
  (emit .poll (.edgeInitOk lvl)
    { s with erIdleLevel := lvl, edgeQ := [], erEnabled := true, erInit := true }).setPoll .idle

/-- Since when, within a calibration begun at `t0`, the pin has held its present level (rule R92). -/
def stableSince (t0 : Time) (s : State) : Nat :=
  match s.levelSince with
  | none => t0.toNat
  | some t => max t0.toNat t.toNat

/-- Whether the pin, if it does not change, will have held its level for `CAL_STABLE_US` by the overall timeout
(rule R92). -/
def calibrationSucceeds (t0 : Time) (s : State) : Bool :=
  stableSince t0 s + cfg.calStableUs ≤ t0.toNat + cfg.calTimeoutUs

/-- The `TIME` at which a calibration begun at `t0` ends if the pin does not change before it (rule R92). -/
def calibrationEnd (t0 : Time) (s : State) : Nat :=
  if calibrationSucceeds t0 s then stableSince t0 s + cfg.calStableUs else t0.toNat + cfg.calTimeoutUs

/-- The end of a calibration: the level held is the result, or `CalibrationTimeout` is raised (rules R92 and R151). -/
def endCalibration (t0 : Time) (s : State) : State :=
  if calibrationSucceeds t0 s then finishEdgeInit s.irIn s else raiseCalibrationTimeout s

/-- A calibration has not yet reached the `TIME` at which it ends, and POLL waits for it (rule R92). -/
def calibrationWaits (t0 : Time) (s : State) : Bool := s.time.toNat < calibrationEnd t0 s

/-- POLL's step inside a calibration: its end, once `TIME` is there. Only ENV moves `TIME` (`10_state.md` rule R34). -/
def calibrationStep (t0 : Time) (s : State) : State :=
  if calibrationWaits t0 s then s else endCalibration t0 s

/-- `EDGE_INIT(pin, idle_mode)` (rule R90). With an explicit level it is one step (rule R91); with `Auto` it begins to
calibrate at the present `TIME`, and ends by `calibrationStep` (rule R92, log 7). The pin is read by no rule. -/
def execEdgeInit (_pin : Pin) (mode : IdleMode) (s : State) : Result :=
  whenPollIdle s <|
    if s.erInit then .refused .initialisedTwice
    else match mode with
      | .low => .next (finishEdgeInit .low s)
      | .high => .next (finishEdgeInit .high s)
      | .auto => .next (s.setPoll (.calibrate s.time))
      | .reserved => .refused .reservedIdleMode

/-- `CAPTURE(d)` (rule R93): before `EDGE_INIT` no step; otherwise push the edge with the present `TIME`, and lose it
if the queue is full (rule R94). -/
def execCapture (d : Direction) (s : State) : Result :=
  if s.erEnabled then
    .next (s.setEdgeQ (qTryPush cfg.edgeQCap s.edgeQ { timestamp := s.time, direction := d }).2)
  else .next s

end Sys2Proof.Machine
end

