-- ==== Sys2Proof/Machine/PulseDetector.lean ====
section
/-! DEFINITION. Machine/PulseDetector.lean: `PULSE_INIT` and `DRAIN` (`41_pulse_detector.md`). -/

namespace Sys2Proof.Machine

/-- `PULSE_INIT()` (rule R100). -/
def execPulseInit (s : State) : Result :=
  whenPollIdle s <|
    if s.pdInit then .refused .initialisedTwice
    else .next { s with pulseQ := [], pdInit := true }

/-- One iteration of the loop of `DRAIN`, one atomic step (rules R101 and R105): return with fewer than two edges or no
room for a pulse (rule R104); drop a first edge that matches the idle level (rule R102); otherwise take the second,
whatever its direction (rule R107), and push the pulse. -/
def drainIteration (s : State) : State :=
  match qPop s.edgeQ with
  | none => s.setPoll .idle
  | some (first, behindFirst) =>
    match qPop behindFirst with
    | none => s.setPoll .idle
    | some (second, behindSecond) =>
      if qCount s.pulseQ = cfg.pulseQCap then s.setPoll .idle
      else if matchesIdle first s.erIdleLevel then (s.setEdgeQ behindFirst).setPoll .drain
      else ((s.setEdgeQ behindSecond).setPulseQ
        (qTryPush cfg.pulseQCap s.pulseQ (pulseOf first second)).2).setPoll .drain

/-- `DRAIN()` (rule R101): its check and the first iteration of its loop. `Machine.pollStep` takes the iterations that
follow, one a step, so that a `CAPTURE` may come between two (rule R105). -/
def execDrain (s : State) : Result :=
  whenPollIdle s <|
    if s.erInit && s.pdInit then .next (drainIteration s) else .refused .notInitialised

end Sys2Proof.Machine
end

