-- ==== Sys2Proof/Machine/Decoder.lean ====
section
/-! DEFINITION. Machine/Decoder.lean: `DEC_INIT`, `PROCESS` and the six symbols (`43_nec_decoder.md`). -/

namespace Sys2Proof.Machine

/-- `DecoderState` after `DEC_INIT` (rule R120). -/
def initialDecoderState : DecoderState where
  data := 0
  step := 0
  implicitEnd := false
  isCancelled := true
  sparedUntil := 0
  lock := .free

/-- `DEC_INIT(pulse_source, on_new_command, on_end_of_transmission)` (rule R120). -/
def execDecInit (s : State) : Result :=
  whenPollIdle s <|
    if s.decInit then .refused .initialisedTwice
    else if s.pdInit then .next { s with ds := initialDecoderState, alarms := [], decInit := true }
    else .refused .notInitialised

/-- The head of the loop of `PROCESS` (rule R121): return with fewer than two pulses; otherwise pop one, peek the next,
and classify the pair. -/
def processIteration (s : State) : State :=
  match qPop s.pulseQ with
  | none => s.setPoll .idle
  | some (cur, rest) =>
    match qPeek rest with
    | none => s.setPoll .idle
    | some next => (s.setPulseQ rest).setPoll (.acquire (symbolOf cur next))

/-- `PROCESS()` (rule R121): its check and the head of its loop. `Machine.pollStep` takes `PollAcquire`, `Exec` and
`PollRelease` of the symbol, one a step, and the loop again (rule R122). -/
def execProcess (s : State) : Result :=
  whenPollIdle s <|
    if s.decInit then .next (processIteration s) else .refused .notInitialised

/-- Advance of `step` by one; at the largest step, `refuse` (rule R133). -/
def advanceStep (s : State) : Result :=
  if s.ds.stepAtMax then .refused .stepOverflow else .next (s.setStep (s.ds.step + 1))

/-- The event of a complete word: `new_command` if the complements are right, none otherwise (rules R78, R80, R127). -/
def announceWord (s : State) : State :=
  if complementsValid s.ds.data then
    emit .poll (.event (.newCommand (DataWord.address s.ds.data) (DataWord.command s.ds.data) false)) s
  else s

/-- `Complete()` (rule R127). -/
def complete (s : State) : State := arm ((announceWord s).setImplicitEnd true)

/-- `ExecBit(b)` (rule R125). -/
def execBit (b : Bool) (s : State) : Result :=
  if s.ds.bitDue then
    let shifted := if b then s.setData (setDataBit s.ds.data s.ds.step) else s
    advanceStep (if s.ds.atLastBit then complete shifted else shifted)
  else .next (abort s)

/-- What `Exec(sym)` has written when it invokes a callback: the 32nd bit, put into `DS.data` before `Complete()`
(rules R125 and R127); every other symbol invokes its callback before it writes anything (rules R124, R131, R141). -/
def beforeCallback : Symbol → State → State
  | .one, s => if s.ds.bitDue then s.setData (setDataBit s.ds.data s.ds.step) else s
  | .zero, s => s
  | .start, s => s
  | .repeatSym, s => s
  | .endSym, s => s
  | .invalid, s => s

/-- `reset` of rule R123: the fields a `START` writes. -/
def resetMessage (s : State) : State :=
  s.setDs { s.ds with data := 0, step := 0, implicitEnd := false, isCancelled := false }

/-- `INVALID` (rule R130). -/
def execInvalid (s : State) : Result := underPollLock s (.next (abort s))

/-- `ZERO` (rule R125). -/
def execZero (s : State) : Result := underPollLock s (execBit false s)

/-- `ONE` (rule R126). -/
def execOne (s : State) : Result := underPollLock s (execBit true s)

/-- `START` (rule R124): a message in progress is finalised before the reset, and only then is an alarm armed. -/
def execStart (s : State) : Result :=
  underPollLock s <| .next <|
    if s.ds.building then arm (resetMessage (endCheck .poll true s)) else resetMessage s

/-- `REPEAT` (rule R129). -/
def execRepeat (s : State) : Result :=
  underPollLock s <|
    if s.ds.repeatDue then advanceStep ((arm s).setImplicitEnd true) else .next (abort s)

/-- `END` (rule R128). -/
def execEnd (s : State) : Result :=
  underPollLock s <|
    if s.ds.endDue then advanceStep (s.setImplicitEnd false) else .next (abort s)

end Sys2Proof.Machine
end

