-- ==== Sys2Proof/Machine/EndTimer.lean ====
section
/-! DEFINITION. Machine/EndTimer.lean: `ALARM_FIRE` (`44_end_timer.md` rule R142). `Arm` and `EndCheck` stand in
Machine/Ops.lean. -/

namespace Sys2Proof.Machine

/-- What a fired alarm does once it is spent: the try-lock, and under the lock the unforced end-check; nothing on
contention (rules R142 and R143). -/
def alarmEndCheck (s : State) : State :=
  match alarmTry s with
  | (true, locked) => alarmRelease (endCheck .alarm false locked)
  | (false, _) => s

/-- `ALARM_FIRE(a)` (rule R142), one atomic step: enabled when `a` is pending and `TIME >= a` (rule R146). How late it
may be is open, so any lateness is taken (log 8). -/
def execAlarmFire (a : Time) (s : State) : Result :=
  if s.alarms.contains a then
    if a.toNat ≤ s.time.toNat then .next (alarmEndCheck (s.setAlarms (removeAlarm a s.alarms)))
    else .refused .alarmNotDue
  else .refused .alarmNotPending

end Sys2Proof.Machine
end

