-- ==== Sys2Proof/Machine/Dispatch.lean ====
section
/-! DEFINITION. Machine/Dispatch.lean: one arm per constructor of Instr, each one call of its meaning. -/

namespace Sys2Proof.Machine

def exec (i : Instr) (s : State) : Host.Outcome State Fault Refusal :=
  match i with
  | .edgeInit pin mode => Sys2Proof.Machine.execEdgeInit pin mode s
  | .capture d => Sys2Proof.Machine.execCapture d s
  | .pulseInit => Sys2Proof.Machine.execPulseInit s
  | .drain => Sys2Proof.Machine.execDrain s
  | .decInit => Sys2Proof.Machine.execDecInit s
  | .process => Sys2Proof.Machine.execProcess s
  | .alarmFire deadline => Sys2Proof.Machine.execAlarmFire deadline s
  | .invalid => Sys2Proof.Machine.execInvalid s
  | .zero => Sys2Proof.Machine.execZero s
  | .one => Sys2Proof.Machine.execOne s
  | .start => Sys2Proof.Machine.execStart s
  | .repeatSym => Sys2Proof.Machine.execRepeat s
  | .endSym => Sys2Proof.Machine.execEnd s

end Sys2Proof.Machine
end

