-- ==== Sys2Proof/Machine/Sequencer.lean ====
section
/-! DEFINITION. Machine/Sequencer.lean: which agent moves next, and the steps that are no operation of the table: POLL's
continuation of the operation it is inside, and what ENV does to the pin and the counter (`00_scope.md` rules R6 and R7,
`20_memory.md` rules R60 to R62, `60_exceptions.md` rules R159 and R162). -/

namespace Sys2Proof.Machine

/-- One operation or symbol the decoder of words has read, classed by the agent that takes it (rule R9). -/
inductive Taker where
  /-- POLL, between two operations. -/
  | pollOperation
  /-- POLL, inside `PROCESS`, with the lock held. -/
  | pollSymbol (sym : Symbol)
  /-- CAP, at a change of the pin. -/
  | capture (d : Direction)
  /-- ALARM. -/
  | alarm
  deriving DecidableEq, Repr

/-- The agent of rule R9. -/
def takerOf : Instr → Taker
  | .edgeInit _ _ => .pollOperation
  | .capture d => .capture d
  | .pulseInit => .pollOperation
  | .drain => .pollOperation
  | .decInit => .pollOperation
  | .process => .pollOperation
  | .alarmFire _ => .alarm
  | .invalid => .pollSymbol .invalid
  | .zero => .pollSymbol .zero
  | .one => .pollSymbol .one
  | .start => .pollSymbol .start
  | .repeatSym => .pollSymbol .repeatSym
  | .endSym => .pollSymbol .endSym

/-- The end of an atomic step that leads from `s` to `done`, if the callbacks return. If it has invoked one, what follows
is the owner's: it returns; it never does, and the agent is left at `stuck`, inside the callback with the lock held; or
it invokes an operation of the block, which is `refuse` (`43_nec_decoder.md` rule R135, `70_reset_and_hazards.md` rule
R183, `93_implementation_defined.md` U12; log 14). -/
def callBack (s done stuck : State) : Result :=
  if s.trace.length < done.trace.length then
    match s.owner with
    | .returns => .next done
    | .neverReturns => .next stuck
    | .reenters => .refused .callbackReenters
  else .next done

/-- `Exec(sym)` as POLL's atomic step: the symbol's meaning, after which POLL stands before `PollRelease` (rule R122). -/
def executeSymbol (sym : Symbol) (s : State) : Result :=
  match exec sym.toInstr s with
  | .next s' => callBack s (s'.setPoll .release) (((beforeCallback sym s).setTrace s'.trace).setPoll .stuck)
  | .fault r => .fault r
  | .refused r => .refused r

/-- `ALARM_FIRE` as ALARM's atomic step. An alarm whose callback never returns is spent, and holds the lock (rule R183). -/
def fireAlarm (i : Instr) (s : State) : Result :=
  match exec i s with
  | .next s' => callBack s s' (((s.setAlarms s'.alarms).setTrace s'.trace).setLock .heldByAlarm)
  | .fault r => .fault r
  | .refused r => .refused r

/-- `PollAcquire` for the symbol just classified; while the lock is not `Free`, POLL waits (rule R62). -/
def acquireForSymbol (sym : Symbol) (s : State) : State :=
  match pollAcquire s with
  | some s' => s'.setPoll (.execute sym)
  | none => s

/-- `PollRelease` after a symbol (rule R122). -/
def releaseAfterSymbol (s : State) : Result :=
  match pollRelease s with
  | some s' => .next (s'.setPoll .process)
  | none => .refused .lockNotHeld

/-- POLL is inside an operation and has no step to take: a calibration before its end, a lock that is not `Free`, a
callback that never returns, its own or ALARM's. -/
def pollWaits (s : State) : Bool :=
  alarmHoldsLock s ||
  match s.poll with
  | .idle => false
  | .calibrate t0 => calibrationWaits t0 s
  | .drain => false
  | .process => false
  | .acquire _ => s.ds.lock ≠ .free
  | .execute _ => false
  | .release => false
  | .stuck => true

/-- POLL's next atomic step inside the operation it has begun; none between two operations, none while it waits, and
none while the alarm context holds the lock (rule R62). -/
def pollStep (s : State) : Result :=
  if alarmHoldsLock s then .next s else
  match s.poll with
  | .idle => .next s
  | .calibrate t0 => .next (calibrationStep t0 s)
  | .drain => .next (drainIteration s)
  | .process => .next (processIteration s)
  | .acquire sym => .next (acquireForSymbol sym s)
  | .execute sym => executeSymbol sym s
  | .release => releaseAfterSymbol s
  | .stuck => .next s

/-- ENV changes the pin to `l`, and CAP captures the change (rule R93: exactly once, at the change). While edges are
captured, `TIME` must have advanced since the last captured one (rules R95 and R169). -/
def changePin (l : Level) (s : State) : Result :=
  match s.lastCapture with
  | none => exec (.capture l.toDirection) (s.setPin l)
  | some t =>
    if s.erEnabled ∧ s.time.toNat ≤ t.toNat then .refused .edgesSameTime
    else exec (.capture l.toDirection) (s.setPin l)

/-- ENV drives the pin to `l`: a change if it is at the other level, nothing otherwise (rule R35). -/
def drivePin (l : Level) (s : State) : Result := if s.irIn = l then .next s else changePin l s

/-- A `CAPTURE` of direction `d` is requested. It is a change of the pin to the level after the edge; a direction that
is no change cannot arise while edges are captured (rule R96, U19), and before that nothing is captured (rule R93). -/
def takeCapture (d : Direction) (s : State) : Result :=
  if s.irIn = d.toLevel then
    if s.erEnabled then .refused .edgeWithoutChange else exec (.capture d) s
  else changePin d.toLevel s

/-- ENV advances `TIME` to `t` (rule R34). -/
def advanceTime (t : Time) (s : State) : Result :=
  if t.toNat < s.time.toNat then .refused .timeDecreases
  else if timeInRange t then .next (s.setTime t)
  else .refused .timeOutOfRange

/-- The `TIME` at which POLL's calibration ends, if that is before `t` and POLL can take a step then. -/
def calibrationEndBefore (t : Time) (s : State) : Option Nat :=
  if alarmHoldsLock s then none else
  match s.poll with
  | .calibrate t0 => if calibrationEnd t0 s < t.toNat then some (calibrationEnd t0 s) else none
  | .idle => none
  | .drain => none
  | .process => none
  | .acquire _ => none
  | .execute _ => none
  | .release => none
  | .stuck => none

/-- ENV is to advance `TIME` to `t`, `s` being the state without that turn and `waiting` the state with it. A calibration
ends at its own `TIME` (rule R92), so ENV stops there, and POLL ends it before ENV goes on. -/
def takeTime (t : Time) (s waiting : State) : Result :=
  match calibrationEndBefore t s with
  | none => advanceTime t s
  | some e => if pollWaits s then advanceTime (BitVec.ofNat cfg.tsWidth e) waiting else pollStep waiting

/-- A fetched operation, `s` being the state without its turn and `waiting` the state with it. An operation of POLL
waits, and POLL goes on with the one it is inside, until that has returned (rule R7); it waits too while the alarm
context holds the lock, and POLL has no step at all (rule R62); `CAPTURE` and `ALARM_FIRE` come at once (rule R162); a
symbol is POLL's own step `Exec`, if it is the symbol POLL has classified (rule R122). -/
def takeOperation (i : Instr) (s waiting : State) : Result :=
  match takerOf i with
  | .pollOperation => if s.poll = .idle ∧ ¬ alarmHoldsLock s then exec i s else pollStep waiting
  | .pollSymbol sym => if s.poll = .execute sym then executeSymbol sym s else .refused .symbolNotNext
  | .capture d => takeCapture d s
  | .alarm => fireAlarm i s

/-- The next turn. With none left, POLL goes on alone, and between two operations nothing happens (rule R170). -/
def takeTurn (s : State) : Result :=
  match s.turns with
  | [] => pollStep s
  | .op w :: rest =>
    match decode w with
    | .ok i => takeOperation i (s.setTurns rest) s
    | .error e => .refused (.undefinedWord e)
  | .poll :: rest => pollStep (s.setTurns rest)
  | .finish :: rest => if s.poll = .idle ∨ pollWaits s then .next (s.setTurns rest) else pollStep s
  | .time t :: rest => takeTime t (s.setTurns rest) s
  | .level l :: rest => drivePin l (s.setTurns rest)
  | .owner c :: rest => .next ((s.setTurns rest).setOwner c)

/-- What a word needs, beside its turn, to be the next thing that happens: nothing for a word that is no operation;
for an operation of POLL, that POLL is between two operations and the alarm context does not hold the lock; for a
symbol, that POLL holds the lock and is about to execute it; for a `CAPTURE`, that the pin is at the other level and
nothing has just been captured. -/
def readyFor (w : OpWord) (s : State) : State :=
  match decode w with
  | .error _ => s
  | .ok i =>
    match takerOf i with
    | .pollOperation => (if alarmHoldsLock s then s.setLock .free else s).setPoll .idle
    | .pollSymbol sym => (s.setLock .heldByPoll).setPoll (.execute sym)
    | .capture d => { s with irIn := d.toLevel.other, lastCapture := none }
    | .alarm => s

end Sys2Proof.Machine
end

