-- ==== Sys2Proof/Machine/Step.lean ====
section
/-! DEFINITION. Machine/Step.lean: one step of the machine, and the placing of a word where the step fetches it. -/

namespace Sys2Proof.Machine

/-- One atomic step (`00_scope.md` rule R6). A state whose `TIME` is out of range is outside the spec (rule R34). -/
def step (s : State) : Host.Outcome State Fault Refusal :=
  if timeInRange s.time then takeTurn s else .refused .timeOutOfRange

/-- `s` with the operation of word `w` as the next thing that happens. -/
def State.withFetchWord (s : State) (nbits w : Nat) : State :=
  (readyFor (tableWord nbits w) s).setTurns (.op (tableWord nbits w) :: s.turns)

end Sys2Proof.Machine
end

