-- ==== Sys2Proof/Machine/Conditions.lean ====
section
/-! DEFINITION. Machine/Conditions.lean: which of the four error kinds an operation meets (`60_exceptions.md` rules R150
to R155). Three of them are recorded nowhere and reported to nobody, so no step of the machine reads this file;
`CalibrationTimeout` is raised by `endCalibration`. -/

namespace Sys2Proof.Machine

/-- `ProtocolViolation` of a data bit: a bit that is not due while Building, or a word with wrong complements
(rule R153). `d` is the data word after the bit. -/
def bitViolation (s : State) (d : DataWord) : Option ErrorKind :=
  if s.ds.building && (!s.ds.bitDue || (s.ds.atLastBit && !complementsValid d)) then some .protocolViolation else none

/-- `ProtocolViolation` of a symbol that is not due while Building (rule R153). -/
def sequenceViolation (s : State) (due : Bool) : Option ErrorKind :=
  if s.ds.building && !due then some .protocolViolation else none

/-- The error kind an operation meets in a state in which it runs, if any (rules R151 to R155). -/
def conditionOf : Instr → State → Option ErrorKind
  | .edgeInit _ _, _ => none
  | .capture _, s => if s.erEnabled && qCount s.edgeQ = cfg.edgeQCap then some .queueOverflow else none
  | .pulseInit, _ => none
  | .drain, _ => none
  | .decInit, _ => none
  | .process, _ => none
  | .alarmFire _, s => if s.ds.lock = .free then none else some .lockContention
  | .invalid, s => sequenceViolation s false
  | .zero, s => bitViolation s s.ds.data
  | .one, s => bitViolation s (setDataBit s.ds.data s.ds.step)
  | .start, _ => none
  | .repeatSym, s => sequenceViolation s s.ds.repeatDue
  | .endSym, s => sequenceViolation s s.ds.endDue

end Sys2Proof.Machine
end

