-- ==== Sys2Proof/Machine/Stimulus.lean ====
section
/-! DEFINITION. Machine/Stimulus.lean: the textual form of a run (`30_encoding.md` rule R86) and its pseudo-operations
(rule R87), as data, with the turns each line stands for. No step of the machine reads this file. -/

namespace Sys2Proof.Machine

/-- One line of rule R86, without its time. -/
inductive Line where
  | edgeInit (mode : IdleMode)
  | pulseInit
  | decInit
  | capture (d : Direction)
  | drain
  | process
  | alarmFire (deadline : Time)
  /-- `P.ACQ`; `first` says that it opens a `PROCESS`, rather than going on to the next symbol of one. -/
  | pAcq (first : Bool)
  /-- `P.EXEC sym`. -/
  | pExec (sym : Symbol)
  /-- `P.REL`. -/
  | pRel
  deriving DecidableEq, Repr

/-- A line with the value of `TIME` at which it happens. -/
structure TimedLine where
  line : Line
  at'  : Nat
  deriving DecidableEq, Repr

/-- The turn that requests an operation. -/
def Turn.request (i : Instr) : Turn := .op (encode i)

/-- The turns of a line's operation. A line of POLL stands for the whole call, "with nothing of another agent in
between" (rule R86). The pin is of no account to any rule. -/
def Line.turns : Line → List Turn
  | .edgeInit mode => [.request (.edgeInit 0 mode), .finish]
  | .pulseInit => [.request .pulseInit, .finish]
  | .decInit => [.request .decInit, .finish]
  | .capture d => [.request (.capture d)]
  | .drain => [.request .drain, .finish]
  | .process => [.request .process, .finish]
  | .alarmFire deadline => [.request (.alarmFire deadline)]
  | .pAcq first => if first then [.request .process, .poll] else [.poll, .poll]
  | .pExec sym => [.request sym.toInstr]
  | .pRel => [.poll]

/-- The turns of a timed line: ENV advances `TIME`, then the operation. -/
def TimedLine.turns (l : TimedLine) : List Turn := .time (BitVec.ofNat 64 l.at') :: l.line.turns

/-- The turns of a listing. -/
def listingTurns (ls : List TimedLine) : List Turn := ls.flatMap TimedLine.turns

/-! ## Pseudo-operations (rule R87), for a line whose idle level is `idle` -/

/-- `POLL @t`. -/
def pollLines (t : Nat) : List TimedLine := [⟨.drain, t⟩, ⟨.process, t⟩]

/-- `PULSE d @t`: the active-going edge, and the idle-going edge `d` later. -/
def pulseLines (idle : Level) (d t : Nat) : List TimedLine :=
  [⟨.capture idle.other.toDirection, t⟩, ⟨.capture idle.toDirection, t + d⟩]

/-- `SYM_START @t`; the next pulse starts at `t + 13500`. -/
def symStartLines (idle : Level) (t : Nat) : List TimedLine := pulseLines idle 9000 t

/-- `SYM_REPEAT @t`; the next pulse starts at `t + 11250`. -/
def symRepeatLines (idle : Level) (t : Nat) : List TimedLine := pulseLines idle 9000 t

/-- `BIT0 @t` and `BIT1 @t`: the same pulse. -/
def bitLines (idle : Level) (t : Nat) : List TimedLine := pulseLines idle 560 t

/-- When the pulse after a bit starts: `t + 1120` after `BIT0`, `t + 2250` after `BIT1`. -/
def afterBit (b : Bool) (t : Nat) : Nat := if b then t + 2250 else t + 1120

/-- `STOP @t`. -/
def stopLines (idle : Level) (t : Nat) : List TimedLine := pulseLines idle 560 t

/-- Bits `s`, `s + 1`, ... of `w`, `n` of them, from `t` on, and then `STOP`. -/
def bitsLines (idle : Level) (w : DataWord) : Nat → Nat → Nat → List TimedLine
  | 0, _, t => stopLines idle t
  | n + 1, s, t => bitLines idle t ++ bitsLines idle w n (s + 1) (afterBit (w.getLsbD s) t)

/-- `NECWORD w @t`. -/
def necWordLines (idle : Level) (w : DataWord) (t : Nat) : List TimedLine :=
  symStartLines idle t ++ bitsLines idle w cfg.dataBits 0 (t + 13500)

/-- `NECFRAME a c @t`. -/
def necFrameLines (idle : Level) (address command : Byte) (t : Nat) : List TimedLine :=
  necWordLines idle (necWord address command) t

/-- `NECREPEAT @t`. -/
def necRepeatLines (idle : Level) (t : Nat) : List TimedLine :=
  symRepeatLines idle t ++ stopLines idle (t + 11250)

end Sys2Proof.Machine
end

