-- ==== Sys2Proof/Safety.lean ====
section
/-! DEFINITION. Safety.lean: the terms the statements are written in: the invariant of the block (`10_state.md` rule R28
and the bounds, orders and pairings of the other rules), quiescence, the duties of the timer facility, and the calls of
`DRAIN` and `PROCESS` taken whole. -/

namespace Sys2Proof.Safety

open Sys2Proof.Machine

/-! ## The invariant -/

/-- Neither queue holds more entries than its capacity (`20_memory.md` rule R51). -/
def QueuesBounded (s : State) : Prop := s.edgeQ.length ≤ 128 ∧ s.pulseQ.length ≤ 32

/-- The multiset `ALARMS` is listed in rising order (log 1). -/
def AlarmsSorted (s : State) : Prop := s.alarms.Pairwise (fun a b => a.toNat ≤ b.toNat)

/-- The flags and what exists only after them (`10_state.md` rules R30, R36, R42; `70_reset_and_hazards.md` rules R170,
R171). -/
def InitConsistent (s : State) : Prop :=
  s.erEnabled = s.erInit ∧
  (s.erInit = false → s.edgeQ = []) ∧
  (s.pdInit = false → s.pulseQ = [] ∧ s.decInit = false) ∧
  (s.decInit = false → s.alarms = [])

/-- POLL is inside an operation only where that operation may run (`70_reset_and_hazards.md` rule R172), and a
calibration has begun and not yet ended (`40_edge_receiver.md` rule R92), unless POLL can take no step to end it
(`20_memory.md` rule R62). -/
def PhaseLegal (s : State) : Prop :=
  match s.poll with
  | .idle => True
  | .calibrate t0 => s.erInit = false ∧ t0.toNat ≤ s.time.toNat ∧
      (alarmHoldsLock s = false → s.time.toNat ≤ calibrationEnd t0 s)
  | .drain => s.erInit = true ∧ s.pdInit = true
  | .process => s.decInit = true
  | .acquire _ => s.decInit = true
  | .execute _ => s.decInit = true
  | .release => s.decInit = true
  | .stuck => s.decInit = true

/-- Whether POLL is between its `PollAcquire` and its `PollRelease` (`43_nec_decoder.md` rule R122); inside a callback
that never returns it stays there (log 14). -/
def insideLock : PollPhase → Bool
  | .idle => false
  | .calibrate _ => false
  | .drain => false
  | .process => false
  | .acquire _ => false
  | .execute _ => true
  | .release => true
  | .stuck => true

/-- Once the decoder exists, the lock between two steps is held by POLL exactly from `PollAcquire` to `PollRelease`
(`20_memory.md` rule R62). Otherwise it is free, or held by an ALARM inside a callback that never returns
(`44_end_timer.md` rule R142, log 14). -/
def LockMatchesPhase (s : State) : Prop :=
  s.decInit = true → (s.ds.lock = .heldByPoll ↔ insideLock s.poll = true)

/-- `10_state.md` rule R28 (a): while Building, `implicit_end` is set exactly at the even steps from 32 on. -/
def EndFlagMatchesStep (s : State) : Prop :=
  s.decInit = true → s.ds.isCancelled = false →
    (s.ds.implicitEnd = true ↔ 32 ≤ s.ds.step.toNat ∧ s.ds.step.toNat % 2 = 0)

/-- `10_state.md` rule R28 (b): while Building, the bits not yet received are 0. The rule speaks of a
free lock; the one step that can be left halfway, by a callback that never returns, is excepted (log 14). -/
def UnreceivedBitsClear (s : State) : Prop :=
  s.decInit = true → s.poll ≠ .stuck → s.ds.isCancelled = false → s.ds.step.toNat ≤ 31 →
    s.ds.data.toNat < 2 ^ s.ds.step.toNat

/-- Where a pulse ends, as a number: it never wraps (`30_encoding.md` rule R81 line 3). -/
def pulseEnd (p : Pulse) : Nat := p.start.toNat + p.duration.toNat

/-- The timestamps in both queues rise from head to tail, a pulse ends before the next one starts and before any queued
edge, and all of it lies in the past (`40_edge_receiver.md` rule R95, `30_encoding.md` rules R79, R81). -/
def QueuesInTime (s : State) : Prop :=
  s.edgeQ.Pairwise (fun a b => a.timestamp.toNat < b.timestamp.toNat) ∧
  s.pulseQ.Pairwise (fun p q => pulseEnd p < q.start.toNat) ∧
  (∀ p ∈ s.pulseQ, ∀ e ∈ s.edgeQ, pulseEnd p < e.timestamp.toNat) ∧
  (∀ t, s.levelSince = some t → t.toNat ≤ s.time.toNat) ∧
  (∀ t, s.lastCapture = some t → t.toNat ≤ s.time.toNat) ∧
  (∀ e ∈ s.edgeQ, ∃ t, s.lastCapture = some t ∧ e.timestamp.toNat ≤ t.toNat) ∧
  (∀ p ∈ s.pulseQ, ∃ t, s.lastCapture = some t ∧ pulseEnd p ≤ t.toNat)

/-- The invariant every step keeps. -/
structure Inv (s : State) : Prop where
  timeInRange         : timeInRange s.time = true
  queuesBounded       : QueuesBounded s
  alarmsSorted        : AlarmsSorted s
  initConsistent      : InitConsistent s
  phaseLegal          : PhaseLegal s
  lockMatchesPhase    : LockMatchesPhase s
  endFlagMatchesStep  : EndFlagMatchesStep s
  unreceivedBitsClear : UnreceivedBitsClear s
  queuesInTime        : QueuesInTime s

/-! ## Ends of runs, and the timer facility -/

/-- The environment makes no further level change: every turn to come that drives or captures the pin is at its present
level. -/
def NoLevelChange (s : State) : Prop :=
  ∀ x ∈ s.turns, (∀ l, x = .level l → l = s.irIn) ∧
    ∀ w d, x = .op w → decode w = .ok (.capture d) → d.toLevel = s.irIn

/-- A quiescent state (`70_reset_and_hazards.md` rule R187): no `DRAIN` iteration could do anything; no `PROCESS`
iteration could, be it one that has its symbol already; the lock is free; no alarm is pending; and the environment makes
no further level change. `TIME` may still advance, and operations may still be requested. -/
def Quiescent (s : State) : Prop :=
  (qCount s.edgeQ < 2 ∨ qCount s.pulseQ = cfg.pulseQCap) ∧
  qCount s.pulseQ < 2 ∧ (∀ sym, s.poll ≠ .acquire sym) ∧
  s.ds.lock = .free ∧ s.alarms = [] ∧ NoLevelChange s

/-- No pending alarm is later than `ALARM_LATENCY` (`44_end_timer.md` rule R146). The parameter is OPEN. -/
def alarmsTimely (s : State) : Prop := ∀ a ∈ s.alarms, s.time.toNat ≤ a.toNat + Config.alarmLatency

/-- `n` steps of the machine. -/
def run (n : Nat) (s : State) : Result := Sys2Proof.core.run n s

/-! ## Messages -/

/-- The decoder exists and a message is in progress: state Building (`10_state.md` rule R23). -/
def MessageOpen (s : State) : Prop := s.decInit = true ∧ s.ds.isCancelled = false

/-- The decoder exists and POLL holds its lock: where a symbol is executed (`43_nec_decoder.md` rule R122). -/
def MayExecute (s : State) : Prop := s.decInit = true ∧ s.ds.lock = .heldByPoll

/-- The entry an `end_of_transmission()` emitted now by `g` adds to the trace. -/
def eot (g : Agent) (s : State) : TraceEntry := ⟨s.time, g, .event .endOfTransmission⟩

/-- The complement bytes of a word are right (`30_encoding.md` rule R80). -/
abbrev WordValid (w : DataWord) : Prop :=
  w.extractLsb' 0 8 = ~~~(w.extractLsb' 8 8) ∧ w.extractLsb' 16 8 = ~~~(w.extractLsb' 24 8)

/-- What the 32nd bit emits for the word `w` (`43_nec_decoder.md` rule R127). -/
def wordEvents (w : DataWord) (s : State) : List TraceEntry :=
  if WordValid w then
    [⟨s.time, .poll, .event (.newCommand (w.extractLsb' 0 8) (w.extractLsb' 16 8) false)⟩]
  else []

/-- `s` after an `Arm` at the present `TIME` (`44_end_timer.md` rule R140). -/
def armed (s : State) : State :=
  { s with ds := { s.ds with sparedUntil := s.time + 120000 }, alarms := addAlarm (s.time + 125000) s.alarms }

/-- `s` after the abort of a message in progress (`43_nec_decoder.md` rule R131). -/
def aborted (s : State) : State :=
  { s with ds := { s.ds with isCancelled := true }, trace := s.trace ++ [eot .poll s] }

/-- `s` with a fresh message, `reset` of `43_nec_decoder.md` rule R123. -/
def fresh (s : State) : State :=
  { s with ds := { s.ds with data := 0, step := 0, implicitEnd := false, isCancelled := false } }

/-- `s` after its 32nd bit, the data word being `w` (`43_nec_decoder.md` rule R127). -/
def completed (w : DataWord) (s : State) : State :=
  armed { s with ds := { s.ds with data := w, step := 32, implicitEnd := true }, trace := s.trace ++ wordEvents w s }

/-- The data word with the bit of the present step set for a `ONE`, left for a `ZERO`. -/
def withBit (b : Bool) (d : DecoderState) : DataWord := if b then d.data ||| (1#32 <<< d.step.toNat) else d.data

/-- The transition table of `43_nec_decoder.md` rule R123, row by row: the Idle row, and the Building rows told apart by
`step` alone. -/
def transition (s : State) : Symbol → State
  | .start => if s.ds.isCancelled then fresh s else armed (fresh { s with trace := s.trace ++ [eot .poll s] })
  | .zero =>
    if s.ds.isCancelled then s
    else if s.ds.step.toNat < 31 then { s with ds := { s.ds with step := s.ds.step + 1 } }
    else if s.ds.step.toNat = 31 then completed s.ds.data s
    else aborted s
  | .one =>
    if s.ds.isCancelled then s
    else if s.ds.step.toNat < 31 then
      { s with ds := { s.ds with data := withBit true s.ds, step := s.ds.step + 1 } }
    else if s.ds.step.toNat = 31 then completed (withBit true s.ds) s
    else aborted s
  | .endSym =>
    if s.ds.isCancelled then s
    else if 32 ≤ s.ds.step.toNat ∧ s.ds.step.toNat % 2 = 0 then
      { s with ds := { s.ds with implicitEnd := false, step := s.ds.step + 1 } }
    else aborted s
  | .repeatSym =>
    if s.ds.isCancelled then s
    else if 32 < s.ds.step.toNat ∧ s.ds.step.toNat % 2 = 1 then
      armed { s with ds := { s.ds with implicitEnd := true, step := s.ds.step + 1 } }
    else aborted s
  | .invalid => if s.ds.isCancelled then s else aborted s

/-- A symbol that is accepted in a message in progress and opens no other: a bit up to the 32nd, an `END` that is
expected, a `REPEAT` that is due (`43_nec_decoder.md` rules R125, R128, R129). -/
def Accepted (d : DecoderState) : Symbol → Prop
  | .zero => d.step.toNat ≤ 31
  | .one => d.step.toNat ≤ 31
  | .endSym => d.implicitEnd = true
  | .repeatSym => 32 < d.step.toNat ∧ d.step.toNat % 2 = 1
  | .start => False
  | .invalid => False

/-- How many `end_of_transmission()` events a trace holds. -/
def endings (tr : List TraceEntry) : Nat := tr.countP (fun e => e.what = .event .endOfTransmission)

/-! ## Whole calls -/

/-- The loop of `DRAIN` (`41_pulse_detector.md` rule R101) on the two queues, with nothing of another agent between its
iterations. -/
def drainCall (idle : Level) : List Edge → List Pulse → List Edge × List Pulse
  | first :: second :: rest, pulses =>
    if pulses.length = 32 then (first :: second :: rest, pulses)
    else if first.direction.toLevel = idle then drainCall idle (second :: rest) pulses
    else drainCall idle rest
      (pulses ++ [{ start := first.timestamp, duration := (second.timestamp - first.timestamp).setWidth 32 }])
  | edges, pulses => (edges, pulses)

/-- The symbols of `PROCESS` (`43_nec_decoder.md` rule R121) on a queue of pulses, each executed under the lock, with
nothing of another agent between its steps. -/
def processCall : List Pulse → State → Result
  | cur :: next :: rest, s =>
    match exec (symbolOf cur next).toInstr
        { s with pulseQ := next :: rest, ds := { s.ds with lock := .heldByPoll } } with
    | .next t => processCall (next :: rest) { t with ds := { t.ds with lock := .free } }
    | .fault r => .fault r
    | .refused r => .refused r
  | _, s => .next s

/-- A sequence of symbols, each executed with the lock held. -/
def execSymbols : List Symbol → State → Result
  | [], s => .next s
  | sym :: rest, s =>
    match exec sym.toInstr s with
    | .next t => execSymbols rest t
    | .fault r => .fault r
    | .refused r => .refused r

/-- The symbol that carries a bit. -/
def bitSymbol (b : Bool) : Symbol := if b then .one else .zero

/-- The symbols of a frame: `START`, then the 32 bits of `w`, bit 0 first (`30_encoding.md` rule R76). -/
def frameSymbols (w : DataWord) : List Symbol :=
  .start :: (List.range 32).map (fun k => bitSymbol (w.getLsbD k))

/-- The symbols that follow a data word while a button is held: `END`, then `n` pairs of `REPEAT` and `END`. -/
def heldSymbols : Nat → List Symbol
  | 0 => [.endSym]
  | n + 1 => heldSymbols n ++ [.repeatSym, .endSym]

end Sys2Proof.Safety
end

