-- ==== Sys2Proof/Certificates/Slice0/Obligations.lean ====
section
/-! DEFINITION. Certificates/Slice0/Obligations.lean: the statements for the provers. -/

open Sys2Proof Sys2Proof.Machine Sys2Proof.Safety

/-! ## Reset and initialisation -/

/-- `70_reset_and_hazards.md` rule R170: the power-on state, whatever the environment gives `TIME` and `ir_in`; nothing
is captured, no alarm fires, and the block does nothing by itself. -/
def Obligations.PowerOnIsUninitialised : Prop :=
  ∀ (t : Time) (l : Level), timeInRange t = true →
    (State.powerOn t l).erInit = false ∧ (State.powerOn t l).pdInit = false ∧ (State.powerOn t l).decInit = false ∧
    (State.powerOn t l).erEnabled = false ∧ (State.powerOn t l).alarms = [] ∧
    (State.powerOn t l).time = t ∧ (State.powerOn t l).irIn = l ∧
    (∀ d, exec (.capture d) (State.powerOn t l) = .next (State.powerOn t l)) ∧
    (∀ a, exec (.alarmFire a) (State.powerOn t l) = .refused .alarmNotPending) ∧
    step (State.powerOn t l) = .next (State.powerOn t l)

/-- The invariant holds at power-on, and so at `State.reset`. That the queues hold nothing there is the model's choice
(DESIGN CHOICE, log 5: `10_state.md` rule R42 says that they do not exist yet), and so are the values of `State.reset`. -/
def Obligations.PowerOnMeetsInvariant : Prop :=
  (∀ (t : Time) (l : Level), timeInRange t = true → Inv (State.powerOn t l)) ∧ Inv State.reset

/-- `40_edge_receiver.md` rule R91: with an explicit level `EDGE_INIT` takes that level, whatever the line does, and cannot
fail; its writes and its result are those of rule R90. -/
def Obligations.EdgeInitExplicitCompletes : Prop :=
  ∀ (pin : Pin) (s : State), s.poll = .idle → s.erInit = false →
    exec (.edgeInit pin .low) s = .next { s with
      erIdleLevel := .low, edgeQ := [], erEnabled := true, erInit := true,
      trace := s.trace ++ [⟨s.time, .poll, .edgeInitOk .low⟩] } ∧
    exec (.edgeInit pin .high) s = .next { s with
      erIdleLevel := .high, edgeQ := [], erEnabled := true, erInit := true,
      trace := s.trace ++ [⟨s.time, .poll, .edgeInitOk .high⟩] }

/-- `40_edge_receiver.md` rule R92: with `Auto`, `EDGE_INIT` begins to calibrate at the present `TIME` (the phase is the
model's, log 7). `30_encoding.md` rules R73 and R84 (c): the reserved idle mode is refused. -/
def Obligations.EdgeInitAutoBegins : Prop :=
  ∀ (pin : Pin) (s : State), s.poll = .idle → s.erInit = false →
    exec (.edgeInit pin .auto) s = .next { s with poll := .calibrate s.time } ∧
    exec (.edgeInit pin .reserved) s = .refused .reservedIdleMode

/-- `40_edge_receiver.md` rule R92 (the idealisation of `92_eei_decisions.md` D9, log 7): a calibration begun at `t0`,
with the pin at its level since `since`, ends at the `TIME` `tEnd`: `since + 30000`, with that level, if that is no later
than `t0 + 1000000`; otherwise `t0 + 1000000`, with `CalibrationTimeout`, and the block as before the call. Before `tEnd`
POLL only waits. ENV, which alone moves `TIME`, stops at `tEnd` on its way further, and POLL ends the calibration there,
unless the alarm context holds the lock and POLL has no step (`StuckCallbackKeepsTheLock`). The list of turns is the
model's (log 1). -/
def Obligations.CalibrationEndsAsStated : Prop :=
  ∀ (s : State) (t0 tEnd : Time) (since : Nat),
    timeInRange s.time = true → timeInRange tEnd = true → s.poll = .calibrate t0 →
    (s.decInit = true → s.ds.lock ≠ .heldByAlarm) →
    (s.levelSince = none ∧ since = t0.toNat ∨ ∃ t, s.levelSince = some t ∧ since = max t0.toNat t.toNat) →
    tEnd.toNat = min (since + 30000) (t0.toNat + 1000000) →
    (s.turns = [] → s.time.toNat < tEnd.toNat → step s = .next s) ∧
    (∀ t rest, s.turns = .time t :: rest → tEnd.toNat < t.toNat → s.time.toNat < tEnd.toNat →
      step s = .next { s with time := tEnd }) ∧
    ((s.turns = [] ∨ ∃ t rest, s.turns = .time t :: rest ∧ tEnd.toNat < t.toNat) → s.time = tEnd →
      (since + 30000 ≤ t0.toNat + 1000000 → step s = .next { s with
        erIdleLevel := s.irIn, edgeQ := [], erEnabled := true, erInit := true, poll := .idle,
        trace := s.trace ++ [⟨tEnd, .poll, .edgeInitOk s.irIn⟩] }) ∧
      (t0.toNat + 1000000 < since + 30000 → step s = .next { s with
        poll := .idle, trace := s.trace ++ [⟨tEnd, .poll, .edgeInitFailed .calibrationTimeout⟩] }))

/-- `41_pulse_detector.md` rule R100 and `43_nec_decoder.md` rule R120: the other two initialisations complete. -/
def Obligations.QueueAndDecoderInitComplete : Prop :=
  ∀ s : State, s.poll = .idle →
    (s.pdInit = false → exec .pulseInit s = .next { s with pulseQ := [], pdInit := true }) ∧
    (s.decInit = false → s.pdInit = true → exec .decInit s = .next { s with
      ds := { data := 0, step := 0, implicitEnd := false, isCancelled := true, sparedUntil := 0, lock := .free },
      alarms := [], decInit := true })

/-- `70_reset_and_hazards.md` rule R172. -/
def Obligations.UseBeforeInitIsRefused : Prop :=
  ∀ s : State, s.poll = .idle →
    (s.erInit = false ∨ s.pdInit = false → exec .drain s = .refused .notInitialised) ∧
    (s.decInit = false → exec .process s = .refused .notInitialised) ∧
    (s.decInit = false → s.pdInit = false → exec .decInit s = .refused .notInitialised) ∧
    (s.erEnabled = false → ∀ d, exec (.capture d) s = .next s)

/-- `70_reset_and_hazards.md` rule R173, and the sequential agent of `00_scope.md` rule R7. -/
def Obligations.SecondInitAndOverlapAreRefused : Prop :=
  ∀ s : State,
    (s.poll = .idle → s.erInit = true → ∀ pin mode, exec (.edgeInit pin mode) s = .refused .initialisedTwice) ∧
    (s.poll = .idle → s.pdInit = true → exec .pulseInit s = .refused .initialisedTwice) ∧
    (s.poll = .idle → s.decInit = true → exec .decInit s = .refused .initialisedTwice) ∧
    (s.poll ≠ .idle → (∀ pin mode, exec (.edgeInit pin mode) s = .refused .pollBusy) ∧
      exec .pulseInit s = .refused .pollBusy ∧ exec .decInit s = .refused .pollBusy ∧
      exec .drain s = .refused .pollBusy ∧ exec .process s = .refused .pollBusy)

/-! ## Edge Receiver -/

/-- `40_edge_receiver.md` rules R93 and R94: `CAPTURE` completes in every state. -/
def Obligations.CaptureCompletes : Prop :=
  ∀ (d : Direction) (s : State),
    (s.erEnabled = true → s.edgeQ.length < 128 →
      exec (.capture d) s = .next { s with edgeQ := s.edgeQ ++ [⟨s.time, d⟩] }) ∧
    (s.erEnabled = true → 128 ≤ s.edgeQ.length → exec (.capture d) s = .next s) ∧
    (s.erEnabled = false → exec (.capture d) s = .next s)

/-- `40_edge_receiver.md` rule R93: exactly one `CAPTURE` at every change of the pin, of the direction of the change,
with the present `TIME`; none where the pin does not change. -/
def Obligations.PinChangeIsCapturedOnce : Prop :=
  ∀ (s : State) (l : Level) (rest : List Turn), timeInRange s.time = true → s.turns = .level l :: rest →
    (s.irIn = l → step s = .next { s with turns := rest }) ∧
    (s.irIn ≠ l → (s.erEnabled = true → ∀ t, s.lastCapture = some t → t.toNat < s.time.toNat) →
      step s = .next { s with
        turns := rest, irIn := l, levelSince := some s.time,
        lastCapture := if s.erEnabled = true then some s.time else s.lastCapture,
        edgeQ := if s.erEnabled = true ∧ s.edgeQ.length < 128
          then s.edgeQ ++ [⟨s.time, if l = .high then .rising else .falling⟩] else s.edgeQ })

/-- The duties of the environment (`10_state.md` rule R34, `40_edge_receiver.md` rules R95, R96, `60_exceptions.md` rule
R169): a run that breaks one is refused; a legal advance of `TIME` outside a calibration changes `TIME` alone. -/
def Obligations.EnvironmentDuties : Prop :=
  ∀ (s : State) (rest : List Turn), timeInRange s.time = true →
    (∀ t : Time, s.turns = .time t :: rest → (∀ t0, s.poll ≠ .calibrate t0) →
      (t.toNat < s.time.toNat → step s = .refused .timeDecreases) ∧
      (2 ^ 64 - (2 ^ 32 + 125000) ≤ t.toNat → step s = .refused .timeOutOfRange) ∧
      (s.time.toNat ≤ t.toNat → t.toNat < 2 ^ 64 - (2 ^ 32 + 125000) →
        step s = .next { s with turns := rest, time := t })) ∧
    (∀ (l : Level) (t : Time), s.turns = .level l :: rest → s.irIn ≠ l → s.erEnabled = true →
      s.lastCapture = some t → s.time.toNat ≤ t.toNat → step s = .refused .edgesSameTime) ∧
    (∀ d : Direction, s.turns = .op (encode (.capture d)) :: rest → s.irIn = d.toLevel → s.erEnabled = true →
      step s = .refused .edgeWithoutChange)

/-! ## Pulse Detector -/

/-- `41_pulse_detector.md` rules R101 to R104, R107: `DRAIN` completes its first iteration in every state in which it
may run: it stops with fewer than two edges or no room, drops an idle-matching first edge, or pairs two edges. -/
def Obligations.DrainIterationCompletes : Prop :=
  ∀ s : State, s.poll = .idle → s.erInit = true → s.pdInit = true →
    (s.edgeQ.length < 2 → exec .drain s = .next s) ∧
    (s.pulseQ.length = 32 → exec .drain s = .next s) ∧
    (∀ first second rest, s.edgeQ = first :: second :: rest → s.pulseQ.length < 32 →
      (first.direction.toLevel = s.erIdleLevel →
        exec .drain s = .next { s with edgeQ := second :: rest, poll := .drain }) ∧
      (first.direction.toLevel ≠ s.erIdleLevel →
        exec .drain s = .next { s with
          edgeQ := rest, poll := .drain,
          pulseQ := s.pulseQ ++
            [⟨first.timestamp, (second.timestamp - first.timestamp).setWidth 32⟩] }))

/-- `41_pulse_detector.md` rule R101: a `DRAIN` with nothing of another agent between its iterations ends, and leaves
the queues as its loop says. Where the alarm context holds the lock POLL has no step (`StuckCallbackKeepsTheLock`). -/
def Obligations.DrainRunsToItsEnd : Prop :=
  ∀ s : State, timeInRange s.time = true → s.poll = .idle → s.erInit = true → s.pdInit = true → s.turns = [] →
    (s.decInit = true → s.ds.lock ≠ .heldByAlarm) → s.pulseQ.length ≤ 32 →
    ∃ n, n ≤ s.edgeQ.length + 1 ∧
      run n { s with turns := [.op (encode .drain)] } = .next { s with
        edgeQ := (drainCall s.erIdleLevel s.edgeQ s.pulseQ).1,
        pulseQ := (drainCall s.erIdleLevel s.edgeQ s.pulseQ).2 }

/-- `41_pulse_detector.md` rule R106, with its premise that the queued edges alternate: `DRAIN` keeps every pulse queued,
and each pulse it adds is one idle-active-idle interval between two adjacent queued edges. -/
def Obligations.PulsesAreActiveIntervals : Prop :=
  ∀ (idle : Level) (edges : List Edge) (pulses : List Pulse),
    edges.IsChain (fun a b => a.direction ≠ b.direction) →
    ∃ added, (drainCall idle edges pulses).2 = pulses ++ added ∧
      ∀ p ∈ added, ∃ pre first second post, edges = pre ++ first :: second :: post ∧
        first.direction.toLevel ≠ idle ∧ second.direction.toLevel = idle ∧
        p = ⟨first.timestamp, (second.timestamp - first.timestamp).setWidth 32⟩

/-! ## Classifier -/

/-- `42_nec_classifier.md` rules R111 to R116. -/
def Obligations.ClassifyByWindows : Prop :=
  ∀ (mark : Duration) (space : Time),
    (classify mark space = .zero ↔
      (500 ≤ mark.toNat ∧ mark.toNat < 650) ∧ 500 ≤ space.toNat ∧ space.toNat < 650) ∧
    (classify mark space = .one ↔
      (500 ≤ mark.toNat ∧ mark.toNat < 650) ∧ 1600 ≤ space.toNat ∧ space.toNat < 1750) ∧
    (classify mark space = .endSym ↔ (500 ≤ mark.toNat ∧ mark.toNat < 650) ∧ 1750 ≤ space.toNat) ∧
    (classify mark space = .repeatSym ↔
      (8000 ≤ mark.toNat ∧ mark.toNat < 10000) ∧ 2000 ≤ space.toNat ∧ space.toNat < 2500) ∧
    (classify mark space = .start ↔
      (8000 ≤ mark.toNat ∧ mark.toNat < 10000) ∧ 4000 ≤ space.toNat ∧ space.toNat < 5000) ∧
    (classify mark space = .invalid ↔
      mark.toNat < 500 ∨ (650 ≤ mark.toNat ∧ mark.toNat < 8000) ∨ 10000 ≤ mark.toNat ∨
      ((500 ≤ mark.toNat ∧ mark.toNat < 650) ∧
        (space.toNat < 500 ∨ (650 ≤ space.toNat ∧ space.toNat < 1600))) ∨
      ((8000 ≤ mark.toNat ∧ mark.toNat < 10000) ∧
        (space.toNat < 2000 ∨ (2500 ≤ space.toNat ∧ space.toNat < 4000) ∨ 5000 ≤ space.toNat)))

/-- `42_nec_classifier.md` rule R118: under every legal configuration each symbol is its own window, so the order of the
tests does not matter; the default configuration is legal. -/
def Obligations.LegalWindowsDecideTheSymbol : Prop :=
  cfg.Legal ∧ ∀ c : Config, c.Legal → ∀ (mark : Duration) (space : Time),
    (classifyWith c mark space = .zero ↔
      (c.bitMarkLo ≤ mark.toNat ∧ mark.toNat < c.bitMarkHi) ∧
        c.zeroSpaceLo ≤ space.toNat ∧ space.toNat < c.zeroSpaceHi) ∧
    (classifyWith c mark space = .one ↔
      (c.bitMarkLo ≤ mark.toNat ∧ mark.toNat < c.bitMarkHi) ∧
        c.oneSpaceLo ≤ space.toNat ∧ space.toNat < c.oneSpaceHi) ∧
    (classifyWith c mark space = .endSym ↔
      (c.bitMarkLo ≤ mark.toNat ∧ mark.toNat < c.bitMarkHi) ∧ c.endSpaceLo ≤ space.toNat) ∧
    (classifyWith c mark space = .repeatSym ↔
      (c.hdrMarkLo ≤ mark.toNat ∧ mark.toNat < c.hdrMarkHi) ∧
        c.rptSpaceLo ≤ space.toNat ∧ space.toNat < c.rptSpaceHi) ∧
    (classifyWith c mark space = .start ↔
      (c.hdrMarkLo ≤ mark.toNat ∧ mark.toNat < c.hdrMarkHi) ∧
        c.startSpaceLo ≤ space.toNat ∧ space.toNat < c.startSpaceHi)

/-- `30_encoding.md` rules R79 and R81 lines 3 and 4: under the invariant neither operation of the operand assembly
wraps, and the space is at least 1. -/
def Obligations.SpaceNeverWraps : Prop :=
  ∀ (s : State) (cur next : Pulse) (rest : List Pulse), Inv s → s.pulseQ = cur :: next :: rest →
    (markEnd cur).toNat = cur.start.toNat + cur.duration.toNat ∧
    (spaceOf cur next).toNat + (cur.start.toNat + cur.duration.toNat) = next.start.toNat ∧
    1 ≤ (spaceOf cur next).toNat

/-- `30_encoding.md` rule R87: each macro's pulse and its successor classify as the macro's name says. -/
def Obligations.MacrosClassifyAsNamed : Prop :=
  ∀ (t : Time) (d : Duration), t.toNat + 13500 < 2 ^ 64 →
    symbolOf ⟨t, 9000⟩ ⟨t + 13500, d⟩ = .start ∧ symbolOf ⟨t, 9000⟩ ⟨t + 11250, d⟩ = .repeatSym ∧
    symbolOf ⟨t, 560⟩ ⟨t + 1120, d⟩ = .zero ∧ symbolOf ⟨t, 560⟩ ⟨t + 2250, d⟩ = .one

/-! ## Decoder -/

/-- `43_nec_decoder.md` rule R121: `PROCESS` completes in every state in which it may run: it returns with fewer than
two pulses, and otherwise pops one, looks at the next, and goes on to the symbol of the two. -/
def Obligations.ProcessHeadCompletes : Prop :=
  ∀ s : State, s.poll = .idle → s.decInit = true →
    (s.pulseQ.length < 2 → exec .process s = .next s) ∧
    (∀ cur next rest, s.pulseQ = cur :: next :: rest →
      exec .process s = .next { s with
        pulseQ := next :: rest,
        poll := .acquire (classify cur.duration (next.start - (cur.start + cur.duration.setWidth 64))) })

/-- `43_nec_decoder.md` rule R122 and `20_memory.md` rule R62: the three steps of one symbol inside `PROCESS`, the owner's
callbacks returning, and the wait while the lock is held. While the alarm context holds it, POLL has no enabled step at
all. That a `PollRelease` without the lock is otherwise refused is the model's choice (log 18). -/
def Obligations.SymbolTakesThreeLockedSteps : Prop :=
  ∀ (s : State) (sym : Symbol), timeInRange s.time = true → s.turns = [] →
    (s.poll = .acquire sym → s.ds.lock = .free →
      step s = .next { s with ds := { s.ds with lock := .heldByPoll }, poll := .execute sym }) ∧
    (s.poll = .acquire sym → s.ds.lock ≠ .free → step s = .next s) ∧
    (s.poll = .execute sym → s.owner = .returns → ∀ t, exec sym.toInstr s = .next t →
      step s = .next { t with poll := .release }) ∧
    (s.poll = .release → s.ds.lock = .heldByPoll →
      step s = .next { s with ds := { s.ds with lock := .free }, poll := .process }) ∧
    (s.decInit = true → s.ds.lock = .heldByAlarm → step s = .next s) ∧
    (s.poll = .release → s.ds.lock ≠ .heldByPoll → s.decInit = false ∨ s.ds.lock ≠ .heldByAlarm →
      step s = .refused .lockNotHeld)

/-- `43_nec_decoder.md` rule R121: a `PROCESS` with nothing of another agent between its steps executes the symbol of
every adjacent pair of queued pulses, each under the lock, and ends, if the owner's callbacks return. -/
def Obligations.ProcessRunsToItsEnd : Prop :=
  ∀ s : State, timeInRange s.time = true → s.poll = .idle → s.decInit = true → s.ds.lock = .free → s.turns = [] →
    s.owner = .returns → ∃ n, run n { s with turns := [.op (encode .process)] } = processCall s.pulseQ s

/-- `43_nec_decoder.md` rule R124: `START` completes, from Idle and as an interruption. -/
def Obligations.StartCompletes : Prop :=
  ∀ s : State, MayExecute s →
    (s.ds.isCancelled = true → exec .start s = .next { s with
      ds := { s.ds with data := 0, step := 0, implicitEnd := false, isCancelled := false } }) ∧
    (s.ds.isCancelled = false → exec .start s = .next { s with
      ds := { s.ds with data := 0, step := 0, implicitEnd := false, sparedUntil := s.time + 120000 },
      alarms := addAlarm (s.time + 125000) s.alarms,
      trace := s.trace ++ [⟨s.time, .poll, .event .endOfTransmission⟩] })

/-- `43_nec_decoder.md` rules R125 and R126, whole: `ZERO` and `ONE` in Idle, before the 32nd bit, at the 32nd bit
(`completed` is rule R127) and after it, with their identifiers and windows. -/
def Obligations.DataBitsFollowTheirRule : Prop :=
  (∀ s : State, MayExecute s →
    (s.ds.isCancelled = true → exec .zero s = .next s ∧ exec .one s = .next s) ∧
    (s.ds.isCancelled = false → s.ds.step.toNat < 31 →
      exec .zero s = .next { s with ds := { s.ds with step := s.ds.step + 1 } } ∧
      exec .one s = .next { s with
        ds := { s.ds with data := s.ds.data ||| (1#32 <<< s.ds.step.toNat), step := s.ds.step + 1 } }) ∧
    (s.ds.isCancelled = false → s.ds.step = 31 →
      exec .zero s = .next (completed s.ds.data s) ∧
      exec .one s = .next (completed (s.ds.data ||| (1#32 <<< 31)) s)) ∧
    (s.ds.isCancelled = false → 31 < s.ds.step.toNat →
      exec .zero s = .next (aborted s) ∧ exec .one s = .next (aborted s))) ∧
  Instr.zero.id = 9 ∧ Instr.one.id = 10 ∧
  (∀ (mark : Duration) (space : Time),
    (classify mark space = .zero ↔
      (500 ≤ mark.toNat ∧ mark.toNat < 650) ∧ 500 ≤ space.toNat ∧ space.toNat < 650) ∧
    (classify mark space = .one ↔
      (500 ≤ mark.toNat ∧ mark.toNat < 650) ∧ 1600 ≤ space.toNat ∧ space.toNat < 1750))

/-- `43_nec_decoder.md` rule R127: the 32nd bit completes the word, which is announced if its complements are right and
rejected in silence if not; either way an `END` is expected and an alarm armed. -/
def Obligations.LastBitCompletesWord : Prop :=
  ∀ (s : State) (b : Bool) (w : DataWord), MayExecute s → s.ds.isCancelled = false → s.ds.step = 31 →
    w = (if b then s.ds.data ||| (1#32 <<< 31) else s.ds.data) →
    exec (bitSymbol b).toInstr s = .next { s with
      ds := { s.ds with data := w, step := 32, implicitEnd := true, sparedUntil := s.time + 120000 },
      alarms := addAlarm (s.time + 125000) s.alarms,
      trace := s.trace ++
        if w.extractLsb' 0 8 = ~~~(w.extractLsb' 8 8) ∧ w.extractLsb' 16 8 = ~~~(w.extractLsb' 24 8) then
          [⟨s.time, .poll, .event (.newCommand (w.extractLsb' 0 8) (w.extractLsb' 16 8) false)⟩]
        else [] }

/-- `43_nec_decoder.md` rule R128, whole: an `END` that is due, one that is not, and one in Idle, with its identifier and
window. -/
def Obligations.EndFollowsItsRule : Prop :=
  (∀ s : State, MayExecute s →
    (s.ds.isCancelled = false → s.ds.implicitEnd = true → s.ds.step.toNat + 1 < 2 ^ 32 →
      exec .endSym s = .next { s with ds := { s.ds with implicitEnd := false, step := s.ds.step + 1 } }) ∧
    (s.ds.isCancelled = false → s.ds.implicitEnd = false → exec .endSym s = .next (aborted s)) ∧
    (s.ds.isCancelled = true → exec .endSym s = .next s)) ∧
  Instr.endSym.id = 13 ∧
  (∀ (mark : Duration) (space : Time), classify mark space = .endSym ↔
    (500 ≤ mark.toNat ∧ mark.toNat < 650) ∧ 1750 ≤ space.toNat)

/-- `43_nec_decoder.md` rule R129: a `REPEAT` that is due arms, expects an `END` and advances `step`, and emits nothing. -/
def Obligations.RepeatCompletes : Prop :=
  ∀ s : State, MayExecute s → s.ds.isCancelled = false → 32 < s.ds.step.toNat → s.ds.step.toNat % 2 = 1 →
    s.ds.step.toNat + 1 < 2 ^ 32 →
    exec .repeatSym s = .next { s with
      ds := { s.ds with implicitEnd := true, step := s.ds.step + 1, sparedUntil := s.time + 120000 },
      alarms := addAlarm (s.time + 125000) s.alarms }

/-- `43_nec_decoder.md` rules R130 and R131: a rejected symbol of a message in progress emits `end_of_transmission()`
and returns to Idle, and writes nothing else. -/
def Obligations.RejectedSymbolsAbort : Prop :=
  ∀ s : State, MayExecute s → s.ds.isCancelled = false →
    exec .invalid s = .next (aborted s) ∧
    (31 < s.ds.step.toNat → exec .zero s = .next (aborted s) ∧ exec .one s = .next (aborted s)) ∧
    (s.ds.implicitEnd = false → exec .endSym s = .next (aborted s)) ∧
    (s.ds.step.toNat ≤ 32 ∨ s.ds.step.toNat % 2 = 0 → exec .repeatSym s = .next (aborted s))

/-- `43_nec_decoder.md` rule R132. -/
def Obligations.IdleIgnoresAllButStart : Prop :=
  ∀ (s : State) (sym : Symbol), MayExecute s → s.ds.isCancelled = true → sym ≠ .start →
    exec sym.toInstr s = .next s

/-- A symbol is executed only by an existing decoder (`10_state.md` rule R42) under POLL's lock. That one executed without
the lock is refused is the model's choice (DESIGN CHOICE, log 6): rules R27 and R41 only say that every access to
`DecoderState` is made with the lock held. -/
def Obligations.SymbolsNeedDecoderAndLock : Prop :=
  ∀ (s : State) (sym : Symbol),
    (s.decInit = false → exec sym.toInstr s = .refused .notInitialised) ∧
    (s.decInit = true → s.ds.lock ≠ .heldByPoll → exec sym.toInstr s = .refused .lockNotHeld)

/-- `43_nec_decoder.md` rule R133: `START` writes 0, an accepted symbol adds exactly 1, a rejected one changes nothing,
and the increment of the largest step is refused. -/
def Obligations.StepAdvancesByRule : Prop :=
  ∀ (s t : State) (sym : Symbol), exec sym.toInstr s = .next t →
    (sym = .start → t.ds.step = 0) ∧
    (sym = .zero ∨ sym = .one →
      t.ds.step = if s.ds.isCancelled = false ∧ s.ds.step.toNat ≤ 31 then s.ds.step + 1 else s.ds.step) ∧
    (sym = .endSym →
      t.ds.step = if s.ds.isCancelled = false ∧ s.ds.implicitEnd = true then s.ds.step + 1 else s.ds.step) ∧
    (sym = .repeatSym →
      t.ds.step = if s.ds.isCancelled = false ∧ 32 < s.ds.step.toNat ∧ s.ds.step.toNat % 2 = 1
        then s.ds.step + 1 else s.ds.step) ∧
    (sym = .invalid → t.ds.step = s.ds.step)

/-- `43_nec_decoder.md` rule R133 and `10_state.md` rule R22: the increment of the largest step is refused. -/
def Obligations.LargestStepIsRefused : Prop :=
  ∀ s : State, MayExecute s → s.ds.isCancelled = false → s.ds.step = 0xFFFFFFFF →
    (s.ds.implicitEnd = true → exec .endSym s = .refused .stepOverflow) ∧
    exec .repeatSym s = .refused .stepOverflow

/-- `43_nec_decoder.md` rule R123: under `10_state.md` rule R28 (a) the six symbols do what the transition table says,
whose Building rows are told apart by `step` alone. -/
def Obligations.SymbolsFollowTransitionTable : Prop :=
  ∀ (s : State) (sym : Symbol), MayExecute s → EndFlagMatchesStep s → s.ds.step.toNat + 1 < 2 ^ 32 →
    exec sym.toInstr s = .next (transition s sym)

/-- The frame of the six symbols (`10_state.md` rules R26, R41): they write no queue, no configuration, no input, and
not the lock; they add at most one alarm, together with its guard, and at most one event of POLL. -/
def Obligations.SymbolsFrame : Prop :=
  ∀ (s t : State) (sym : Symbol), exec sym.toInstr s = .next t →
    t.erInit = s.erInit ∧ t.erIdleLevel = s.erIdleLevel ∧ t.erEnabled = s.erEnabled ∧ t.edgeQ = s.edgeQ ∧
    t.pdInit = s.pdInit ∧ t.pulseQ = s.pulseQ ∧ t.decInit = s.decInit ∧ t.ds.lock = s.ds.lock ∧
    t.time = s.time ∧ t.irIn = s.irIn ∧ t.levelSince = s.levelSince ∧
    t.lastCapture = s.lastCapture ∧ t.owner = s.owner ∧ t.poll = s.poll ∧ t.turns = s.turns ∧
    (sym ≠ .start → sym ≠ .one → t.ds.data = s.ds.data) ∧
    ((t.ds.sparedUntil = s.ds.sparedUntil ∧ t.alarms = s.alarms) ∨
      (t.ds.sparedUntil = s.time + 120000 ∧ t.alarms = addAlarm (s.time + 125000) s.alarms)) ∧
    (t.trace = s.trace ∨ ∃ e, t.trace = s.trace ++ [⟨s.time, .poll, .event e⟩])

/-- A frame's symbols, for every word and from Idle or Building (`43_nec_decoder.md` rules R123 to R127): `START` and 32
bits put exactly the word sent into `data`, least significant bit first, finalise an interrupted message first, and
emit exactly one `new_command` if the complements are right and none if not. -/
def Obligations.FrameDeliversItsWord : Prop :=
  ∀ (w : DataWord) (s : State), MayExecute s →
    execSymbols (frameSymbols w) s = .next { s with
      ds := { s.ds with data := w, step := 32, implicitEnd := true, isCancelled := false,
                        sparedUntil := s.time + 120000 },
      alarms := addAlarm (s.time + 125000)
        (if s.ds.isCancelled then s.alarms else addAlarm (s.time + 125000) s.alarms),
      trace := (s.trace ++ if s.ds.isCancelled then [] else [eot .poll s]) ++ wordEvents w s }

/-- `30_encoding.md` rules R76 and R80: the word built from an address and a command is valid and gives them back. -/
def Obligations.SentWordCarriesItsBytes : Prop :=
  ∀ address command : Byte,
    DataWord.address (necWord address command) = address ∧ DataWord.command (necWord address command) = command ∧
    DataWord.addressComplement (necWord address command) = ~~~address ∧
    DataWord.commandComplement (necWord address command) = ~~~command ∧
    complementsValid (necWord address command) = true

/-- Repeat codes keep a message open (`43_nec_decoder.md` rules R123, R128, R129): after a data word, `END` and any number
of (`REPEAT`, `END`) pairs are accepted, emit nothing, and leave step `33 + 2n` with no `END` due. -/
def Obligations.HeldButtonKeepsMessageOpen : Prop :=
  ∀ (n : Nat) (s : State), MayExecute s → s.ds.isCancelled = false → s.ds.step = 32 → s.ds.implicitEnd = true →
    34 + 2 * n < 2 ^ 32 →
    ∃ t, execSymbols (heldSymbols n) s = .next t ∧ t.ds.isCancelled = false ∧ t.ds.implicitEnd = false ∧
      t.ds.step.toNat = 33 + 2 * n ∧ t.ds.data = s.ds.data ∧ t.trace = s.trace ∧
      (0 < n → t.ds.sparedUntil = s.time + 120000) ∧ t.alarms.length = s.alarms.length + n

/-! ## End timer -/

/-- `44_end_timer.md` rule R142, whole: `ALARM_FIRE` of a due alarm spends one occurrence of it, finalises the message in
progress if the lock is free and the guard has passed, leaves everything else, and is not enabled otherwise. -/
def Obligations.AlarmFireCompletes : Prop :=
  (∀ (a : Time) (s : State), a ∈ s.alarms → a.toNat ≤ s.time.toNat →
    (s.ds.lock = .free → s.ds.isCancelled = false → s.ds.sparedUntil.toNat ≤ s.time.toNat →
      exec (.alarmFire a) s = .next { s with
        alarms := s.alarms.erase a, ds := { s.ds with isCancelled := true },
        trace := s.trace ++ [⟨s.time, .alarm, .event .endOfTransmission⟩] }) ∧
    (s.ds.lock = .free → s.ds.isCancelled = true ∨ s.time.toNat < s.ds.sparedUntil.toNat →
      exec (.alarmFire a) s = .next { s with alarms := s.alarms.erase a }) ∧
    (s.ds.lock ≠ .free → exec (.alarmFire a) s = .next { s with alarms := s.alarms.erase a })) ∧
  (∀ (a : Time) (s t : State), exec (.alarmFire a) s = .next t → a ∈ s.alarms ∧ a.toNat ≤ s.time.toNat) ∧
  (Instr.alarmFire 0).id = 6

/-- `44_end_timer.md` rule R143: an alarm that meets a held lock is spent, and nothing else changes. -/
def Obligations.ContentionSpendsTheAlarm : Prop :=
  ∀ (a : Time) (s : State), a ∈ s.alarms → a.toNat ≤ s.time.toNat → s.ds.lock ≠ .free →
    exec (.alarmFire a) s = .next { s with alarms := s.alarms.erase a } ∧
    conditionOf (.alarmFire a) s = some .lockContention

/-- `44_end_timer.md` rule R146: an alarm fires only while it is pending and not before its deadline. -/
def Obligations.AlarmNeverFiresEarly : Prop :=
  ∀ (a : Time) (s : State),
    (a ∉ s.alarms → exec (.alarmFire a) s = .refused .alarmNotPending) ∧
    (a ∈ s.alarms → s.time.toNat < a.toNat → exec (.alarmFire a) s = .refused .alarmNotDue)

/-- `44_end_timer.md` rule R144: the alarm of an `Arm` at `t1`, firing at `TIME` after a later `Arm` at `t2`. -/
def Obligations.SupersededAlarmIsHarmless : Prop :=
  ∀ (s : State) (t1 t2 : Time), t1.toNat ≤ t2.toNat → timeInRange t2 = true →
    s.ds.sparedUntil = t2 + 120000 → t1 + 125000 ∈ s.alarms → t1.toNat + 125000 ≤ s.time.toNat → s.ds.lock = .free →
    (s.time.toNat < t2.toNat + 120000 →
      exec (.alarmFire (t1 + 125000)) s = .next { s with alarms := s.alarms.erase (t1 + 125000) }) ∧
    (s.time = t1 + 125000 → 5000 < t2.toNat - t1.toNat →
      exec (.alarmFire (t1 + 125000)) s = .next { s with alarms := s.alarms.erase (t1 + 125000) }) ∧
    (s.time = t1 + 125000 → t2.toNat - t1.toNat ≤ 5000 → s.ds.isCancelled = false →
      exec (.alarmFire (t1 + 125000)) s = .next { s with
        alarms := s.alarms.erase (t1 + 125000), ds := { s.ds with isCancelled := true },
        trace := s.trace ++ [eot .alarm s] })

/-- `44_end_timer.md` rule R147, for a message whose last `Arm` was at `tL` and whose older alarms are spent: when `TIME`
reaches the deadline `tE` and the alarm fires there, exactly one `end_of_transmission()` is emitted, by ALARM, at
`tL + 125000`, the owner's callback returning. The list of turns is the model's (log 1). -/
def Obligations.TimeoutEndsTheMessage : Prop :=
  ∀ (s : State) (tL tE : Time), MessageOpen s → s.owner = .returns → s.ds.lock = .free → s.poll = .idle →
    timeInRange s.time = true → timeInRange tE = true → tE.toNat = tL.toNat + 125000 → s.time.toNat ≤ tE.toNat →
    s.alarms = [tE] → s.ds.sparedUntil = tL + 120000 →
    s.turns = [.time tE, .op (encode (.alarmFire tE))] →
    run 2 s = .next { s with
      turns := [], time := tE, alarms := [], ds := { s.ds with isCancelled := true },
      trace := s.trace ++ [⟨tE, .alarm, .event .endOfTransmission⟩] }

/-- `44_end_timer.md` rule R148, repeat liveness, over runs of any length and alarms of any lateness: as long as the guard
stays ahead of `TIME`, which is what an `Arm` less than `SPARE_US` after the one before does, and POLL executes only
symbols that are accepted and no `START`, no `end_of_transmission()` is emitted and the message stays open. -/
def Obligations.GuardKeepsMessageOpen : Prop :=
  ∀ (n : Nat) (s t : State), MessageOpen s →
    (∀ k u, k < n → run k s = .next u →
      u.time.toNat < u.ds.sparedUntil.toNat ∧ ∀ sym, u.poll = .execute sym → Accepted u.ds sym) →
    run n s = .next t →
    MessageOpen t ∧ endings t.trace = endings s.trace

/-- The frame of `ALARM_FIRE` and `CAPTURE` (`10_state.md` rule R41): ALARM writes `ALARMS`, `is_cancelled` and the trace;
CAP writes the edge queue alone. -/
def Obligations.HandlersFrame : Prop :=
  ∀ s t : State,
    (∀ a, exec (.alarmFire a) s = .next t → ∃ b as tr, t = { s with
      ds := { s.ds with isCancelled := b }, alarms := as, trace := tr } ∧ (s.ds.isCancelled = true → b = true)) ∧
    (∀ d, exec (.capture d) s = .next t → ∃ q, t = { s with edgeQ := q } ∧ (q = s.edgeQ ∨ q = s.edgeQ ++ [⟨s.time, d⟩]))

/-- `60_exceptions.md` rule R159: a level change and an alarm touch disjoint state, so their order does not matter. -/
def Obligations.CaptureAndAlarmCommute : Prop :=
  ∀ (s t u : State) (d : Direction) (a : Time),
    exec (.capture d) s = .next t → exec (.alarmFire a) s = .next u →
    ∃ v, exec (.alarmFire a) t = .next v ∧ exec (.capture d) u = .next v

/-- `41_pulse_detector.md` rule R105: a capture only appends at the tail, so while the edge queue has room it does not
matter on which side of an iteration of `DRAIN` it comes. -/
def Obligations.CaptureCommutesWithDrain : Prop :=
  ∀ (s t u : State) (d : Direction), s.erEnabled = true → 2 ≤ s.edgeQ.length → s.edgeQ.length < 128 →
    s.pulseQ.length < 32 → exec .drain s = .next t → exec (.capture d) s = .next u →
    ∃ v, exec (.capture d) t = .next v ∧ exec .drain u = .next v

/-- `70_reset_and_hazards.md` rules R177 and R179: an alarm that passes the guard of a message in progress, whichever
message it was armed for, ends that message, and whatever symbols still arrive before the next `START` are ignored. -/
def Obligations.LateAlarmSilencesMessage : Prop :=
  ∀ (a : Time) (s : State) (syms : List Symbol), MessageOpen s → s.ds.lock = .free → a ∈ s.alarms →
    a.toNat ≤ s.time.toNat → s.ds.sparedUntil.toNat ≤ s.time.toNat → Symbol.start ∉ syms →
    ∃ t, exec (.alarmFire a) s = .next t ∧ t.trace = s.trace ++ [eot .alarm s] ∧
      execSymbols syms { t with ds := { t.ds with lock := .heldByPoll } } =
        .next { t with ds := { t.ds with lock := .heldByPoll } }

/-- `70_reset_and_hazards.md` rule R187: in a quiescent state neither `DRAIN` nor `PROCESS` does anything and no alarm
can fire; every step, whatever is still requested and however `TIME` advances, leads to a quiescent state with the same
queues, pin and decoder, and delivers no event; with no turn left and POLL between two operations nothing happens. -/
def Obligations.QuiescentStatesRest : Prop :=
  ∀ s : State, Quiescent s →
    (s.poll = .idle → s.erInit = true → s.pdInit = true → exec .drain s = .next s) ∧
    (s.poll = .idle → s.decInit = true → exec .process s = .next s) ∧
    (∀ a, exec (.alarmFire a) s = .refused .alarmNotPending) ∧
    (∀ t, Inv s → step s = .next t → Quiescent t ∧ t.edgeQ = s.edgeQ ∧ t.pulseQ = s.pulseQ ∧ t.irIn = s.irIn ∧
      (s.decInit = true → t.ds = s.ds) ∧
      (t.trace = s.trace ∨ ∃ e, t.trace = s.trace ++ [e] ∧ ∀ v, e.what ≠ .event v)) ∧
    (timeInRange s.time = true → s.turns = [] → s.poll = .idle → step s = .next s)

/-! ## Callbacks -/

/-- `70_reset_and_hazards.md` rule R183, `43_nec_decoder.md` rule R135: a callback runs inside the atomic step that
invokes it, with the lock held. One that never returns (`93_implementation_defined.md` U12) leaves POLL stuck there, the
lock held by it and nothing written that follows the callback, or an alarm spent and the lock held by ALARM; one that
invokes an operation of the block is refused. How the owner behaves is in the model's own field (log 14). -/
def Obligations.CallbackRunsUnderTheLock : Prop :=
  ∀ (s t : State) (e : TraceEntry), timeInRange s.time = true → t.trace = s.trace ++ [e] →
    (∀ sym : Symbol, s.turns = [] → s.poll = .execute sym → exec sym.toInstr s = .next t →
      s.ds.lock = .heldByPoll ∧ t.ds.lock = .heldByPoll ∧
      (s.owner = .neverReturns → step s = .next { s with
        trace := t.trace, poll := .stuck,
        ds := { s.ds with
          data := if sym = .one ∧ s.ds.step.toNat ≤ 31 then s.ds.data ||| (1#32 <<< s.ds.step.toNat) else s.ds.data } }) ∧
      (s.owner = .reenters → step s = .refused .callbackReenters)) ∧
    (∀ a rest, s.turns = .op (encode (.alarmFire a)) :: rest → exec (.alarmFire a) s = .next t →
      (s.owner = .neverReturns → step s = .next { s with
        turns := rest, alarms := s.alarms.erase a, trace := t.trace, ds := { s.ds with lock := .heldByAlarm } }) ∧
      (s.owner = .reenters → step s = .refused .callbackReenters))

/-- `93_implementation_defined.md` U12, `20_memory.md` rule R62: once a callback has never returned, POLL's or ALARM's,
"the lock stays held, so every later `ALARM_FIRE` is a no-op and POLL makes no step". No operation of POLL begins or goes
on; nothing is popped, decoded, initialised or observed any more. What still happens is CAP's and ENV's: an edge is
pushed, the pin and `TIME` move; and every alarm is only spent. -/
def Obligations.StuckCallbackKeepsTheLock : Prop :=
  ∀ s t : State, Inv s → s.decInit = true → s.poll = .stuck ∨ s.ds.lock = .heldByAlarm → step s = .next t →
    t.poll = s.poll ∧ t.ds = s.ds ∧ t.pulseQ = s.pulseQ ∧ t.trace = s.trace ∧
    t.erInit = s.erInit ∧ t.erIdleLevel = s.erIdleLevel ∧ t.erEnabled = s.erEnabled ∧ t.pdInit = s.pdInit ∧
    t.decInit = true ∧
    (t.edgeQ = s.edgeQ ∨ ∃ e, t.edgeQ = s.edgeQ ++ [e]) ∧
    (t.alarms = s.alarms ∨ ∃ a ∈ s.alarms, t.alarms = s.alarms.erase a) ∧
    (s.turns = [] → t = s) ∧
    (∀ i rest, i.wf = true → takerOf i = .pollOperation → s.turns = .op (encode i) :: rest → t = s)

/-! ## The machine as a whole -/

/-- A step runs the operation its turn requests, by the agent that takes it (`00_scope.md` rules R7, R9; the list of
turns is the model's, log 1); where a callback may be invoked, with an owner that returns. An operation of POLL waits while the alarm
context holds the lock (`20_memory.md` rule R62). -/
def Obligations.StepRunsRequestedOperation : Prop :=
  ∀ (s : State) (i : Instr) (rest : List Turn), timeInRange s.time = true → i.wf = true →
    s.turns = .op (encode i) :: rest →
    (takerOf i = .pollOperation → s.poll = .idle → (s.decInit = true → s.ds.lock ≠ .heldByAlarm) →
      step s = exec i { s with turns := rest }) ∧
    (takerOf i = .pollOperation → s.decInit = true → s.ds.lock = .heldByAlarm → step s = .next s) ∧
    (takerOf i = .pollOperation → s.poll ≠ .idle → step s = pollStep s) ∧
    (takerOf i = .alarm → s.owner = .returns → step s = exec i { s with turns := rest }) ∧
    (∀ d, i = .capture d → s.irIn ≠ d.toLevel →
      (s.erEnabled = true → ∀ t, s.lastCapture = some t → t.toNat < s.time.toNat) →
      step s = exec i { s with
        turns := rest, irIn := d.toLevel, levelSince := some s.time,
        lastCapture := if s.erEnabled = true then some s.time else s.lastCapture }) ∧
    (∀ sym, i = sym.toInstr → s.poll = .execute sym → s.owner = .returns →
      step s = match exec i { s with turns := rest } with
        | .next t => .next { t with poll := .release }
        | .fault r => .fault r
        | .refused r => .refused r)

/-- Every step keeps the invariant. -/
def Obligations.StepKeepsInvariant : Prop :=
  ∀ s t : State, Inv s → step s = .next t → Inv t

/-- Where the events come from (`43_nec_decoder.md` rule R135, `60_exceptions.md` rule R150): a step makes at most one
observation, at the `TIME` it leaves; `end_of_transmission` is emitted only while a message is open, and whenever one
closes; a message that stays open through one was interrupted by a `START`, unless the callback never returns (log
14); `new_command` is emitted only by POLL under its lock, at the 32nd bit, for a valid word, with `is_repeat` false;
the only error an observer ever sees is `CalibrationTimeout`, of a calibrating `EDGE_INIT`. -/
def Obligations.EventsOfOneStep : Prop :=
  ∀ s t : State, Inv s → step s = .next t →
    (t.trace = s.trace ∧ (MessageOpen s → MessageOpen t)) ∨
    ∃ e, t.trace = s.trace ++ [e] ∧ e.time = t.time ∧
      match e.what with
      | .event .endOfTransmission =>
        MessageOpen s ∧ (MessageOpen t → s.poll = .execute .start ∧ t.ds.step = 0 ∨ s.owner = .neverReturns) ∧
          (e.agent = .poll ∧ s.ds.lock = .heldByPoll ∨ e.agent = .alarm ∧ s.ds.lock = .free)
      | .event (.newCommand address command isRepeat) =>
        MessageOpen s ∧ MessageOpen t ∧ s.ds.step = 31 ∧ (t.ds.step = 32 ∨ s.owner = .neverReturns) ∧
          isRepeat = false ∧ e.agent = .poll ∧ s.ds.lock = .heldByPoll ∧ WordValid t.ds.data ∧ address = t.ds.data.extractLsb' 0 8 ∧
          command = t.ds.data.extractLsb' 16 8
      | .edgeInitOk level =>
        e.agent = .poll ∧ s.erInit = false ∧ t.erInit = true ∧ t.erIdleLevel = level ∧ (MessageOpen s → MessageOpen t)
      | .edgeInitFailed kind =>
        e.agent = .poll ∧ kind = .calibrationTimeout ∧ (∃ t0, s.poll = .calibrate t0) ∧ t.poll = .idle ∧
          t.erInit = false ∧ t.erEnabled = false ∧ t.ds = s.ds ∧ t.alarms = s.alarms ∧ (MessageOpen s → MessageOpen t)

/-- Pending alarms and the guard (`10_state.md` rules R26, R28 (d), R33, `44_end_timer.md` rules R140, R145): once the
decoder exists a step leaves both, or spends one alarm that was due, or is an `Arm`: an executed `START` of an open
message, `REPEAT`, or bit at step 31. Nothing else cancels an alarm or moves the guard. -/
def Obligations.AlarmsChangeOnlyByArmOrFiring : Prop :=
  ∀ s t : State, Inv s → s.decInit = true → step s = .next t →
    (t.ds.sparedUntil = s.ds.sparedUntil ∧
      (t.alarms = s.alarms ∨ ∃ a ∈ s.alarms, a.toNat ≤ s.time.toNat ∧ t.alarms = s.alarms.erase a)) ∨
    (t.ds.sparedUntil = s.time + 120000 ∧ t.alarms = addAlarm (s.time + 125000) s.alarms ∧ MessageOpen s ∧
      (s.poll = .execute .start ∨ s.poll = .execute .repeatSym ∨
        (s.poll = .execute .zero ∨ s.poll = .execute .one) ∧ s.ds.step = 31))

/-- `10_state.md` rules R34, R35 and R41: `TIME` never decreases and stays in the range the spec covers, and ENV alone
changes it; the pin changes only by ENV, or by a `CAPTURE`, which is such a change (log 16). A turn is the model's
(log 1). -/
def Obligations.TimeNeverDecreases : Prop :=
  ∀ s t : State, step s = .next t →
    s.time.toNat ≤ t.time.toNat ∧ timeInRange t.time = true ∧
    (t.time ≠ s.time → ∃ t1 rest, s.turns = .time t1 :: rest ∧ t.time.toNat ≤ t1.toNat) ∧
    (t.irIn ≠ s.irIn → t.time = s.time ∧ ∃ rest, s.turns = .level t.irIn :: rest ∨
      ∃ w d, s.turns = .op w :: rest ∧ decode w = .ok (.capture d) ∧ d.toLevel = t.irIn)

/-- `10_state.md` rules R29, R30, R36: once `EDGE_INIT` has succeeded the idle level and the enable never change, and no
initialisation is undone. -/
def Obligations.ConfigurationIsImmutable : Prop :=
  ∀ s t : State, Inv s → step s = .next t →
    (s.erInit = true → t.erInit = true ∧ t.erEnabled = true ∧ t.erIdleLevel = s.erIdleLevel) ∧
    (s.pdInit = true → t.pdInit = true) ∧ (s.decInit = true → t.decInit = true)

/-- `20_memory.md` rules R52 and R59: a step takes at most two edges from the head of the edge queue and adds at most one
at its tail; it takes a pulse from the head of the pulse queue only to classify it with the pulse behind it, and adds at
most one at its tail. No entry is reordered, duplicated or displaced. -/
def Obligations.QueuesAreFifos : Prop :=
  ∀ s t : State, Inv s → step s = .next t →
    (∃ k added, k ≤ 2 ∧ added.length ≤ 1 ∧ t.edgeQ = s.edgeQ.drop k ++ added) ∧
    ((∃ added, added.length ≤ 1 ∧ t.pulseQ = s.pulseQ ++ added) ∨
      ∃ cur next rest, s.pulseQ = cur :: next :: rest ∧ t.pulseQ = next :: rest ∧ t.poll = .acquire (symbolOf cur next))

/-- `60_exceptions.md` rules R152 and R153: the conditions that are absorbed, and what each leaves. -/
def Obligations.AbsorbedConditions : Prop :=
  ∀ s t : State,
    (∀ d, exec (.capture d) s = .next t → conditionOf (.capture d) s = some .queueOverflow → t = s) ∧
    (∀ sym : Symbol, exec sym.toInstr s = .next t → conditionOf sym.toInstr s = some .protocolViolation →
      t = aborted s ∨
      (t.trace = s.trace ∧ t.ds.isCancelled = false ∧ t.ds.step = 32 ∧ t.ds.implicitEnd = true ∧
        ¬ WordValid t.ds.data))

/-! ## Encodings -/

/-- Every well-formed instruction survives encoding and decoding, and every word the decoder accepts is the encoding of
the one instruction it stands for (`30_encoding.md` rule R82; the operand layout is the model's, log 3). -/
def Obligations.EncodingRoundTrips : Prop :=
  (∀ i : Instr, i.wf = true → decode (encode i) = .ok i) ∧
  (∀ (w : OpWord) (i : Instr), decode w = .ok i → i.wf = true ∧ encode i = w)

/-- `30_encoding.md` rules R71, R72, R74, R75, R82: the record formats lose nothing, codes 6 and 7 are no symbol, and a
symbol's identifier is 1 followed by its code. -/
def Obligations.RecordFormatsRoundTrip : Prop :=
  (∀ e : Edge, Edge.decode e.encode = e ∧ e.encode.extractLsb' 0 64 = e.timestamp ∧
    (e.encode.getLsbD 64 = true ↔ e.direction = .rising)) ∧
  (∀ p : Pulse, Pulse.decode p.encode = p ∧ p.encode.extractLsb' 32 64 = p.start ∧
    p.encode.extractLsb' 0 32 = p.duration) ∧
  (∀ sym : Symbol, Symbol.ofCode sym.code = some sym ∧ sym.toInstr.id = (1 : BitVec 1) ++ sym.code) ∧
  (∀ c : BitVec 3, Symbol.ofCode c = none ↔ c = 6 ∨ c = 7)

/-- `30_encoding.md` rules R73, R82 and R84 (c): words written out from the table decode to their operations, and the
reserved identifiers and the reserved idle mode are rejected. -/
def Obligations.TableWordsDecode : Prop :=
  decode 0b0000 = .ok (.edgeInit 0 .low) ∧ decode 0b010000 = .ok (.edgeInit 0 .high) ∧
  decode 0b100000 = .ok (.edgeInit 0 .auto) ∧ decode 0b110000 = .error .reservedIdleMode ∧
  decode 0b0001 = .ok (.capture .falling) ∧ decode 0b10001 = .ok (.capture .rising) ∧
  decode 0b0010 = .ok .pulseInit ∧ decode 0b0011 = .ok .drain ∧ decode 0b0100 = .ok .decInit ∧
  decode 0b0101 = .ok .process ∧ decode 0b100000110 = .ok (.alarmFire 1) ∧ decode 0b1000 = .ok .invalid ∧
  decode 0b1001 = .ok .zero ∧ decode 0b1010 = .ok .one ∧ decode 0b1011 = .ok .start ∧
  decode 0b1100 = .ok .repeatSym ∧ decode 0b1101 = .ok .endSym ∧
  decode 0b0111 = .error .reservedId ∧ decode 0b1110 = .error .reservedId ∧ decode 0b1111 = .error .reservedId
end

