-- ==== Sys2Proof/Laws/State.lean ====
section
/-! SUPPORT. Laws/State.lean: one lemma per field per update of State, each true by `rfl`, and the values of the default
configuration by name. -/

namespace Sys2Proof.Machine

/-! ## setPoll -/

section
variable (s : State) (x : PollPhase)

@[simp] theorem State.setPoll_erInit : (s.setPoll x).erInit = s.erInit := rfl
@[simp] theorem State.setPoll_erIdleLevel : (s.setPoll x).erIdleLevel = s.erIdleLevel := rfl
@[simp] theorem State.setPoll_erEnabled : (s.setPoll x).erEnabled = s.erEnabled := rfl
@[simp] theorem State.setPoll_edgeQ : (s.setPoll x).edgeQ = s.edgeQ := rfl
@[simp] theorem State.setPoll_pdInit : (s.setPoll x).pdInit = s.pdInit := rfl
@[simp] theorem State.setPoll_pulseQ : (s.setPoll x).pulseQ = s.pulseQ := rfl
@[simp] theorem State.setPoll_decInit : (s.setPoll x).decInit = s.decInit := rfl
@[simp] theorem State.setPoll_ds : (s.setPoll x).ds = s.ds := rfl
@[simp] theorem State.setPoll_alarms : (s.setPoll x).alarms = s.alarms := rfl
@[simp] theorem State.setPoll_time : (s.setPoll x).time = s.time := rfl
@[simp] theorem State.setPoll_irIn : (s.setPoll x).irIn = s.irIn := rfl
@[simp] theorem State.setPoll_levelSince : (s.setPoll x).levelSince = s.levelSince := rfl
@[simp] theorem State.setPoll_lastCapture : (s.setPoll x).lastCapture = s.lastCapture := rfl
@[simp] theorem State.setPoll_owner : (s.setPoll x).owner = s.owner := rfl
@[simp] theorem State.setPoll_poll : (s.setPoll x).poll = x := rfl
@[simp] theorem State.setPoll_turns : (s.setPoll x).turns = s.turns := rfl
@[simp] theorem State.setPoll_trace : (s.setPoll x).trace = s.trace := rfl

end

/-! ## setTurns -/

section
variable (s : State) (x : List Turn)

@[simp] theorem State.setTurns_erInit : (s.setTurns x).erInit = s.erInit := rfl
@[simp] theorem State.setTurns_erIdleLevel : (s.setTurns x).erIdleLevel = s.erIdleLevel := rfl
@[simp] theorem State.setTurns_erEnabled : (s.setTurns x).erEnabled = s.erEnabled := rfl
@[simp] theorem State.setTurns_edgeQ : (s.setTurns x).edgeQ = s.edgeQ := rfl
@[simp] theorem State.setTurns_pdInit : (s.setTurns x).pdInit = s.pdInit := rfl
@[simp] theorem State.setTurns_pulseQ : (s.setTurns x).pulseQ = s.pulseQ := rfl
@[simp] theorem State.setTurns_decInit : (s.setTurns x).decInit = s.decInit := rfl
@[simp] theorem State.setTurns_ds : (s.setTurns x).ds = s.ds := rfl
@[simp] theorem State.setTurns_alarms : (s.setTurns x).alarms = s.alarms := rfl
@[simp] theorem State.setTurns_time : (s.setTurns x).time = s.time := rfl
@[simp] theorem State.setTurns_irIn : (s.setTurns x).irIn = s.irIn := rfl
@[simp] theorem State.setTurns_levelSince : (s.setTurns x).levelSince = s.levelSince := rfl
@[simp] theorem State.setTurns_lastCapture : (s.setTurns x).lastCapture = s.lastCapture := rfl
@[simp] theorem State.setTurns_owner : (s.setTurns x).owner = s.owner := rfl
@[simp] theorem State.setTurns_poll : (s.setTurns x).poll = s.poll := rfl
@[simp] theorem State.setTurns_turns : (s.setTurns x).turns = x := rfl
@[simp] theorem State.setTurns_trace : (s.setTurns x).trace = s.trace := rfl

end

/-! ## setTime -/

section
variable (s : State) (x : Time)

@[simp] theorem State.setTime_erInit : (s.setTime x).erInit = s.erInit := rfl
@[simp] theorem State.setTime_erIdleLevel : (s.setTime x).erIdleLevel = s.erIdleLevel := rfl
@[simp] theorem State.setTime_erEnabled : (s.setTime x).erEnabled = s.erEnabled := rfl
@[simp] theorem State.setTime_edgeQ : (s.setTime x).edgeQ = s.edgeQ := rfl
@[simp] theorem State.setTime_pdInit : (s.setTime x).pdInit = s.pdInit := rfl
@[simp] theorem State.setTime_pulseQ : (s.setTime x).pulseQ = s.pulseQ := rfl
@[simp] theorem State.setTime_decInit : (s.setTime x).decInit = s.decInit := rfl
@[simp] theorem State.setTime_ds : (s.setTime x).ds = s.ds := rfl
@[simp] theorem State.setTime_alarms : (s.setTime x).alarms = s.alarms := rfl
@[simp] theorem State.setTime_time : (s.setTime x).time = x := rfl
@[simp] theorem State.setTime_irIn : (s.setTime x).irIn = s.irIn := rfl
@[simp] theorem State.setTime_levelSince : (s.setTime x).levelSince = s.levelSince := rfl
@[simp] theorem State.setTime_lastCapture : (s.setTime x).lastCapture = s.lastCapture := rfl
@[simp] theorem State.setTime_owner : (s.setTime x).owner = s.owner := rfl
@[simp] theorem State.setTime_poll : (s.setTime x).poll = s.poll := rfl
@[simp] theorem State.setTime_turns : (s.setTime x).turns = s.turns := rfl
@[simp] theorem State.setTime_trace : (s.setTime x).trace = s.trace := rfl

end

/-! ## setEdgeQ -/

section
variable (s : State) (x : List Edge)

@[simp] theorem State.setEdgeQ_erInit : (s.setEdgeQ x).erInit = s.erInit := rfl
@[simp] theorem State.setEdgeQ_erIdleLevel : (s.setEdgeQ x).erIdleLevel = s.erIdleLevel := rfl
@[simp] theorem State.setEdgeQ_erEnabled : (s.setEdgeQ x).erEnabled = s.erEnabled := rfl
@[simp] theorem State.setEdgeQ_edgeQ : (s.setEdgeQ x).edgeQ = x := rfl
@[simp] theorem State.setEdgeQ_pdInit : (s.setEdgeQ x).pdInit = s.pdInit := rfl
@[simp] theorem State.setEdgeQ_pulseQ : (s.setEdgeQ x).pulseQ = s.pulseQ := rfl
@[simp] theorem State.setEdgeQ_decInit : (s.setEdgeQ x).decInit = s.decInit := rfl
@[simp] theorem State.setEdgeQ_ds : (s.setEdgeQ x).ds = s.ds := rfl
@[simp] theorem State.setEdgeQ_alarms : (s.setEdgeQ x).alarms = s.alarms := rfl
@[simp] theorem State.setEdgeQ_time : (s.setEdgeQ x).time = s.time := rfl
@[simp] theorem State.setEdgeQ_irIn : (s.setEdgeQ x).irIn = s.irIn := rfl
@[simp] theorem State.setEdgeQ_levelSince : (s.setEdgeQ x).levelSince = s.levelSince := rfl
@[simp] theorem State.setEdgeQ_lastCapture : (s.setEdgeQ x).lastCapture = s.lastCapture := rfl
@[simp] theorem State.setEdgeQ_owner : (s.setEdgeQ x).owner = s.owner := rfl
@[simp] theorem State.setEdgeQ_poll : (s.setEdgeQ x).poll = s.poll := rfl
@[simp] theorem State.setEdgeQ_turns : (s.setEdgeQ x).turns = s.turns := rfl
@[simp] theorem State.setEdgeQ_trace : (s.setEdgeQ x).trace = s.trace := rfl

end

/-! ## setPulseQ -/

section
variable (s : State) (x : List Pulse)

@[simp] theorem State.setPulseQ_erInit : (s.setPulseQ x).erInit = s.erInit := rfl
@[simp] theorem State.setPulseQ_erIdleLevel : (s.setPulseQ x).erIdleLevel = s.erIdleLevel := rfl
@[simp] theorem State.setPulseQ_erEnabled : (s.setPulseQ x).erEnabled = s.erEnabled := rfl
@[simp] theorem State.setPulseQ_edgeQ : (s.setPulseQ x).edgeQ = s.edgeQ := rfl
@[simp] theorem State.setPulseQ_pdInit : (s.setPulseQ x).pdInit = s.pdInit := rfl
@[simp] theorem State.setPulseQ_pulseQ : (s.setPulseQ x).pulseQ = x := rfl
@[simp] theorem State.setPulseQ_decInit : (s.setPulseQ x).decInit = s.decInit := rfl
@[simp] theorem State.setPulseQ_ds : (s.setPulseQ x).ds = s.ds := rfl
@[simp] theorem State.setPulseQ_alarms : (s.setPulseQ x).alarms = s.alarms := rfl
@[simp] theorem State.setPulseQ_time : (s.setPulseQ x).time = s.time := rfl
@[simp] theorem State.setPulseQ_irIn : (s.setPulseQ x).irIn = s.irIn := rfl
@[simp] theorem State.setPulseQ_levelSince : (s.setPulseQ x).levelSince = s.levelSince := rfl
@[simp] theorem State.setPulseQ_lastCapture : (s.setPulseQ x).lastCapture = s.lastCapture := rfl
@[simp] theorem State.setPulseQ_owner : (s.setPulseQ x).owner = s.owner := rfl
@[simp] theorem State.setPulseQ_poll : (s.setPulseQ x).poll = s.poll := rfl
@[simp] theorem State.setPulseQ_turns : (s.setPulseQ x).turns = s.turns := rfl
@[simp] theorem State.setPulseQ_trace : (s.setPulseQ x).trace = s.trace := rfl

end

/-! ## setAlarms -/

section
variable (s : State) (x : List Time)

@[simp] theorem State.setAlarms_erInit : (s.setAlarms x).erInit = s.erInit := rfl
@[simp] theorem State.setAlarms_erIdleLevel : (s.setAlarms x).erIdleLevel = s.erIdleLevel := rfl
@[simp] theorem State.setAlarms_erEnabled : (s.setAlarms x).erEnabled = s.erEnabled := rfl
@[simp] theorem State.setAlarms_edgeQ : (s.setAlarms x).edgeQ = s.edgeQ := rfl
@[simp] theorem State.setAlarms_pdInit : (s.setAlarms x).pdInit = s.pdInit := rfl
@[simp] theorem State.setAlarms_pulseQ : (s.setAlarms x).pulseQ = s.pulseQ := rfl
@[simp] theorem State.setAlarms_decInit : (s.setAlarms x).decInit = s.decInit := rfl
@[simp] theorem State.setAlarms_ds : (s.setAlarms x).ds = s.ds := rfl
@[simp] theorem State.setAlarms_alarms : (s.setAlarms x).alarms = x := rfl
@[simp] theorem State.setAlarms_time : (s.setAlarms x).time = s.time := rfl
@[simp] theorem State.setAlarms_irIn : (s.setAlarms x).irIn = s.irIn := rfl
@[simp] theorem State.setAlarms_levelSince : (s.setAlarms x).levelSince = s.levelSince := rfl
@[simp] theorem State.setAlarms_lastCapture : (s.setAlarms x).lastCapture = s.lastCapture := rfl
@[simp] theorem State.setAlarms_owner : (s.setAlarms x).owner = s.owner := rfl
@[simp] theorem State.setAlarms_poll : (s.setAlarms x).poll = s.poll := rfl
@[simp] theorem State.setAlarms_turns : (s.setAlarms x).turns = s.turns := rfl
@[simp] theorem State.setAlarms_trace : (s.setAlarms x).trace = s.trace := rfl

end

/-! ## setDs -/

section
variable (s : State) (x : DecoderState)

@[simp] theorem State.setDs_erInit : (s.setDs x).erInit = s.erInit := rfl
@[simp] theorem State.setDs_erIdleLevel : (s.setDs x).erIdleLevel = s.erIdleLevel := rfl
@[simp] theorem State.setDs_erEnabled : (s.setDs x).erEnabled = s.erEnabled := rfl
@[simp] theorem State.setDs_edgeQ : (s.setDs x).edgeQ = s.edgeQ := rfl
@[simp] theorem State.setDs_pdInit : (s.setDs x).pdInit = s.pdInit := rfl
@[simp] theorem State.setDs_pulseQ : (s.setDs x).pulseQ = s.pulseQ := rfl
@[simp] theorem State.setDs_decInit : (s.setDs x).decInit = s.decInit := rfl
@[simp] theorem State.setDs_ds : (s.setDs x).ds = x := rfl
@[simp] theorem State.setDs_alarms : (s.setDs x).alarms = s.alarms := rfl
@[simp] theorem State.setDs_time : (s.setDs x).time = s.time := rfl
@[simp] theorem State.setDs_irIn : (s.setDs x).irIn = s.irIn := rfl
@[simp] theorem State.setDs_levelSince : (s.setDs x).levelSince = s.levelSince := rfl
@[simp] theorem State.setDs_lastCapture : (s.setDs x).lastCapture = s.lastCapture := rfl
@[simp] theorem State.setDs_owner : (s.setDs x).owner = s.owner := rfl
@[simp] theorem State.setDs_poll : (s.setDs x).poll = s.poll := rfl
@[simp] theorem State.setDs_turns : (s.setDs x).turns = s.turns := rfl
@[simp] theorem State.setDs_trace : (s.setDs x).trace = s.trace := rfl

end

/-! ## setTrace -/

section
variable (s : State) (x : List TraceEntry)

@[simp] theorem State.setTrace_erInit : (s.setTrace x).erInit = s.erInit := rfl
@[simp] theorem State.setTrace_erIdleLevel : (s.setTrace x).erIdleLevel = s.erIdleLevel := rfl
@[simp] theorem State.setTrace_erEnabled : (s.setTrace x).erEnabled = s.erEnabled := rfl
@[simp] theorem State.setTrace_edgeQ : (s.setTrace x).edgeQ = s.edgeQ := rfl
@[simp] theorem State.setTrace_pdInit : (s.setTrace x).pdInit = s.pdInit := rfl
@[simp] theorem State.setTrace_pulseQ : (s.setTrace x).pulseQ = s.pulseQ := rfl
@[simp] theorem State.setTrace_decInit : (s.setTrace x).decInit = s.decInit := rfl
@[simp] theorem State.setTrace_ds : (s.setTrace x).ds = s.ds := rfl
@[simp] theorem State.setTrace_alarms : (s.setTrace x).alarms = s.alarms := rfl
@[simp] theorem State.setTrace_time : (s.setTrace x).time = s.time := rfl
@[simp] theorem State.setTrace_irIn : (s.setTrace x).irIn = s.irIn := rfl
@[simp] theorem State.setTrace_levelSince : (s.setTrace x).levelSince = s.levelSince := rfl
@[simp] theorem State.setTrace_lastCapture : (s.setTrace x).lastCapture = s.lastCapture := rfl
@[simp] theorem State.setTrace_owner : (s.setTrace x).owner = s.owner := rfl
@[simp] theorem State.setTrace_poll : (s.setTrace x).poll = s.poll := rfl
@[simp] theorem State.setTrace_turns : (s.setTrace x).turns = s.turns := rfl
@[simp] theorem State.setTrace_trace : (s.setTrace x).trace = x := rfl

end

/-! ## setOwner -/

section
variable (s : State) (x : OwnerConduct)

@[simp] theorem State.setOwner_erInit : (s.setOwner x).erInit = s.erInit := rfl
@[simp] theorem State.setOwner_erIdleLevel : (s.setOwner x).erIdleLevel = s.erIdleLevel := rfl
@[simp] theorem State.setOwner_erEnabled : (s.setOwner x).erEnabled = s.erEnabled := rfl
@[simp] theorem State.setOwner_edgeQ : (s.setOwner x).edgeQ = s.edgeQ := rfl
@[simp] theorem State.setOwner_pdInit : (s.setOwner x).pdInit = s.pdInit := rfl
@[simp] theorem State.setOwner_pulseQ : (s.setOwner x).pulseQ = s.pulseQ := rfl
@[simp] theorem State.setOwner_decInit : (s.setOwner x).decInit = s.decInit := rfl
@[simp] theorem State.setOwner_ds : (s.setOwner x).ds = s.ds := rfl
@[simp] theorem State.setOwner_alarms : (s.setOwner x).alarms = s.alarms := rfl
@[simp] theorem State.setOwner_time : (s.setOwner x).time = s.time := rfl
@[simp] theorem State.setOwner_irIn : (s.setOwner x).irIn = s.irIn := rfl
@[simp] theorem State.setOwner_levelSince : (s.setOwner x).levelSince = s.levelSince := rfl
@[simp] theorem State.setOwner_lastCapture : (s.setOwner x).lastCapture = s.lastCapture := rfl
@[simp] theorem State.setOwner_owner : (s.setOwner x).owner = x := rfl
@[simp] theorem State.setOwner_poll : (s.setOwner x).poll = s.poll := rfl
@[simp] theorem State.setOwner_turns : (s.setOwner x).turns = s.turns := rfl
@[simp] theorem State.setOwner_trace : (s.setOwner x).trace = s.trace := rfl

end

/-! ## setPin -/

section
variable (s : State) (x : Level)

@[simp] theorem State.setPin_erInit : (s.setPin x).erInit = s.erInit := rfl
@[simp] theorem State.setPin_erIdleLevel : (s.setPin x).erIdleLevel = s.erIdleLevel := rfl
@[simp] theorem State.setPin_erEnabled : (s.setPin x).erEnabled = s.erEnabled := rfl
@[simp] theorem State.setPin_edgeQ : (s.setPin x).edgeQ = s.edgeQ := rfl
@[simp] theorem State.setPin_pdInit : (s.setPin x).pdInit = s.pdInit := rfl
@[simp] theorem State.setPin_pulseQ : (s.setPin x).pulseQ = s.pulseQ := rfl
@[simp] theorem State.setPin_decInit : (s.setPin x).decInit = s.decInit := rfl
@[simp] theorem State.setPin_ds : (s.setPin x).ds = s.ds := rfl
@[simp] theorem State.setPin_alarms : (s.setPin x).alarms = s.alarms := rfl
@[simp] theorem State.setPin_time : (s.setPin x).time = s.time := rfl
@[simp] theorem State.setPin_irIn : (s.setPin x).irIn = x := rfl
@[simp] theorem State.setPin_levelSince : (s.setPin x).levelSince = some s.time := rfl
@[simp] theorem State.setPin_lastCapture :
    (s.setPin x).lastCapture = if s.erEnabled then some s.time else s.lastCapture := rfl
@[simp] theorem State.setPin_owner : (s.setPin x).owner = s.owner := rfl
@[simp] theorem State.setPin_poll : (s.setPin x).poll = s.poll := rfl
@[simp] theorem State.setPin_turns : (s.setPin x).turns = s.turns := rfl
@[simp] theorem State.setPin_trace : (s.setPin x).trace = s.trace := rfl

end

/-! ## setCancelled -/

section
variable (s : State) (x : Bool)

@[simp] theorem State.setCancelled_erInit : (s.setCancelled x).erInit = s.erInit := rfl
@[simp] theorem State.setCancelled_erIdleLevel : (s.setCancelled x).erIdleLevel = s.erIdleLevel := rfl
@[simp] theorem State.setCancelled_erEnabled : (s.setCancelled x).erEnabled = s.erEnabled := rfl
@[simp] theorem State.setCancelled_edgeQ : (s.setCancelled x).edgeQ = s.edgeQ := rfl
@[simp] theorem State.setCancelled_pdInit : (s.setCancelled x).pdInit = s.pdInit := rfl
@[simp] theorem State.setCancelled_pulseQ : (s.setCancelled x).pulseQ = s.pulseQ := rfl
@[simp] theorem State.setCancelled_decInit : (s.setCancelled x).decInit = s.decInit := rfl
@[simp] theorem State.setCancelled_ds : (s.setCancelled x).ds = { s.ds with isCancelled := x } := rfl
@[simp] theorem State.setCancelled_alarms : (s.setCancelled x).alarms = s.alarms := rfl
@[simp] theorem State.setCancelled_time : (s.setCancelled x).time = s.time := rfl
@[simp] theorem State.setCancelled_irIn : (s.setCancelled x).irIn = s.irIn := rfl
@[simp] theorem State.setCancelled_levelSince : (s.setCancelled x).levelSince = s.levelSince := rfl
@[simp] theorem State.setCancelled_lastCapture : (s.setCancelled x).lastCapture = s.lastCapture := rfl
@[simp] theorem State.setCancelled_owner : (s.setCancelled x).owner = s.owner := rfl
@[simp] theorem State.setCancelled_poll : (s.setCancelled x).poll = s.poll := rfl
@[simp] theorem State.setCancelled_turns : (s.setCancelled x).turns = s.turns := rfl
@[simp] theorem State.setCancelled_trace : (s.setCancelled x).trace = s.trace := rfl

end

/-! ## setLock -/

section
variable (s : State) (x : Lock)

@[simp] theorem State.setLock_erInit : (s.setLock x).erInit = s.erInit := rfl
@[simp] theorem State.setLock_erIdleLevel : (s.setLock x).erIdleLevel = s.erIdleLevel := rfl
@[simp] theorem State.setLock_erEnabled : (s.setLock x).erEnabled = s.erEnabled := rfl
@[simp] theorem State.setLock_edgeQ : (s.setLock x).edgeQ = s.edgeQ := rfl
@[simp] theorem State.setLock_pdInit : (s.setLock x).pdInit = s.pdInit := rfl
@[simp] theorem State.setLock_pulseQ : (s.setLock x).pulseQ = s.pulseQ := rfl
@[simp] theorem State.setLock_decInit : (s.setLock x).decInit = s.decInit := rfl
@[simp] theorem State.setLock_ds : (s.setLock x).ds = { s.ds with lock := x } := rfl
@[simp] theorem State.setLock_alarms : (s.setLock x).alarms = s.alarms := rfl
@[simp] theorem State.setLock_time : (s.setLock x).time = s.time := rfl
@[simp] theorem State.setLock_irIn : (s.setLock x).irIn = s.irIn := rfl
@[simp] theorem State.setLock_levelSince : (s.setLock x).levelSince = s.levelSince := rfl
@[simp] theorem State.setLock_lastCapture : (s.setLock x).lastCapture = s.lastCapture := rfl
@[simp] theorem State.setLock_owner : (s.setLock x).owner = s.owner := rfl
@[simp] theorem State.setLock_poll : (s.setLock x).poll = s.poll := rfl
@[simp] theorem State.setLock_turns : (s.setLock x).turns = s.turns := rfl
@[simp] theorem State.setLock_trace : (s.setLock x).trace = s.trace := rfl

end

/-! ## setImplicitEnd -/

section
variable (s : State) (x : Bool)

@[simp] theorem State.setImplicitEnd_erInit : (s.setImplicitEnd x).erInit = s.erInit := rfl
@[simp] theorem State.setImplicitEnd_erIdleLevel : (s.setImplicitEnd x).erIdleLevel = s.erIdleLevel := rfl
@[simp] theorem State.setImplicitEnd_erEnabled : (s.setImplicitEnd x).erEnabled = s.erEnabled := rfl
@[simp] theorem State.setImplicitEnd_edgeQ : (s.setImplicitEnd x).edgeQ = s.edgeQ := rfl
@[simp] theorem State.setImplicitEnd_pdInit : (s.setImplicitEnd x).pdInit = s.pdInit := rfl
@[simp] theorem State.setImplicitEnd_pulseQ : (s.setImplicitEnd x).pulseQ = s.pulseQ := rfl
@[simp] theorem State.setImplicitEnd_decInit : (s.setImplicitEnd x).decInit = s.decInit := rfl
@[simp] theorem State.setImplicitEnd_ds : (s.setImplicitEnd x).ds = { s.ds with implicitEnd := x } := rfl
@[simp] theorem State.setImplicitEnd_alarms : (s.setImplicitEnd x).alarms = s.alarms := rfl
@[simp] theorem State.setImplicitEnd_time : (s.setImplicitEnd x).time = s.time := rfl
@[simp] theorem State.setImplicitEnd_irIn : (s.setImplicitEnd x).irIn = s.irIn := rfl
@[simp] theorem State.setImplicitEnd_levelSince : (s.setImplicitEnd x).levelSince = s.levelSince := rfl
@[simp] theorem State.setImplicitEnd_lastCapture : (s.setImplicitEnd x).lastCapture = s.lastCapture := rfl
@[simp] theorem State.setImplicitEnd_owner : (s.setImplicitEnd x).owner = s.owner := rfl
@[simp] theorem State.setImplicitEnd_poll : (s.setImplicitEnd x).poll = s.poll := rfl
@[simp] theorem State.setImplicitEnd_turns : (s.setImplicitEnd x).turns = s.turns := rfl
@[simp] theorem State.setImplicitEnd_trace : (s.setImplicitEnd x).trace = s.trace := rfl

end

/-! ## setStep -/

section
variable (s : State) (x : StepCount)

@[simp] theorem State.setStep_erInit : (s.setStep x).erInit = s.erInit := rfl
@[simp] theorem State.setStep_erIdleLevel : (s.setStep x).erIdleLevel = s.erIdleLevel := rfl
@[simp] theorem State.setStep_erEnabled : (s.setStep x).erEnabled = s.erEnabled := rfl
@[simp] theorem State.setStep_edgeQ : (s.setStep x).edgeQ = s.edgeQ := rfl
@[simp] theorem State.setStep_pdInit : (s.setStep x).pdInit = s.pdInit := rfl
@[simp] theorem State.setStep_pulseQ : (s.setStep x).pulseQ = s.pulseQ := rfl
@[simp] theorem State.setStep_decInit : (s.setStep x).decInit = s.decInit := rfl
@[simp] theorem State.setStep_ds : (s.setStep x).ds = { s.ds with step := x } := rfl
@[simp] theorem State.setStep_alarms : (s.setStep x).alarms = s.alarms := rfl
@[simp] theorem State.setStep_time : (s.setStep x).time = s.time := rfl
@[simp] theorem State.setStep_irIn : (s.setStep x).irIn = s.irIn := rfl
@[simp] theorem State.setStep_levelSince : (s.setStep x).levelSince = s.levelSince := rfl
@[simp] theorem State.setStep_lastCapture : (s.setStep x).lastCapture = s.lastCapture := rfl
@[simp] theorem State.setStep_owner : (s.setStep x).owner = s.owner := rfl
@[simp] theorem State.setStep_poll : (s.setStep x).poll = s.poll := rfl
@[simp] theorem State.setStep_turns : (s.setStep x).turns = s.turns := rfl
@[simp] theorem State.setStep_trace : (s.setStep x).trace = s.trace := rfl

end

/-! ## setData -/

section
variable (s : State) (x : DataWord)

@[simp] theorem State.setData_erInit : (s.setData x).erInit = s.erInit := rfl
@[simp] theorem State.setData_erIdleLevel : (s.setData x).erIdleLevel = s.erIdleLevel := rfl
@[simp] theorem State.setData_erEnabled : (s.setData x).erEnabled = s.erEnabled := rfl
@[simp] theorem State.setData_edgeQ : (s.setData x).edgeQ = s.edgeQ := rfl
@[simp] theorem State.setData_pdInit : (s.setData x).pdInit = s.pdInit := rfl
@[simp] theorem State.setData_pulseQ : (s.setData x).pulseQ = s.pulseQ := rfl
@[simp] theorem State.setData_decInit : (s.setData x).decInit = s.decInit := rfl
@[simp] theorem State.setData_ds : (s.setData x).ds = { s.ds with data := x } := rfl
@[simp] theorem State.setData_alarms : (s.setData x).alarms = s.alarms := rfl
@[simp] theorem State.setData_time : (s.setData x).time = s.time := rfl
@[simp] theorem State.setData_irIn : (s.setData x).irIn = s.irIn := rfl
@[simp] theorem State.setData_levelSince : (s.setData x).levelSince = s.levelSince := rfl
@[simp] theorem State.setData_lastCapture : (s.setData x).lastCapture = s.lastCapture := rfl
@[simp] theorem State.setData_owner : (s.setData x).owner = s.owner := rfl
@[simp] theorem State.setData_poll : (s.setData x).poll = s.poll := rfl
@[simp] theorem State.setData_turns : (s.setData x).turns = s.turns := rfl
@[simp] theorem State.setData_trace : (s.setData x).trace = s.trace := rfl

end

/-! ## setSparedUntil -/

section
variable (s : State) (x : Time)

@[simp] theorem State.setSparedUntil_erInit : (s.setSparedUntil x).erInit = s.erInit := rfl
@[simp] theorem State.setSparedUntil_erIdleLevel : (s.setSparedUntil x).erIdleLevel = s.erIdleLevel := rfl
@[simp] theorem State.setSparedUntil_erEnabled : (s.setSparedUntil x).erEnabled = s.erEnabled := rfl
@[simp] theorem State.setSparedUntil_edgeQ : (s.setSparedUntil x).edgeQ = s.edgeQ := rfl
@[simp] theorem State.setSparedUntil_pdInit : (s.setSparedUntil x).pdInit = s.pdInit := rfl
@[simp] theorem State.setSparedUntil_pulseQ : (s.setSparedUntil x).pulseQ = s.pulseQ := rfl
@[simp] theorem State.setSparedUntil_decInit : (s.setSparedUntil x).decInit = s.decInit := rfl
@[simp] theorem State.setSparedUntil_ds : (s.setSparedUntil x).ds = { s.ds with sparedUntil := x } := rfl
@[simp] theorem State.setSparedUntil_alarms : (s.setSparedUntil x).alarms = s.alarms := rfl
@[simp] theorem State.setSparedUntil_time : (s.setSparedUntil x).time = s.time := rfl
@[simp] theorem State.setSparedUntil_irIn : (s.setSparedUntil x).irIn = s.irIn := rfl
@[simp] theorem State.setSparedUntil_levelSince : (s.setSparedUntil x).levelSince = s.levelSince := rfl
@[simp] theorem State.setSparedUntil_lastCapture : (s.setSparedUntil x).lastCapture = s.lastCapture := rfl
@[simp] theorem State.setSparedUntil_owner : (s.setSparedUntil x).owner = s.owner := rfl
@[simp] theorem State.setSparedUntil_poll : (s.setSparedUntil x).poll = s.poll := rfl
@[simp] theorem State.setSparedUntil_turns : (s.setSparedUntil x).turns = s.turns := rfl
@[simp] theorem State.setSparedUntil_trace : (s.setSparedUntil x).trace = s.trace := rfl

end

/-! ## emit -/

section
variable (s : State) (g : Agent) (o : Observation)

@[simp] theorem emit_erInit : (emit g o s).erInit = s.erInit := rfl
@[simp] theorem emit_erIdleLevel : (emit g o s).erIdleLevel = s.erIdleLevel := rfl
@[simp] theorem emit_erEnabled : (emit g o s).erEnabled = s.erEnabled := rfl
@[simp] theorem emit_edgeQ : (emit g o s).edgeQ = s.edgeQ := rfl
@[simp] theorem emit_pdInit : (emit g o s).pdInit = s.pdInit := rfl
@[simp] theorem emit_pulseQ : (emit g o s).pulseQ = s.pulseQ := rfl
@[simp] theorem emit_decInit : (emit g o s).decInit = s.decInit := rfl
@[simp] theorem emit_ds : (emit g o s).ds = s.ds := rfl
@[simp] theorem emit_alarms : (emit g o s).alarms = s.alarms := rfl
@[simp] theorem emit_time : (emit g o s).time = s.time := rfl
@[simp] theorem emit_irIn : (emit g o s).irIn = s.irIn := rfl
@[simp] theorem emit_levelSince : (emit g o s).levelSince = s.levelSince := rfl
@[simp] theorem emit_lastCapture : (emit g o s).lastCapture = s.lastCapture := rfl
@[simp] theorem emit_owner : (emit g o s).owner = s.owner := rfl
@[simp] theorem emit_poll : (emit g o s).poll = s.poll := rfl
@[simp] theorem emit_turns : (emit g o s).turns = s.turns := rfl
@[simp] theorem emit_trace : (emit g o s).trace = s.trace ++ [⟨s.time, g, o⟩] := rfl

end

/-! ## The default configuration -/

theorem cfg_tsWidth : cfg.tsWidth = 64 := rfl
theorem cfg_durWidth : cfg.durWidth = 32 := rfl
theorem cfg_dataWidth : cfg.dataWidth = 32 := rfl
theorem cfg_stepWidth : cfg.stepWidth = 32 := rfl
@[simp] theorem cfg_dataBits : cfg.dataBits = 32 := by decide
@[simp] theorem cfg_edgeQCap : cfg.edgeQCap = 128 := by decide
@[simp] theorem cfg_pulseQCap : cfg.pulseQCap = 32 := by decide
@[simp] theorem cfg_bitMarkLo : cfg.bitMarkLo = 500 := by decide
@[simp] theorem cfg_bitMarkHi : cfg.bitMarkHi = 650 := by decide
@[simp] theorem cfg_zeroSpaceLo : cfg.zeroSpaceLo = 500 := by decide
@[simp] theorem cfg_zeroSpaceHi : cfg.zeroSpaceHi = 650 := by decide
@[simp] theorem cfg_oneSpaceLo : cfg.oneSpaceLo = 1600 := by decide
@[simp] theorem cfg_oneSpaceHi : cfg.oneSpaceHi = 1750 := by decide
@[simp] theorem cfg_endSpaceLo : cfg.endSpaceLo = 1750 := by decide
@[simp] theorem cfg_hdrMarkLo : cfg.hdrMarkLo = 8000 := by decide
@[simp] theorem cfg_hdrMarkHi : cfg.hdrMarkHi = 10000 := by decide
@[simp] theorem cfg_rptSpaceLo : cfg.rptSpaceLo = 2000 := by decide
@[simp] theorem cfg_rptSpaceHi : cfg.rptSpaceHi = 2500 := by decide
@[simp] theorem cfg_startSpaceLo : cfg.startSpaceLo = 4000 := by decide
@[simp] theorem cfg_startSpaceHi : cfg.startSpaceHi = 5000 := by decide
@[simp] theorem cfg_endTimeoutUs : cfg.endTimeoutUs = 125000 := by decide
@[simp] theorem cfg_endMarginUs : cfg.endMarginUs = 5000 := by decide
@[simp] theorem cfg_spareUs : cfg.spareUs = 120000 := by decide
@[simp] theorem cfg_calStableUs : cfg.calStableUs = 30000 := by decide
@[simp] theorem cfg_calTimeoutUs : cfg.calTimeoutUs = 1000000 := by decide

end Sys2Proof.Machine
end

