-- ==== Sys2Proof/Laws/Ops.lean ====
section
/-! SUPPORT. Laws/Ops.lean: what each shared operation can do, said once. -/

namespace Sys2Proof.Machine

/-! ## Queues -/

section
variable {α : Type}

theorem qTryPush_of_room {cap : Nat} {q : List α} (v : α) (h : q.length < cap) :
    qTryPush cap q v = (true, q ++ [v]) := by simp [qTryPush, qCount, h]

theorem qTryPush_of_full {cap : Nat} {q : List α} (v : α) (h : cap ≤ q.length) :
    qTryPush cap q v = (false, q) := by simp [qTryPush, qCount, Nat.not_lt.mpr h]

/-- A push never takes a queue over its capacity. -/
theorem qTryPush_length_le {cap : Nat} {q : List α} (v : α) (h : q.length ≤ cap) :
    (qTryPush cap q v).2.length ≤ cap := by
  unfold qTryPush qCount
  split
  · simp; omega
  · exact h

/-- A push appends its record or changes nothing. -/
theorem qTryPush_cases (cap : Nat) (q : List α) (v : α) :
    (qTryPush cap q v).2 = q ++ [v] ∨ (qTryPush cap q v).2 = q := by
  unfold qTryPush
  split <;> simp

@[simp] theorem qPop_nil : qPop ([] : List α) = none := rfl
@[simp] theorem qPop_cons (v : α) (q : List α) : qPop (v :: q) = some (v, q) := rfl
@[simp] theorem qPeek_nil : qPeek ([] : List α) = none := rfl
@[simp] theorem qPeek_cons (v : α) (q : List α) : qPeek (v :: q) = some v := rfl
@[simp] theorem qCount_eq (q : List α) : qCount q = q.length := rfl

end

/-! ## Pending alarms -/

/-- The listing order of `ALARMS`. -/
abbrev AlarmsRising (as : List Time) : Prop := as.Pairwise (fun a b => a.toNat ≤ b.toNat)

theorem addAlarm_perm (a : Time) (as : List Time) : (addAlarm a as).Perm (a :: as) := by
  induction as with
  | nil => exact .refl _
  | cons b rest ih =>
    unfold addAlarm
    split
    · exact .refl _
    · exact (ih.cons b).trans (List.Perm.swap a b rest)

theorem mem_addAlarm {a x : Time} {as : List Time} : x ∈ addAlarm a as ↔ x = a ∨ x ∈ as := by
  simpa using (addAlarm_perm a as).mem_iff (a := x)

theorem addAlarm_rising {as : List Time} (a : Time) (h : AlarmsRising as) : AlarmsRising (addAlarm a as) := by
  induction as with
  | nil => simp [addAlarm]
  | cons b rest ih =>
    have h := List.pairwise_cons.mp h
    unfold addAlarm
    split
    · rename_i hab
      refine List.pairwise_cons.mpr ⟨fun x hx => ?_, List.pairwise_cons.mpr h⟩
      rcases List.mem_cons.mp hx with rfl | hx
      · exact hab
      · exact hab.trans (h.1 x hx)
    · rename_i hab
      refine List.pairwise_cons.mpr ⟨fun x hx => ?_, ih h.2⟩
      rcases mem_addAlarm.mp hx with rfl | hx
      · omega
      · exact h.1 x hx

theorem removeAlarm_eq_erase (a : Time) (as : List Time) : removeAlarm a as = as.erase a := by
  induction as with
  | nil => rfl
  | cons b rest ih =>
    unfold removeAlarm
    by_cases h : a = b
    · simp [h]
    · simp [h, ih, beq_iff_eq, Ne.symm h]

theorem removeAlarm_rising {as : List Time} (a : Time) (h : AlarmsRising as) : AlarmsRising (removeAlarm a as) := by
  rw [removeAlarm_eq_erase]
  exact h.sublist List.erase_sublist

theorem count_addAlarm (a x : Time) (as : List Time) :
    (addAlarm a as).count x = as.count x + if a = x then 1 else 0 := by
  rw [(addAlarm_perm a as).count_eq, List.count_cons]
  simp

theorem count_removeAlarm_self (a : Time) (as : List Time) :
    (removeAlarm a as).count a = as.count a - 1 := by
  rw [removeAlarm_eq_erase, List.count_erase_self]

theorem count_removeAlarm_ne {a x : Time} (h : a ≠ x) (as : List Time) :
    (removeAlarm a as).count x = as.count x := by
  rw [removeAlarm_eq_erase, List.count_erase_of_ne h.symm]

/-! ## The range of `TIME` -/

theorem timeInRange_iff (t : Time) : timeInRange t = true ↔ t.toNat < 2 ^ 64 - (2 ^ 32 + 125000) :=
  decide_eq_true_iff

theorem timeInRange_eq_false (t : Time) : timeInRange t = false ↔ 2 ^ 64 - (2 ^ 32 + 125000) ≤ t.toNat := by
  rw [Bool.eq_false_iff, Ne, timeInRange_iff, Nat.not_lt]

/-! ## The lock -/

theorem alarmHoldsLock_iff (s : State) : alarmHoldsLock s = true ↔ s.decInit = true ∧ s.ds.lock = .heldByAlarm := by
  rw [alarmHoldsLock, Bool.and_eq_true, decide_eq_true_iff]

theorem alarmHoldsLock_of_ne {s : State} (h : s.ds.lock ≠ .heldByAlarm) : alarmHoldsLock s = false :=
  Bool.eq_false_iff.mpr (fun ha => h ((alarmHoldsLock_iff s).mp ha).2)

/-! ## Arm -/

/-- What `Arm` writes: `spared_until` and `ALARMS`, and nothing else. -/
theorem arm_eq (s : State) :
    arm s = { s with ds := { s.ds with sparedUntil := s.time + 120000 }, alarms := addAlarm (s.time + 125000) s.alarms } := by
  simp [arm, State.setSparedUntil, State.setAlarms, State.setDs]

/-! ## EndCheck and Abort -/

/-- `EndCheck` either finalises the message, with one event, or changes nothing. -/
theorem endCheck_cases (g : Agent) (force : Bool) (s : State) :
    (s.ds.isCancelled = false ∧ (force = true ∨ s.ds.sparedUntil.toNat ≤ s.time.toNat) ∧
      endCheck g force s = { s with
        ds := { s.ds with isCancelled := true },
        trace := s.trace ++ [⟨s.time, g, .event .endOfTransmission⟩] }) ∨
    ((s.ds.isCancelled = true ∨ (force = false ∧ s.time.toNat < s.ds.sparedUntil.toNat)) ∧
      endCheck g force s = s) := by
  unfold endCheck
  split
  · rename_i h
    exact .inl ⟨h.1, h.2, rfl⟩
  · rename_i h
    refine .inr ⟨?_, rfl⟩
    cases hc : s.ds.isCancelled
    · cases force
      · simp [hc] at h
        exact .inr ⟨rfl, h⟩
      · simp [hc] at h
    · exact .inl rfl

theorem endCheck_forced_building {g : Agent} {s : State} (h : s.ds.isCancelled = false) :
    endCheck g true s = { s with
      ds := { s.ds with isCancelled := true },
      trace := s.trace ++ [⟨s.time, g, .event .endOfTransmission⟩] } := by
  simp only [endCheck, h, true_or, and_self, if_true]
  rfl

theorem endCheck_idle {g : Agent} {force : Bool} {s : State} (h : s.ds.isCancelled = true) :
    endCheck g force s = s := by simp [endCheck, h]

theorem setCancelled_self {s : State} {b : Bool} (h : s.ds.isCancelled = b) : s.setCancelled b = s := by
  subst h; rfl

/-- An abort of a Building message: one `end_of_transmission`, and Idle. -/
theorem abort_building {s : State} (h : s.ds.isCancelled = false) :
    abort s = { s with
      ds := { s.ds with isCancelled := true },
      trace := s.trace ++ [⟨s.time, .poll, .event .endOfTransmission⟩] } := by
  rw [abort, endCheck_forced_building h]; rfl

/-- An abort in Idle changes nothing. -/
theorem abort_idle {s : State} (h : s.ds.isCancelled = true) : abort s = s := by
  rw [abort, endCheck_idle h, setCancelled_self h]

/-! ## Calibration -/

theorem calibrationSucceeds_iff (t0 : Time) (s : State) :
    calibrationSucceeds t0 s = true ↔ stableSince t0 s + 30000 ≤ t0.toNat + 1000000 := by
  unfold calibrationSucceeds
  rw [cfg_calStableUs, cfg_calTimeoutUs, decide_eq_true_iff]

theorem calibrationEnd_of_success {t0 : Time} {s : State} (h : calibrationSucceeds t0 s = true) :
    calibrationEnd t0 s = stableSince t0 s + 30000 := by
  rw [calibrationEnd, if_pos h, cfg_calStableUs]

theorem calibrationEnd_of_failure {t0 : Time} {s : State} (h : ¬ calibrationSucceeds t0 s = true) :
    calibrationEnd t0 s = t0.toNat + 1000000 := by
  rw [calibrationEnd, if_neg h, cfg_calTimeoutUs]

/-- A calibration never ends later than its overall timeout. -/
theorem calibrationEnd_le (t0 : Time) (s : State) : calibrationEnd t0 s ≤ t0.toNat + 1000000 := by
  by_cases h : calibrationSucceeds t0 s = true
  · rw [calibrationEnd_of_success h]
    exact (calibrationSucceeds_iff t0 s).mp h
  · exact (calibrationEnd_of_failure h).le

/-- A calibration ends no earlier than both of its bounds allow. -/
theorem le_calibrationEnd {n : Nat} {t0 : Time} {s : State} (h1 : n ≤ stableSince t0 s + 30000)
    (h2 : n ≤ t0.toNat + 1000000) : n ≤ calibrationEnd t0 s := by
  by_cases h : calibrationSucceeds t0 s = true
  · rw [calibrationEnd_of_success h]; exact h1
  · rw [calibrationEnd_of_failure h]; exact h2

theorem stableSince_of_none {t0 : Time} {s : State} (h : s.levelSince = none) : stableSince t0 s = t0.toNat := by
  rw [stableSince, h]

theorem stableSince_of_some {t0 t : Time} {s : State} (h : s.levelSince = some t) :
    stableSince t0 s = max t0.toNat t.toNat := by rw [stableSince, h]

theorem le_stableSince (t0 : Time) (s : State) : t0.toNat ≤ stableSince t0 s := by
  cases h : s.levelSince with
  | none => rw [stableSince_of_none h]
  | some t => rw [stableSince_of_some h]; exact le_max_left _ _

theorem calibrationWaits_iff (t0 : Time) (s : State) :
    calibrationWaits t0 s = true ↔ s.time.toNat < calibrationEnd t0 s := decide_eq_true_iff

/-- POLL's step inside a calibration: it waits for its `TIME`, or ends with the level held or with the timeout. -/
theorem calibrationStep_cases (t0 : Time) (s : State) :
    (s.time.toNat < calibrationEnd t0 s ∧ calibrationStep t0 s = s) ∨
    (calibrationEnd t0 s ≤ s.time.toNat ∧
      ((calibrationSucceeds t0 s = true ∧ calibrationStep t0 s = finishEdgeInit s.irIn s) ∨
       (¬ calibrationSucceeds t0 s = true ∧ calibrationStep t0 s = raiseCalibrationTimeout s))) := by
  unfold calibrationStep
  by_cases hw : calibrationWaits t0 s = true
  · exact .inl ⟨(calibrationWaits_iff t0 s).mp hw, if_pos hw⟩
  · refine .inr ⟨Nat.le_of_not_lt (fun h => hw ((calibrationWaits_iff t0 s).mpr h)), ?_⟩
    rw [if_neg hw, endCalibration]
    by_cases hc : calibrationSucceeds t0 s = true
    · exact .inl ⟨hc, if_pos hc⟩
    · exact .inr ⟨hc, if_neg hc⟩

/-! ## The guards of the meanings -/

theorem underPollLock_next {s t : State} {body : Result} (h : underPollLock s body = .next t) :
    s.decInit = true ∧ s.ds.lock = .heldByPoll ∧ body = .next t := by
  unfold underPollLock at h
  split at h
  · cases h
  · split at h
    · exact ⟨by simpa using ‹¬s.decInit = false›, ‹_›, h⟩
    · cases h

theorem underPollLock_eq {s : State} (body : Result) (hi : s.decInit = true) (hl : s.ds.lock = .heldByPoll) :
    underPollLock s body = body := by simp [underPollLock, hi, hl]

theorem whenPollIdle_next {s t : State} {body : Result} (h : whenPollIdle s body = .next t) :
    s.poll = .idle ∧ body = .next t := by
  unfold whenPollIdle at h
  split at h
  · exact ⟨‹_›, h⟩
  · cases h

theorem whenPollIdle_eq {s : State} (body : Result) (h : s.poll = .idle) : whenPollIdle s body = body := by
  simp [whenPollIdle, h]

end Sys2Proof.Machine
end

