-- ==== Sys2Proof/Laws/Decoder.lean ====
section
/-! SUPPORT. Laws/Decoder.lean: what the operations the six symbols share can do, said once. -/

namespace Sys2Proof.Machine

open Sys2Proof.Safety

@[simp] theorem building_eq (d : DecoderState) : d.building = !d.isCancelled := rfl
@[simp] theorem idle_eq (d : DecoderState) : d.idle = d.isCancelled := rfl

theorem bitDue_iff (d : DecoderState) : d.bitDue = true ↔ d.isCancelled = false ∧ d.step.toNat ≤ 31 := by
  simp only [DecoderState.bitDue, building_eq, cfg_dataBits, Bool.and_eq_true, Bool.not_eq_true', decide_eq_true_eq,
    Nat.lt_succ_iff]

theorem atLastBit_iff (d : DecoderState) : d.atLastBit = true ↔ d.step = 31 := by
  simp only [DecoderState.atLastBit, decide_eq_true_eq, cfg_dataBits, ← BitVec.toNat_inj]
  exact Nat.succ_inj

theorem endDue_iff (d : DecoderState) : d.endDue = true ↔ d.isCancelled = false ∧ d.implicitEnd = true := by
  simp [DecoderState.endDue]

theorem repeatDue_iff (d : DecoderState) :
    d.repeatDue = true ↔ d.isCancelled = false ∧ 32 < d.step.toNat ∧ d.step.toNat % 2 = 1 := by
  simp only [DecoderState.repeatDue, building_eq, cfg_dataBits, Bool.and_eq_true, Bool.not_eq_true', decide_eq_true_eq,
    BitVec.getLsbD, Nat.testBit_zero, and_assoc]

theorem stepAtMax_iff (d : DecoderState) : d.stepAtMax = true ↔ d.step.toNat = 2 ^ 32 - 1 := by
  simp only [DecoderState.stepAtMax, decide_eq_true_eq, ← BitVec.toNat_inj, BitVec.toNat_allOnes]

/-- An advance of `step` below the largest one. -/
theorem advanceStep_eq {s : State} (h : s.ds.step.toNat + 1 < 2 ^ 32) :
    advanceStep s = .next (s.setStep (s.ds.step + 1)) := by
  have : ¬ s.ds.stepAtMax = true := fun hm => by have := (stepAtMax_iff _).mp hm; omega
  simp [advanceStep, this]

/-- An advance of `step` either adds one or is refused. -/
theorem advanceStep_next {s t : State} (h : advanceStep s = .next t) :
    s.ds.step.toNat + 1 < 2 ^ 32 ∧ t = s.setStep (s.ds.step + 1) := by
  unfold advanceStep at h
  split at h
  · cases h
  · rename_i hm
    rw [stepAtMax_iff] at hm
    have : s.ds.step.toNat < 2 ^ 32 := s.ds.step.isLt
    exact ⟨by omega, by cases h; rfl⟩

theorem complementsValid_iff (d : DataWord) : complementsValid d = true ↔ WordValid d := decide_eq_true_iff

/-- What the announcement of a word adds to the trace. -/
theorem announceWord_eq (s : State) : announceWord s = { s with trace := s.trace ++ wordEvents s.ds.data s } := by
  unfold announceWord wordEvents
  by_cases h : WordValid s.ds.data
  · rw [if_pos ((complementsValid_iff _).mpr h), if_pos h]; rfl
  · rw [if_neg (fun hc => h ((complementsValid_iff _).mp hc)), if_neg h, List.append_nil]

/-- `Complete()`: the announcement, an `END` expected, an alarm armed. -/
theorem complete_eq (s : State) : complete s = { s with
    ds := { s.ds with implicitEnd := true, sparedUntil := s.time + 120000 },
    alarms := addAlarm (s.time + 125000) s.alarms,
    trace := s.trace ++ wordEvents s.ds.data s } := by
  rw [complete, announceWord_eq, arm_eq]
  rfl

/-- A data bit in a message in progress, before the 32nd. -/
theorem execBit_shift {s : State} (b : Bool) (hc : s.ds.isCancelled = false) (hs : s.ds.step.toNat < 31) :
    execBit b s = .next { s with ds := { s.ds with data := withBit b s.ds, step := s.ds.step + 1 } } := by
  have h31 : ¬ s.ds.step = 31 := fun h => by rw [h] at hs; exact absurd hs (by decide)
  rw [execBit, if_pos ((bitDue_iff _).mpr ⟨hc, by omega⟩)]
  dsimp only
  rw [if_neg (fun h => h31 ((atLastBit_iff _).mp h))]
  cases b
  · rw [if_neg (by simp), advanceStep_eq (by omega)]; rfl
  · rw [if_pos rfl, advanceStep_eq (by simp only [State.setData_ds]; omega)]; rfl

/-- The 32nd data bit of a message in progress. -/
theorem execBit_last {s : State} (b : Bool) (hc : s.ds.isCancelled = false) (hs : s.ds.step = 31) :
    execBit b s = .next (completed (withBit b s.ds) s) := by
  rw [execBit, if_pos ((bitDue_iff _).mpr ⟨hc, by rw [hs]; decide⟩)]
  dsimp only
  rw [if_pos ((atLastBit_iff _).mpr hs), complete_eq]
  cases b
  · rw [if_neg (by simp), advanceStep_eq (by simp [hs])]
    simp [State.setStep, State.setDs, hs, completed, armed, withBit]
  · rw [if_pos rfl, advanceStep_eq (by simp [hs, State.setData, State.setDs])]
    simp [State.setStep, State.setData, State.setDs, hs, completed, armed, withBit, setDataBit, wordEvents]

/-- A data bit that is not due. -/
theorem execBit_reject {s : State} (b : Bool) (h : ¬ s.ds.bitDue = true) : execBit b s = .next (abort s) := by
  rw [execBit, if_neg h]

/-- The abort of a message in progress, in the terms of the statements. -/
theorem abort_eq_aborted {s : State} (h : s.ds.isCancelled = false) : abort s = aborted s := abort_building h

/-- When a symbol of a message in progress is rejected (rules R125, R128 to R130). -/
abbrev Rejected (s : State) (sym : Symbol) : Prop :=
  sym = .invalid ∨ (sym = .zero ∨ sym = .one) ∧ 31 < s.ds.step.toNat ∨
  sym = .endSym ∧ s.ds.implicitEnd = false ∨
  sym = .repeatSym ∧ ¬ (32 < s.ds.step.toNat ∧ s.ds.step.toNat % 2 = 1)

/-- `END` that answers with a next state. -/
theorem execEnd_cases {s t : State} (h : execEnd s = .next t) :
    (s.ds.endDue = true ∧ s.ds.step.toNat + 1 < 2 ^ 32 ∧
      t = { s with ds := { s.ds with implicitEnd := false, step := s.ds.step + 1 } }) ∨
    (¬ s.ds.endDue = true ∧ t = abort s) := by
  obtain ⟨-, -, h⟩ := underPollLock_next h
  split at h
  · obtain ⟨h1, rfl⟩ := advanceStep_next h
    exact .inl ⟨‹_›, h1, rfl⟩
  · cases h
    exact .inr ⟨‹_›, rfl⟩

/-- `REPEAT` that answers with a next state. -/
theorem execRepeat_cases {s t : State} (h : execRepeat s = .next t) :
    (s.ds.repeatDue = true ∧ s.ds.step.toNat + 1 < 2 ^ 32 ∧
      t = armed { s with ds := { s.ds with implicitEnd := true, step := s.ds.step + 1 } }) ∨
    (¬ s.ds.repeatDue = true ∧ t = abort s) := by
  obtain ⟨-, -, h⟩ := underPollLock_next h
  split at h
  · rw [arm_eq] at h
    obtain ⟨h1, rfl⟩ := advanceStep_next h
    exact .inl ⟨‹_›, h1, rfl⟩
  · cases h
    exact .inr ⟨‹_›, rfl⟩

/-- A data bit, whatever the state. -/
theorem execBit_cases (b : Bool) (s : State) :
    (s.ds.isCancelled = false ∧ s.ds.step.toNat < 31 ∧
      execBit b s = .next { s with ds := { s.ds with data := withBit b s.ds, step := s.ds.step + 1 } }) ∨
    (s.ds.isCancelled = false ∧ s.ds.step = 31 ∧ execBit b s = .next (completed (withBit b s.ds) s)) ∨
    (¬ s.ds.bitDue = true ∧ execBit b s = .next (abort s)) := by
  by_cases hd : s.ds.bitDue = true
  · obtain ⟨hc, hs⟩ := (bitDue_iff _).mp hd
    by_cases h31 : s.ds.step = 31
    · exact .inr (.inl ⟨hc, h31, execBit_last b hc h31⟩)
    · have : s.ds.step.toNat ≠ 31 := fun h => h31 (BitVec.toNat_inj.mp h)
      exact .inl ⟨hc, by omega, execBit_shift b hc (by omega)⟩
  · exact .inr (.inr ⟨hd, execBit_reject b hd⟩)

/-- Everything a symbol can do that answers with a next state: nothing, in Idle; an abort; a `START` from Idle or as an
interruption; a bit, before the 32nd or the 32nd; an `END` or a `REPEAT` that is due. -/
theorem symbol_cases {s t : State} {sym : Symbol} (h : exec sym.toInstr s = .next t) :
    MayExecute s ∧
    ((s.ds.isCancelled = true ∧ sym ≠ .start ∧ t = s) ∨
     (s.ds.isCancelled = false ∧ Rejected s sym ∧ t = aborted s) ∨
     (sym = .start ∧ s.ds.isCancelled = true ∧ t = fresh s) ∨
     (sym = .start ∧ s.ds.isCancelled = false ∧ t = armed (fresh { s with trace := s.trace ++ [eot .poll s] })) ∨
     (∃ b, sym = bitSymbol b ∧ s.ds.isCancelled = false ∧ s.ds.step.toNat < 31 ∧
       t = { s with ds := { s.ds with data := withBit b s.ds, step := s.ds.step + 1 } }) ∨
     (∃ b, sym = bitSymbol b ∧ s.ds.isCancelled = false ∧ s.ds.step = 31 ∧ t = completed (withBit b s.ds) s) ∨
     (sym = .endSym ∧ s.ds.isCancelled = false ∧ s.ds.implicitEnd = true ∧ s.ds.step.toNat + 1 < 2 ^ 32 ∧
       t = { s with ds := { s.ds with implicitEnd := false, step := s.ds.step + 1 } }) ∨
     (sym = .repeatSym ∧ s.ds.isCancelled = false ∧ 32 < s.ds.step.toNat ∧ s.ds.step.toNat % 2 = 1 ∧
       s.ds.step.toNat + 1 < 2 ^ 32 ∧
       t = armed { s with ds := { s.ds with implicitEnd := true, step := s.ds.step + 1 } })) := by
  have hm : MayExecute s := by
    cases sym <;> exact ⟨(underPollLock_next h).1, (underPollLock_next h).2.1⟩
  refine ⟨hm, ?_⟩
  have aborts (hs : sym ≠ .start) (hr : s.ds.isCancelled = false → Rejected s sym) (ht : t = abort s) :
      (s.ds.isCancelled = true ∧ sym ≠ .start ∧ t = s) ∨
      (s.ds.isCancelled = false ∧ Rejected s sym ∧ t = aborted s) := by
    cases hc : s.ds.isCancelled
    · exact .inr ⟨rfl, hr hc, ht.trans (abort_eq_aborted hc)⟩
    · exact .inl ⟨rfl, hs, ht.trans (abort_idle hc)⟩
  have bits (b : Bool) (hb : sym = bitSymbol b) (hx : execBit b s = .next t) :
      (s.ds.isCancelled = true ∧ sym ≠ .start ∧ t = s) ∨
      (s.ds.isCancelled = false ∧ Rejected s sym ∧ t = aborted s) ∨
      (∃ b, sym = bitSymbol b ∧ s.ds.isCancelled = false ∧ s.ds.step.toNat < 31 ∧
        t = { s with ds := { s.ds with data := withBit b s.ds, step := s.ds.step + 1 } }) ∨
      (∃ b, sym = bitSymbol b ∧ s.ds.isCancelled = false ∧ s.ds.step = 31 ∧ t = completed (withBit b s.ds) s) := by
    rcases execBit_cases b s with ⟨h1, h2, h3⟩ | ⟨h1, h2, h3⟩ | ⟨h1, h3⟩
    · rw [h3] at hx; cases hx
      exact .inr (.inr (.inl ⟨b, hb, h1, h2, rfl⟩))
    · rw [h3] at hx; cases hx
      exact .inr (.inr (.inr ⟨b, hb, h1, h2, rfl⟩))
    · rw [h3] at hx; cases hx
      rw [bitDue_iff] at h1
      have := aborts (by rw [hb]; cases b <;> simp [bitSymbol])
        (fun hc => .inr (.inl ⟨by rw [hb]; cases b <;> simp [bitSymbol], Nat.lt_of_not_le (fun hle => h1 ⟨hc, hle⟩)⟩)) rfl
      rcases this with h | h
      · exact .inl h
      · exact .inr (.inl h)
  cases sym with
  | invalid =>
    have := aborts (by simp) (fun _ => .inl rfl) (by cases (underPollLock_next h).2.2; rfl)
    rcases this with h | h
    · exact .inl h
    · exact .inr (.inl h)
  | zero =>
    rcases bits false rfl (underPollLock_next h).2.2 with h | h | h | h
    · exact .inl h
    · exact .inr (.inl h)
    · exact .inr (.inr (.inr (.inr (.inl h))))
    · exact .inr (.inr (.inr (.inr (.inr (.inl h)))))
  | one =>
    rcases bits true rfl (underPollLock_next h).2.2 with h | h | h | h
    · exact .inl h
    · exact .inr (.inl h)
    · exact .inr (.inr (.inr (.inr (.inl h))))
    · exact .inr (.inr (.inr (.inr (.inr (.inl h)))))
  | start =>
    have hx := (underPollLock_next h).2.2
    cases hc : s.ds.isCancelled
    · rw [building_eq, hc, if_pos (by simp), endCheck_forced_building hc, arm_eq] at hx
      cases hx
      exact .inr (.inr (.inr (.inl ⟨rfl, rfl, rfl⟩)))
    · rw [building_eq, hc, if_neg (by simp)] at hx
      cases hx
      exact .inr (.inr (.inl ⟨rfl, rfl, rfl⟩))
  | repeatSym =>
    rcases execRepeat_cases h with ⟨h1, h2, rfl⟩ | ⟨h1, h2⟩
    · obtain ⟨hc, ha, hb⟩ := (repeatDue_iff _).mp h1
      exact .inr (.inr (.inr (.inr (.inr (.inr (.inr ⟨rfl, hc, ha, hb, h2, rfl⟩))))))
    · have := aborts (by simp) (fun hc => .inr (.inr (.inr ⟨rfl, fun hh => h1 ((repeatDue_iff _).mpr ⟨hc, hh⟩)⟩))) h2
      rcases this with h | h
      · exact .inl h
      · exact .inr (.inl h)
  | endSym =>
    rcases execEnd_cases h with ⟨h1, h2, rfl⟩ | ⟨h1, h2⟩
    · obtain ⟨hc, he⟩ := (endDue_iff _).mp h1
      exact .inr (.inr (.inr (.inr (.inr (.inr (.inl ⟨rfl, hc, he, h2, rfl⟩))))))
    · have := aborts (by simp) (fun hc => .inr (.inr (.inl ⟨rfl, by simpa [endDue_iff, hc] using h1⟩))) h2
      rcases this with h | h
      · exact .inl h
      · exact .inr (.inl h)

end Sys2Proof.Machine
end

