-- ==== Sys2Proof/Laws/PerInstr.lean ====
section
/-! SUPPORT. Laws/PerInstr.lean: the family `EncodeId`, one lemma per constructor of Instr: the word of an instruction
carries its identifier of `30_encoding.md` rule R82 in bits 3:0, and that identifier is not a reserved one (R84 (c)). -/

namespace Sys2Proof.Laws.EncodeId

/-- The low four bits of an instruction's word are its identifier, which is none of the reserved 7, 14 and 15. -/
def Statement (i : Instr) : Prop :=
  (encode i).extractLsb' 0 4 = i.id ∧ i.id ≠ 7 ∧ i.id ≠ 14 ∧ i.id ≠ 15

/-- The low field of three concatenated fields. -/
theorem low_field (p : BitVec 64) (n i : BitVec 4) : (p ++ n ++ i : OpWord).extractLsb' 0 4 = i := by
  apply BitVec.eq_of_getLsbD_eq
  intro k hk
  simp only [BitVec.getLsbD_extractLsb', BitVec.getLsbD_append, Nat.zero_add, hk, decide_true, Bool.true_and, if_true]

theorem edgeInit (pin : Pin) (mode : IdleMode) : Statement (.edgeInit pin mode) := ⟨low_field _ _ _, by simp [Instr.id]⟩
theorem capture (d : Direction) : Statement (.capture d) := ⟨low_field _ _ _, by simp [Instr.id]⟩
theorem pulseInit : Statement .pulseInit := ⟨low_field _ _ _, by decide⟩
theorem drain : Statement .drain := ⟨low_field _ _ _, by decide⟩
theorem decInit : Statement .decInit := ⟨low_field _ _ _, by decide⟩
theorem process : Statement .process := ⟨low_field _ _ _, by decide⟩
theorem alarmFire (deadline : Time) : Statement (.alarmFire deadline) := ⟨low_field _ _ _, by simp [Instr.id]⟩
theorem invalid : Statement .invalid := ⟨low_field _ _ _, by decide⟩
theorem zero : Statement .zero := ⟨low_field _ _ _, by decide⟩
theorem one : Statement .one := ⟨low_field _ _ _, by decide⟩
theorem start : Statement .start := ⟨low_field _ _ _, by decide⟩
theorem repeatSym : Statement .repeatSym := ⟨low_field _ _ _, by decide⟩
theorem endSym : Statement .endSym := ⟨low_field _ _ _, by decide⟩

end Sys2Proof.Laws.EncodeId
end

