-- ==== Sys2Proof/Laws/Step.lean ====
section
/-! SUPPORT. Laws/Step.lean: everything one step of the machine can do, said once (`step_move`), and the same for each
operation a step can run, so that a statement over all steps is a case analysis and unfolds nothing. -/

namespace Sys2Proof.Machine

open Sys2Proof.Safety

theorem setTurns_self (s : State) : s.setTurns s.turns = s := rfl

/-- A step of a state whose `TIME` is in range is its next turn. -/
theorem step_eq {s : State} (h : timeInRange s.time = true) : step s = takeTurn s := by simp [step, h]

/-! ## Runs -/

theorem run_zero (s : State) : run 0 s = .next s := rfl

theorem run_succ_next {n : Nat} {s t : State} (h : step s = .next t) : run (n + 1) s = run n t := by
  simp only [run, Host.Core.run, show Sys2Proof.core.step s = .next t from h]; rfl

theorem run_succ_refused {n : Nat} {s : State} {r : Refusal} (h : step s = .refused r) : run (n + 1) s = .refused r := by
  simp only [run, Host.Core.run, show Sys2Proof.core.step s = .refused r from h]; rfl

/-! ## The operations -/

/-- `EDGE_INIT` that answers with a next state. -/
theorem execEdgeInit_cases {pin : Pin} {mode : IdleMode} {s t : State} (h : execEdgeInit pin mode s = .next t) :
    s.poll = .idle ∧ s.erInit = false ∧
      ((∃ l, t = finishEdgeInit l s) ∨ t = s.setPoll (.calibrate s.time)) := by
  obtain ⟨hp, h⟩ := whenPollIdle_next h
  split at h
  · cases h
  · rename_i hi
    refine ⟨hp, by simpa using hi, ?_⟩
    cases mode <;> cases h
    · exact .inl ⟨_, rfl⟩
    · exact .inl ⟨_, rfl⟩
    · exact .inr rfl

/-- `PULSE_INIT` that answers with a next state. -/
theorem execPulseInit_next {s t : State} (h : execPulseInit s = .next t) :
    s.poll = .idle ∧ s.pdInit = false ∧ t = { s with pulseQ := [], pdInit := true } := by
  obtain ⟨hp, h⟩ := whenPollIdle_next h
  split at h
  · cases h
  · rename_i hi
    cases h; exact ⟨hp, Bool.eq_false_iff.mpr hi, rfl⟩

/-- `DEC_INIT` that answers with a next state. -/
theorem execDecInit_next {s t : State} (h : execDecInit s = .next t) :
    s.poll = .idle ∧ s.decInit = false ∧ s.pdInit = true ∧
      t = { s with ds := initialDecoderState, alarms := [], decInit := true } := by
  obtain ⟨hp, h⟩ := whenPollIdle_next h
  split at h
  · cases h
  · rename_i hi
    split at h
    · cases h; exact ⟨hp, Bool.eq_false_iff.mpr hi, ‹_›, rfl⟩
    · cases h

/-- `DRAIN` that answers with a next state. -/
theorem execDrain_next {s t : State} (h : execDrain s = .next t) :
    s.poll = .idle ∧ s.erInit = true ∧ s.pdInit = true ∧ t = drainIteration s := by
  obtain ⟨hp, h⟩ := whenPollIdle_next h
  split at h
  · rename_i hi
    rw [Bool.and_eq_true] at hi
    cases h; exact ⟨hp, hi.1, hi.2, rfl⟩
  · cases h

/-- `PROCESS` that answers with a next state. -/
theorem execProcess_next {s t : State} (h : execProcess s = .next t) :
    s.poll = .idle ∧ s.decInit = true ∧ t = processIteration s := by
  obtain ⟨hp, h⟩ := whenPollIdle_next h
  split at h
  · cases h; exact ⟨hp, ‹_›, rfl⟩
  · cases h

/-- One iteration of `DRAIN`: it returns, drops a first edge that matches the idle level, or pairs two edges. -/
theorem drainIteration_cases (s : State) :
    drainIteration s = s.setPoll .idle ∨
    ∃ first second rest, s.edgeQ = first :: second :: rest ∧
      ((first.direction.toLevel = s.erIdleLevel ∧
          drainIteration s = (s.setEdgeQ (second :: rest)).setPoll .drain) ∨
       (first.direction.toLevel ≠ s.erIdleLevel ∧ drainIteration s =
          ((s.setEdgeQ rest).setPulseQ (qTryPush 32 s.pulseQ (pulseOf first second)).2).setPoll .drain)) := by
  match hq : s.edgeQ with
  | [] => exact .inl (by simp [drainIteration, hq])
  | [a] => exact .inl (by simp [drainIteration, hq])
  | a :: b :: rest =>
    by_cases hf : s.pulseQ.length = 32
    · exact .inl (by simp [drainIteration, hq, hf])
    · refine .inr ⟨a, b, rest, rfl, ?_⟩
      by_cases hm : a.direction.toLevel = s.erIdleLevel
      · exact .inl ⟨hm, by simp [drainIteration, hq, hf, matchesIdle, hm]⟩
      · exact .inr ⟨hm, by simp [drainIteration, hq, hf, matchesIdle, hm]⟩

/-- The head of the loop of `PROCESS`: it returns, or goes on to the symbol of the first two pulses. -/
theorem processIteration_cases (s : State) :
    processIteration s = s.setPoll .idle ∨
    ∃ cur next rest, s.pulseQ = cur :: next :: rest ∧
      processIteration s = (s.setPulseQ (next :: rest)).setPoll (.acquire (symbolOf cur next)) := by
  match hq : s.pulseQ with
  | [] => exact .inl (by simp [processIteration, hq])
  | [a] => exact .inl (by simp [processIteration, hq])
  | a :: b :: rest => exact .inr ⟨a, b, rest, rfl, by simp [processIteration, hq]⟩

/-- `CAPTURE` always answers with a next state, which differs in the edge queue alone. -/
theorem execCapture_eq (d : Direction) (s : State) :
    execCapture d s = .next (s.setEdgeQ
      (if s.erEnabled then (qTryPush 128 s.edgeQ ⟨s.time, d⟩).2 else s.edgeQ)) := by
  unfold execCapture
  cases s.erEnabled
  · rw [if_neg (by simp), if_neg (by simp)]; rfl
  · rw [if_pos rfl, if_pos rfl, cfg_edgeQCap]

/-- `PollAcquire` for a symbol: the lock is taken, or POLL waits. -/
theorem acquireForSymbol_cases (sym : Symbol) (s : State) :
    (s.ds.lock = .free ∧ acquireForSymbol sym s = (s.setLock .heldByPoll).setPoll (.execute sym)) ∨
    (s.ds.lock ≠ .free ∧ acquireForSymbol sym s = s) := by
  unfold acquireForSymbol pollAcquire
  by_cases h : s.ds.lock = .free
  · exact .inl ⟨h, by rw [if_pos h]⟩
  · exact .inr ⟨h, by rw [if_neg h]⟩

/-- `ALARM_FIRE` that answers with a next state: the alarm was pending and due, and is spent; and it finalises the
message in progress, or changes nothing else. -/
theorem execAlarmFire_cases {a : Time} {s t : State} (h : execAlarmFire a s = .next t) :
    a ∈ s.alarms ∧ a.toNat ≤ s.time.toNat ∧
    ((s.ds.lock = .free ∧ s.ds.isCancelled = false ∧ s.ds.sparedUntil.toNat ≤ s.time.toNat ∧
        t = { s with alarms := s.alarms.erase a, ds := { s.ds with isCancelled := true },
                     trace := s.trace ++ [eot .alarm s] }) ∨
     (¬ (s.ds.lock = .free ∧ s.ds.isCancelled = false ∧ s.ds.sparedUntil.toNat ≤ s.time.toNat) ∧
        t = s.setAlarms (s.alarms.erase a))) := by
  unfold execAlarmFire at h
  split at h
  · rename_i ha
    split at h
    · rename_i hd
      cases h
      refine ⟨by simpa using ha, hd, ?_⟩
      rw [removeAlarm_eq_erase]
      by_cases hl : s.ds.lock = .free
      · have hback (u : State) (hu : u.ds.lock = .free) : (u.setLock .heldByAlarm).setLock .free = u := by
          rw [show u = { u with ds := { u.ds with lock := .free } } by rw [← hu]]; rfl
        rcases endCheck_cases .alarm false ((s.setAlarms (s.alarms.erase a)).setLock .heldByAlarm) with
          ⟨h1, h2, h3⟩ | ⟨h1, h3⟩
        · refine .inl ⟨hl, h1, by simpa using h2, ?_⟩
          simp only [alarmEndCheck, alarmTry, State.setAlarms_ds, hl, if_true, h3, alarmRelease]
          simp [State.setLock, State.setAlarms, State.setDs, eot, ← hl]
        · refine .inr ⟨?_, ?_⟩
          · rintro ⟨_, hc, hs⟩
            rcases h1 with h1 | ⟨_, h1⟩
            · simp only [State.setLock, State.setDs_ds, State.setAlarms_ds] at h1
              rw [hc] at h1; cases h1
            · exact absurd hs (Nat.not_le.mpr h1)
          · simp only [alarmEndCheck, alarmTry, State.setAlarms_ds, hl, if_true, h3, alarmRelease]
            exact hback _ hl
      · exact .inr ⟨fun hh => hl hh.1, by simp [alarmEndCheck, alarmTry, hl]⟩
    · cases h
  · cases h

/-- The end of an atomic step that answers with a next state: its effect, or an agent left inside a callback. -/
theorem callBack_next {s done stuck t : State} (h : callBack s done stuck = .next t) :
    t = done ∨ (s.owner = .neverReturns ∧ s.trace.length < done.trace.length ∧ t = stuck) := by
  unfold callBack at h
  split at h
  · rename_i hl
    cases ho : s.owner <;> rw [ho] at h <;> cases h
    · exact .inl rfl
    · exact .inr ⟨rfl, hl, rfl⟩
  · cases h; exact .inl rfl

/-- With an owner that returns, an atomic step has its effect. -/
theorem callBack_returns {s : State} (done stuck : State) (h : s.owner = .returns) : callBack s done stuck = .next done := by
  unfold callBack
  split
  · rw [h]
  · rfl

/-- POLL's execution of a symbol that answers with a next state. -/
theorem executeSymbol_next {sym : Symbol} {s t : State} (h : executeSymbol sym s = .next t) :
    ∃ u, exec sym.toInstr s = .next u ∧
      (t = u.setPoll .release ∨
       (s.owner = .neverReturns ∧ s.trace.length < u.trace.length ∧
        t = ((beforeCallback sym s).setTrace u.trace).setPoll .stuck)) := by
  unfold executeSymbol at h
  cases hx : exec sym.toInstr s with
  | next u => rw [hx] at h; exact ⟨u, rfl, callBack_next h⟩
  | fault r => rw [hx] at h; cases h
  | refused r => rw [hx] at h; cases h

/-- What a symbol has written when it invokes a callback: at most `data`. -/
theorem beforeCallback_eq (sym : Symbol) (s : State) :
    beforeCallback sym s = s.setData
      (if sym = .one ∧ s.ds.bitDue = true then setDataBit s.ds.data s.ds.step else s.ds.data) := by
  cases sym <;> simp only [beforeCallback, reduceCtorEq, false_and, true_and, if_false] <;> try rfl
  split <;> rfl

/-- An alarm's atomic step that answers with a next state: it is spent, and finalises the message in progress or changes
nothing else, or is left inside the callback with the lock held. -/
theorem fireAlarm_cases {a : Time} {s t : State} (h : fireAlarm (.alarmFire a) s = .next t) :
    a ∈ s.alarms ∧ a.toNat ≤ s.time.toNat ∧
    ((s.ds.lock = .free ∧ s.ds.isCancelled = false ∧ s.ds.sparedUntil.toNat ≤ s.time.toNat ∧
        (t = { s with alarms := s.alarms.erase a, ds := { s.ds with isCancelled := true },
                      trace := s.trace ++ [eot .alarm s] } ∨
         (s.owner = .neverReturns ∧
          t = { s with alarms := s.alarms.erase a, ds := { s.ds with lock := .heldByAlarm },
                       trace := s.trace ++ [eot .alarm s] }))) ∨
     (¬ (s.ds.lock = .free ∧ s.ds.isCancelled = false ∧ s.ds.sparedUntil.toNat ≤ s.time.toNat) ∧
        t = s.setAlarms (s.alarms.erase a))) := by
  unfold fireAlarm at h
  cases hx : exec (.alarmFire a) s with
  | next u =>
    rw [hx] at h
    obtain ⟨h1, h2, ⟨h3, h4, h5, rfl⟩ | ⟨h3, rfl⟩⟩ := execAlarmFire_cases hx
    · refine ⟨h1, h2, .inl ⟨h3, h4, h5, ?_⟩⟩
      rcases callBack_next h with rfl | ⟨h6, -, rfl⟩
      · exact .inl rfl
      · exact .inr ⟨h6, rfl⟩
    · refine ⟨h1, h2, .inr ⟨h3, ?_⟩⟩
      rcases callBack_next h with rfl | ⟨-, h6, -⟩
      · rfl
      · exact absurd h6 (Nat.lt_irrefl _)
  | fault r => rw [hx] at h; cases h
  | refused r => rw [hx] at h; cases h

/-- `PollRelease` that answers with a next state: POLL held the lock. -/
theorem releaseAfterSymbol_next {s t : State} (h : releaseAfterSymbol s = .next t) :
    s.ds.lock = .heldByPoll ∧ t = (s.setLock .free).setPoll .process := by
  unfold releaseAfterSymbol pollRelease at h
  by_cases hl : s.ds.lock = .heldByPoll
  · rw [if_pos hl] at h; cases h; exact ⟨hl, rfl⟩
  · rw [if_neg hl] at h; cases h

/-- An advance of `TIME` that answers with a next state. -/
theorem advanceTime_next {t1 : Time} {s t : State} (h : advanceTime t1 s = .next t) :
    s.time.toNat ≤ t1.toNat ∧ timeInRange t1 = true ∧ t = s.setTime t1 := by
  unfold advanceTime at h
  split at h
  · cases h
  · split at h
    · cases h; exact ⟨Nat.le_of_not_lt ‹_›, ‹_›, rfl⟩
    · cases h

theorem calibrationEndBefore_eq_some {t1 : Time} {s : State} {e : Nat} (h : calibrationEndBefore t1 s = some e) :
    alarmHoldsLock s = false ∧ ∃ t0, s.poll = .calibrate t0 ∧ e = calibrationEnd t0 s ∧ e < t1.toNat := by
  unfold calibrationEndBefore at h
  split at h
  · cases h
  · refine ⟨Bool.eq_false_iff.mpr ‹_›, ?_⟩
    cases hp : s.poll with
    | calibrate t0 =>
      rw [hp] at h
      dsimp only at h
      split at h
      · exact ⟨t0, rfl, (Option.some.inj h).symm, Option.some.inj h ▸ ‹_›⟩
      · cases h
    | _ => rw [hp] at h; cases h

theorem calibrationEndBefore_eq_none {t1 t0 : Time} {s : State} (h : calibrationEndBefore t1 s = none)
    (ha : alarmHoldsLock s = false) (hp : s.poll = .calibrate t0) : t1.toNat ≤ calibrationEnd t0 s := by
  rw [calibrationEndBefore, ha, if_neg Bool.false_ne_true, hp] at h
  dsimp only at h
  split at h
  · cases h
  · exact Nat.le_of_not_lt ‹_›

/-- The pin's driving that answers with a next state: no change, or a change and its capture. -/
theorem drivePin_next {l : Level} {s t : State} (h : drivePin l s = .next t) :
    (s.irIn = l ∧ t = s) ∨
    (s.irIn ≠ l ∧ (s.erEnabled = true → ∀ t0, s.lastCapture = some t0 → t0.toNat < s.time.toNat) ∧
      execCapture l.toDirection (s.setPin l) = .next t) := by
  unfold drivePin at h
  split at h
  · cases h; exact .inl ⟨‹_›, rfl⟩
  · refine .inr ⟨‹_›, ?_⟩
    unfold changePin at h
    cases hl : s.lastCapture with
    | none => rw [hl] at h; exact ⟨by simp, h⟩
    | some t0 =>
      rw [hl] at h
      dsimp only at h
      split at h
      · cases h
      · rename_i hn
        exact ⟨fun he t1 ht => by cases ht; exact Nat.lt_of_not_le (fun hle => hn ⟨he, hle⟩), h⟩

/-- A requested `CAPTURE` that answers with a next state: one that captures nothing, or a change of the pin. -/
theorem takeCapture_next {d : Direction} {s t : State} (h : takeCapture d s = .next t) :
    t = s ∨
    (s.irIn ≠ d.toLevel ∧ (s.erEnabled = true → ∀ t0, s.lastCapture = some t0 → t0.toNat < s.time.toNat) ∧
      execCapture d (s.setPin d.toLevel) = .next t) := by
  unfold takeCapture at h
  split at h
  · split at h
    · cases h
    · rename_i hen
      have hx : execCapture d s = .next t := h
      rw [execCapture, if_neg hen] at hx
      cases hx; exact .inl rfl
  · rename_i hne
    rcases drivePin_next (by rw [drivePin, if_neg hne]; exact h) with h1 | ⟨h1, h2, h3⟩
    · exact absurd h1.1 hne
    · refine .inr ⟨hne, h2, ?_⟩
      cases d <;> exact h3

/-! ## A step, as the list of everything that can happen -/

/-- POLL is before an iteration of `DRAIN`. -/
abbrev AtDrain (u : State) : Prop := u.poll = .idle ∧ u.erInit = true ∧ u.pdInit = true ∨ u.poll = .drain

/-- POLL is at the head of the loop of `PROCESS`. -/
abbrev AtProcess (u : State) : Prop := u.poll = .idle ∧ u.decInit = true ∨ u.poll = .process

/-- The turn drives the pin, or requests its capture, in the direction `d`. -/
abbrev DrivesPin (x : Option Turn) (d : Direction) : Prop :=
  x = some (.level d.toLevel) ∨ ∃ w, x = some (.op w) ∧ decode w = .ok (.capture d)

/-- `PollMove u t`: `t` is what one atomic step of POLL makes of `u`. -/
inductive PollMove (u : State) : State → Prop where
  | edgeInit (l : Level) : u.poll = .idle → u.erInit = false → PollMove u (finishEdgeInit l u)
  | calibrating : u.poll = .idle → u.erInit = false → PollMove u (u.setPoll (.calibrate u.time))
  | calibrated (t0 : Time) : u.poll = .calibrate t0 → calibrationEnd t0 u ≤ u.time.toNat →
      calibrationSucceeds t0 u = true → PollMove u (finishEdgeInit u.irIn u)
  | calibrationFailed (t0 : Time) : u.poll = .calibrate t0 → calibrationEnd t0 u ≤ u.time.toNat →
      ¬ calibrationSucceeds t0 u = true → PollMove u (raiseCalibrationTimeout u)
  | pulseInit : u.poll = .idle → u.pdInit = false → PollMove u { u with pulseQ := [], pdInit := true }
  | decInit : u.poll = .idle → u.decInit = false → u.pdInit = true →
      PollMove u { u with ds := initialDecoderState, alarms := [], decInit := true }
  | drainEnd : AtDrain u → PollMove u (u.setPoll .idle)
  | drainDrop (first second : Edge) (rest : List Edge) : AtDrain u → u.edgeQ = first :: second :: rest →
      first.direction.toLevel = u.erIdleLevel → PollMove u ((u.setEdgeQ (second :: rest)).setPoll .drain)
  | drainPair (first second : Edge) (rest : List Edge) : AtDrain u → u.edgeQ = first :: second :: rest →
      first.direction.toLevel ≠ u.erIdleLevel →
      PollMove u (((u.setEdgeQ rest).setPulseQ (qTryPush 32 u.pulseQ (pulseOf first second)).2).setPoll .drain)
  | processEnd : AtProcess u → PollMove u (u.setPoll .idle)
  | processHead (cur next : Pulse) (rest : List Pulse) : AtProcess u → u.pulseQ = cur :: next :: rest →
      PollMove u ((u.setPulseQ (next :: rest)).setPoll (.acquire (symbolOf cur next)))
  | acquire (sym : Symbol) : u.poll = .acquire sym → u.ds.lock = .free →
      PollMove u ((u.setLock .heldByPoll).setPoll (.execute sym))
  | execute (sym : Symbol) (v : State) : u.poll = .execute sym → exec sym.toInstr u = .next v →
      PollMove u (v.setPoll .release)
  | executeStuck (sym : Symbol) (v : State) : u.poll = .execute sym → exec sym.toInstr u = .next v →
      u.owner = .neverReturns → u.trace.length < v.trace.length →
      PollMove u (((beforeCallback sym u).setTrace v.trace).setPoll .stuck)
  | release : u.poll = .release → u.ds.lock = .heldByPoll → PollMove u ((u.setLock .free).setPoll .process)

/-- `Move x u t`: `t` is what one atomic step of some agent makes of `u`, when `x` is the next turn. POLL takes one only
while the alarm context does not hold the lock. -/
inductive Move (x : Option Turn) (u : State) : State → Prop where
  | stay : Move x u u
  | poll (t : State) : alarmHoldsLock u = false → PollMove u t → Move x u t
  | pin (d : Direction) : DrivesPin x d → u.irIn ≠ d.toLevel →
      (u.erEnabled = true → ∀ t0, u.lastCapture = some t0 → t0.toNat < u.time.toNat) →
      Move x u ((u.setPin d.toLevel).setEdgeQ
        (if u.erEnabled then (qTryPush 128 u.edgeQ ⟨u.time, d⟩).2 else u.edgeQ))
  | alarmEnds (a : Time) : a ∈ u.alarms → a.toNat ≤ u.time.toNat → u.ds.lock = .free → u.ds.isCancelled = false →
      u.ds.sparedUntil.toNat ≤ u.time.toNat →
      Move x u { u with alarms := u.alarms.erase a, ds := { u.ds with isCancelled := true },
                        trace := u.trace ++ [eot .alarm u] }
  | alarmStuck (a : Time) : a ∈ u.alarms → a.toNat ≤ u.time.toNat → u.ds.lock = .free → u.ds.isCancelled = false →
      u.ds.sparedUntil.toNat ≤ u.time.toNat → u.owner = .neverReturns →
      Move x u { u with alarms := u.alarms.erase a, ds := { u.ds with lock := .heldByAlarm },
                        trace := u.trace ++ [eot .alarm u] }
  | alarmSpent (a : Time) : a ∈ u.alarms → a.toNat ≤ u.time.toNat → Move x u (u.setAlarms (u.alarms.erase a))
  | time (t1 t2 : Time) : x = some (.time t2) → t1.toNat ≤ t2.toNat → u.time.toNat ≤ t1.toNat →
      timeInRange t1 = true →
      (alarmHoldsLock u = false → ∀ t0, u.poll = .calibrate t0 → t1.toNat ≤ calibrationEnd t0 u) → Move x u (u.setTime t1)
  | owner (c : OwnerConduct) : Move x u (u.setOwner c)

/-- Inside a callback that never returns POLL has no step. -/
theorem PollMove.poll_ne_stuck {u t : State} (h : PollMove u t) : u.poll ≠ .stuck := by
  intro hs
  cases h with
  | drainEnd ha | drainDrop _ _ _ ha | drainPair _ _ _ ha => rcases ha with ⟨hp, -⟩ | hp <;> cases hp.symm.trans hs
  | processEnd ha | processHead _ _ _ ha => rcases ha with ⟨hp, -⟩ | hp <;> cases hp.symm.trans hs
  | edgeInit _ hp | calibrating hp | calibrated _ hp | calibrationFailed _ hp | pulseInit hp | decInit hp
  | acquire _ hp | execute _ _ hp | executeStuck _ _ hp | release hp => cases hp.symm.trans hs

theorem drainIteration_move {u : State} (h : AtDrain u) : PollMove u (drainIteration u) := by
  rcases drainIteration_cases u with e | ⟨a, b, rest, hq, ⟨hm, e⟩ | ⟨hm, e⟩⟩ <;> rw [e]
  · exact .drainEnd h
  · exact .drainDrop a b rest h hq hm
  · exact .drainPair a b rest h hq hm

theorem processIteration_move {u : State} (h : AtProcess u) : PollMove u (processIteration u) := by
  rcases processIteration_cases u with e | ⟨a, b, rest, hq, e⟩ <;> rw [e]
  · exact .processEnd h
  · exact .processHead a b rest h hq

theorem executeSymbol_move {sym : Symbol} {u t : State} (hp : u.poll = .execute sym) (h : executeSymbol sym u = .next t) :
    PollMove u t := by
  obtain ⟨v, hv, rfl | ⟨ho, hl, rfl⟩⟩ := executeSymbol_next h
  · exact .execute sym v hp hv
  · exact .executeStuck sym v hp hv ho hl

/-- While the alarm context holds the lock, POLL has no step. -/
theorem pollStep_of_alarmHoldsLock {u : State} (h : alarmHoldsLock u = true) : pollStep u = .next u := if_pos h

/-- POLL's next step that answers with a next state: none, or a step while the alarm context does not hold the lock. -/
theorem pollStep_next {u t : State} (h : pollStep u = .next t) :
    t = u ∨ (alarmHoldsLock u = false ∧ PollMove u t) := by
  cases ha : alarmHoldsLock u with
  | true => rw [pollStep_of_alarmHoldsLock ha] at h; exact .inl (Host.Outcome.next.inj h).symm
  | false =>
    rw [pollStep, ha, if_neg Bool.false_ne_true] at h
    cases hp : u.poll with
    | idle => rw [hp] at h; exact .inl (Host.Outcome.next.inj h).symm
    | calibrate t0 =>
      rw [hp] at h
      rw [← Host.Outcome.next.inj h]
      rcases calibrationStep_cases t0 u with ⟨_, e⟩ | ⟨hw, ⟨hc, e⟩ | ⟨hc, e⟩⟩ <;> rw [e]
      · exact .inl rfl
      · exact .inr ⟨rfl, .calibrated t0 hp hw hc⟩
      · exact .inr ⟨rfl, .calibrationFailed t0 hp hw hc⟩
    | drain => rw [hp] at h; cases h; exact .inr ⟨rfl, drainIteration_move (.inr hp)⟩
    | process => rw [hp] at h; cases h; exact .inr ⟨rfl, processIteration_move (.inr hp)⟩
    | acquire sym =>
      rw [hp] at h; cases h
      rcases acquireForSymbol_cases sym u with ⟨hl, e⟩ | ⟨_, e⟩ <;> rw [e]
      · exact .inr ⟨rfl, .acquire sym hp hl⟩
      · exact .inl rfl
    | execute sym => rw [hp] at h; exact .inr ⟨rfl, executeSymbol_move hp h⟩
    | release =>
      rw [hp] at h
      obtain ⟨hl, rfl⟩ := releaseAfterSymbol_next h
      exact .inr ⟨rfl, .release hp hl⟩
    | stuck => rw [hp] at h; exact .inl (Host.Outcome.next.inj h).symm

/-- An operation of POLL that answers with a next state. -/
theorem pollOperation_move {i : Instr} {u t : State} (hk : takerOf i = .pollOperation) (h : exec i u = .next t) :
    PollMove u t := by
  cases i <;> cases hk
  · rename_i pin mode
    obtain ⟨hp, hi, ⟨l, rfl⟩ | rfl⟩ := execEdgeInit_cases (pin := pin) h
    · exact .edgeInit l hp hi
    · exact .calibrating hp hi
  · obtain ⟨hp, hi, rfl⟩ := execPulseInit_next h
    exact .pulseInit hp hi
  · obtain ⟨hp, hi, hd, rfl⟩ := execDrain_next h
    exact drainIteration_move (.inl ⟨hp, hi, hd⟩)
  · obtain ⟨hp, hi, hd, rfl⟩ := execDecInit_next h
    exact .decInit hp hi hd
  · obtain ⟨hp, hi, rfl⟩ := execProcess_next h
    exact processIteration_move (.inl ⟨hp, hi⟩)

/-- An executed symbol that answers with a next state was executed under POLL's lock. -/
theorem executeSymbol_lock {sym : Symbol} {u t : State} (h : executeSymbol sym u = .next t) :
    u.ds.lock = .heldByPoll := by
  obtain ⟨v, hv, -⟩ := executeSymbol_next h
  exact (symbol_cases hv).1.2

section
variable {x : Option Turn}

theorem pollStep_move {u t : State} (h : pollStep u = .next t) : Move x u t := by
  obtain rfl | ⟨ha, hm⟩ := pollStep_next h
  · exact .stay
  · exact .poll t ha hm

/-- A change of the pin and its capture. -/
theorem pin_move {d : Direction} {u t : State} (hx : DrivesPin x d) (h1 : u.irIn ≠ d.toLevel)
    (h2 : u.erEnabled = true → ∀ t0, u.lastCapture = some t0 → t0.toNat < u.time.toNat)
    (h : execCapture d (u.setPin d.toLevel) = .next t) : Move x u t := by
  rw [execCapture_eq] at h
  cases h
  exact .pin d hx h1 h2

theorem toLevel_toDirection (l : Level) : l.toDirection.toLevel = l := by cases l <;> rfl

end

/-- The taker that captures is `CAPTURE`'s. -/
theorem takerOf_capture {i : Instr} {d : Direction} (h : takerOf i = .capture d) : i = .capture d := by
  cases i <;> cases h; rfl

/-- An advance of `TIME` towards `t2`: one there, or to the end of a calibration before it; or POLL's end of it. -/
theorem takeTime_move {t2 : Time} {s t : State} {rest : List Turn} (h : takeTime t2 (s.setTurns rest) s = .next t) :
    Move (some (.time t2)) (s.setTurns rest) t ∨ Move (some (.time t2)) s t := by
  unfold takeTime at h
  cases he : calibrationEndBefore t2 (s.setTurns rest) with
  | none =>
    rw [he] at h
    obtain ⟨h1, h2, rfl⟩ := advanceTime_next h
    exact .inl (.time t2 t2 rfl (Nat.le_refl _) h1 h2 (fun ha t0 hp => calibrationEndBefore_eq_none he ha hp))
  | some e =>
    rw [he] at h
    dsimp only at h
    obtain ⟨-, t0, hp, hee, hlt⟩ := calibrationEndBefore_eq_some he
    split at h
    · obtain ⟨h1, h2, rfl⟩ := advanceTime_next h
      have hn : (BitVec.ofNat cfg.tsWidth e).toNat = e := by
        rw [BitVec.toNat_ofNat]; exact Nat.mod_eq_of_lt (hlt.trans t2.isLt)
      refine .inr (.time _ t2 rfl (by rw [hn]; exact Nat.le_of_lt hlt) h1 h2 (fun _ t0' hp' => ?_))
      have hp' : (s.setTurns rest).poll = .calibrate t0' := hp'
      rw [hp] at hp'
      cases hp'
      rw [hn, hee]
      exact Nat.le_refl _
    · exact .inr (pollStep_move h)

/-- A step takes a turn off the list or leaves it, and makes one move. -/
theorem step_move {s t : State} (h : step s = .next t) :
    timeInRange s.time = true ∧ ∃ ts, (ts = s.turns ∨ ∃ x, s.turns = x :: ts) ∧
      Move s.turns.head? (s.setTurns ts) t := by
  unfold step at h
  split at h
  case isFalse => cases h
  case isTrue hr =>
  refine ⟨hr, ?_⟩
  have here {y : Option Turn} (hm : Move y s t) : ∃ ts, (ts = s.turns ∨ ∃ x, s.turns = x :: ts) ∧ Move y (s.setTurns ts) t :=
    ⟨s.turns, .inl rfl, hm⟩
  unfold takeTurn at h
  cases ht : s.turns with
  | nil => rw [ht] at h; rw [← ht]; exact here (pollStep_move h)
  | cons y rest =>
    rw [ht] at h
    have there {z : State} (hm : Move (some y) (s.setTurns rest) z) :
        ∃ ts, (ts = y :: rest ∨ ∃ x, y :: rest = x :: ts) ∧ Move (some y) (s.setTurns ts) z :=
      ⟨rest, .inr ⟨y, rfl⟩, hm⟩
    have here' (hm : Move (some y) s t) :
        ∃ ts, (ts = y :: rest ∨ ∃ x, y :: rest = x :: ts) ∧ Move (some y) (s.setTurns ts) t := by
      rw [← ht]; exact here hm
    show ∃ ts, _ ∧ Move (some y) (s.setTurns ts) t
    cases y with
    | op w =>
      dsimp only at h
      cases hd : decode w with
      | error e => rw [hd] at h; cases h
      | ok i =>
        rw [hd] at h
        dsimp only at h
        unfold takeOperation at h
        cases hk : takerOf i with
        | pollOperation =>
          rw [hk] at h
          dsimp only at h
          split at h
          · rename_i hi
            exact there (.poll t (Bool.eq_false_iff.mpr hi.2) (pollOperation_move hk h))
          · exact here' (pollStep_move h)
        | pollSymbol sym =>
          rw [hk] at h
          dsimp only at h
          split at h
          · exact there (.poll t (alarmHoldsLock_of_ne (by rw [executeSymbol_lock h]; decide))
              (executeSymbol_move ‹_› h))
          · cases h
        | capture d =>
          rw [hk] at h
          rcases takeCapture_next h with rfl | ⟨h1, h2, h3⟩
          · exact there .stay
          · exact there (pin_move (.inr ⟨w, rfl, by rw [hd, takerOf_capture hk]⟩) h1 h2 h3)
        | alarm =>
          rw [hk] at h
          cases i <;> cases hk
          obtain ⟨h1, h2, ⟨h3, h4, h5, rfl | ⟨h6, rfl⟩⟩ | ⟨_, rfl⟩⟩ := fireAlarm_cases h
          · exact there (.alarmEnds _ h1 h2 h3 h4 h5)
          · exact there (.alarmStuck _ h1 h2 h3 h4 h5 h6)
          · exact there (.alarmSpent _ h1 h2)
    | poll => exact there (pollStep_move h)
    | finish =>
      dsimp only at h
      split at h
      · cases h; exact there .stay
      · exact here' (pollStep_move h)
    | time t1 =>
      rcases takeTime_move h with hm | hm
      · exact there hm
      · exact here' hm
    | level l =>
      rcases drivePin_next h with ⟨_, rfl⟩ | ⟨h1, h2, h3⟩
      · exact there .stay
      · rw [← toLevel_toDirection l] at h1
        refine there (pin_move (d := l.toDirection) (.inl (by rw [toLevel_toDirection])) h1 h2 ?_)
        rw [toLevel_toDirection]; exact h3
    | owner c => cases h; exact there (.owner c)

end Sys2Proof.Machine
end

