-- ==== Sys2Proof/Tests/Slice0.lean ====
section
/-! SUPPORT. Tests/Slice0.lean: the WellFormed smoke test, the decoding of words written out from the identifier table of
`30_encoding.md` rule R82, the vectors of `95_test_vectors.md` (named in each test), and one witness per hypothesis of the
statements. Every expected result is the spec's. -/

namespace Sys2Proof.Tests

open Sys2Proof.Machine Sys2Proof.Safety

/-! ## Small states -/

/-- The common start of the programs: after the three initialisations, idle level `High`. -/
def ready : State :=
  { State.reset with
    erInit := true, erIdleLevel := .high, erEnabled := true, pdInit := true, decInit := true, irIn := .high }

/-- Section 4's starting point: `Exec` at 1000000 under the lock, guard 900000, one alarm 905000. -/
def executing (cancelled : Bool) (data : DataWord) (n : StepCount) (implicitEnd : Bool) : State :=
  { ready with
    time := 1000000, alarms := [905000],
    ds := { data := data, step := n, implicitEnd := implicitEnd, isCancelled := cancelled, sparedUntil := 900000,
            lock := .heldByPoll } }

/-- Section 5's rows A6 and A7: Building, guard 203040, one alarm 208040, at time `now`. -/
def awaiting (lock : Lock) (now : Time) : State :=
  { ready with
    time := now, alarms := [208040],
    ds := { data := 0xF708FB04, step := 32, implicitEnd := true, isCancelled := false, sparedUntil := 203040,
            lock := lock } }

/-- The edges of rows G5 and G3. -/
def edgesG5 : List Edge := [⟨100, .rising⟩, ⟨1000, .falling⟩, ⟨1560, .rising⟩]

/-- The pulses of the example of rule R121. -/
def twoPulses : List Pulse := [⟨1000, 9000⟩, ⟨14500, 560⟩]

/-- The state an instruction answers with. -/
def after (r : Result) : Option State :=
  match r with
  | .next s => some s
  | .fault _ => none
  | .refused _ => none

/-- The refusal an instruction answers with. -/
def refusal (r : Result) : Option Refusal :=
  match r with
  | .next _ => none
  | .fault _ => none
  | .refused e => some e

/-- The events a step from an empty trace emitted. -/
def events (s : State) : List Observation := s.trace.map (·.what)

/-! ## WellFormed and decoding -/

/-- The one ill-formed operand: idle mode 3, refused by the check, by the decoder and by the meaning. -/
theorem test_wf_refuses_reserved_idle_mode :
    (Instr.edgeInit 0 .reserved).wf = false ∧ decode (encode (.edgeInit 0 .reserved)) = .error .reservedIdleMode ∧
    refusal (exec (.edgeInit 0 .reserved) State.reset) = some .reservedIdleMode := by decide

theorem test_decode_edge_init_low : decode 0b0000 = .ok (.edgeInit 0 .low) := by decide
theorem test_decode_edge_init_high : decode 0b010000 = .ok (.edgeInit 0 .high) := by decide
theorem test_decode_edge_init_auto_pin : decode 0b1111100000000100000 = .ok (.edgeInit 0x7C0 .auto) := by decide
theorem test_decode_capture : decode 0b00001 = .ok (.capture .falling) ∧ decode 0b10001 = .ok (.capture .rising) := by
  decide
theorem test_decode_pulse_init : decode 0b0010 = .ok .pulseInit := by decide
theorem test_decode_drain : decode 0b0011 = .ok .drain := by decide
theorem test_decode_dec_init : decode 0b0100 = .ok .decInit := by decide
theorem test_decode_process : decode 0b0101 = .ok .process := by decide
theorem test_decode_alarm_fire : decode 0x32CA806 = .ok (.alarmFire 208040) := by decide
theorem test_decode_invalid : decode 0b1000 = .ok .invalid := by decide
theorem test_decode_zero : decode 0b1001 = .ok .zero := by decide
theorem test_decode_one : decode 0b1010 = .ok .one := by decide
theorem test_decode_start : decode 0b1011 = .ok .start := by decide
theorem test_decode_repeat : decode 0b1100 = .ok .repeatSym := by decide
theorem test_decode_end : decode 0b1101 = .ok .endSym := by decide
theorem test_decode_reserved_ids :
    decode 0b0111 = .error .reservedId ∧ decode 0b1110 = .error .reservedId ∧ decode 0b1111 = .error .reservedId := by
  decide
theorem test_decode_padding : decode 0b10000101 = .error .nonzeroPadding ∧ decode 0x100 = .ok (.edgeInit 1 .low) := by
  decide
theorem test_decode_bytes :
    decodeBytes [0x11, 0, 0, 0, 0, 0, 0, 0, 0] = .ok (.capture .rising) ∧ decodeBytes [0x11] = .error .wrongLength := by
  decide
theorem test_decode_table_word : decodeTableWord 8 0xB = some .start ∧ decodeTableWord 8 0xF = none := by decide

/-- Rules R71 and R74: an edge is its direction bit above its timestamp, a pulse its start above its duration. -/
theorem test_record_formats :
    Edge.encode ⟨1000, .rising⟩ = 0x100000000000003E8 ∧ Pulse.encode ⟨1, 560⟩ = 0x100000230 := by decide

/-- Rule R78: the payload of K1's event. -/
theorem test_event_payload : Event.payload (.newCommand 0x04 0x08 false) = some 0x00804 := by decide

/-! ## EDGE_INIT and CAPTURE -/

/-- I1. -/
theorem test_edge_init_high :
    (after (exec (.edgeInit 0 .high) State.reset)).map (fun s => (s.erIdleLevel, s.erEnabled, s.erInit, s.time)) =
      some (.high, true, true, 0) := by decide

/-- I3 and I4: `High` since before, idle level `High` at 30000; `Low` until 10000, idle level `High` at 40000. -/
theorem test_edge_init_auto :
    (after (run 3 { State.reset with irIn := .high, turns := [.op 0x20, .time 50000] })).map
      (fun s => (s.erIdleLevel, s.erInit, s.time)) = some (.high, true, 30000) ∧
    (after (run 5 { State.reset with turns := [.op 0x20, .time 10000, .level .high, .time 50000] })).map
      (fun s => (s.erIdleLevel, s.erInit, s.time)) = some (.high, true, 40000) := by decide

/-- I5's end, after a change at 980000: `CalibrationTimeout` at 1000000, and `ER.init` stays false. -/
theorem test_calibration_timeout :
    (after (run 2 { State.reset with
      poll := .calibrate 0, levelSince := some 980000, time := 980000, turns := [.time 1100000] })).map
      (fun s => (s.erInit, s.poll, s.time, events s)) =
      some (false, .idle, 1000000, [.edgeInitFailed .calibrationTimeout]) := by decide

/-- I6. -/
theorem test_edge_init_twice : refusal (exec (.edgeInit 0 .low) ready) = some .initialisedTwice := by decide

/-- E1 and E2. -/
theorem test_capture :
    (after (exec (.capture .falling) { ready with time := 1000 })).map (·.edgeQ) = some [⟨1000, .falling⟩] ∧
    (after (exec (.capture .falling) State.reset)).map (·.edgeQ) = some [] := by decide

/-- E3 and E4. -/
theorem test_capture_overflow :
    ((after (exec (.capture .rising)
      { ready with time := 2000, edgeQ := List.replicate 127 ⟨1, .rising⟩ })).map (·.edgeQ.length)) = some 128 ∧
    ((after (exec (.capture .falling)
      { ready with time := 3000, edgeQ := List.replicate 128 ⟨1, .rising⟩ })).map (·.edgeQ.length)) = some 128 := by
  simp [exec, execCapture, after, ready, qTryPush, qCount, State.setEdgeQ, cfg, Config.default]

/-! ## PULSE_INIT and DRAIN -/

theorem test_pulse_init :
    (after (exec .pulseInit State.reset)).map (fun s => (s.pdInit, s.pulseQ)) = some (true, []) := by decide

/-- G5: the first iteration drops the idle-matching edge, the second pairs the other two, the third returns. -/
theorem test_drain_resync :
    (after (run 3 { ready with edgeQ := edgesG5, turns := [.op 3] })).map (fun s => (s.edgeQ, s.pulseQ, s.poll)) =
      some ([], [⟨1000, 560⟩], .idle) := by decide

/-- G16: the difference `2^32 + 7` is cut to 7. -/
theorem test_drain_truncates :
    (after (exec .drain { ready with edgeQ := [⟨5, .falling⟩, ⟨4294967308, .rising⟩] })).map (·.pulseQ) =
      some [⟨5, 7⟩] := by decide

/-! ## DEC_INIT, PROCESS and the classifier -/

theorem test_dec_init :
    (after (exec .decInit { State.reset with pdInit := true })).map (fun s => (s.decInit, s.ds.isCancelled, s.alarms)) =
      some (true, true, []) := by decide

/-- Rule R121's example, and the lock taken before the symbol is executed (rule R122). -/
theorem test_process :
    (after (exec .process { ready with pulseQ := twoPulses })).map (fun s => (s.pulseQ, s.poll)) =
      some ([⟨14500, 560⟩], .acquire .start) ∧
    (after (run 4 { ready with time := 15060, pulseQ := twoPulses, turns := [.op 5] })).map
      (fun s => (s.ds.isCancelled, s.ds.lock, s.poll)) = some (false, .free, .process) := by decide

/-- V2, V3, V4, V8, V9, V10, V11, V14. -/
theorem test_classify_bits :
    classify 500 500 = .zero ∧ classify 649 649 = .zero ∧ classify 650 560 = .invalid ∧ classify 560 1600 = .one ∧
    classify 560 1749 = .one ∧ classify 560 1599 = .invalid ∧ classify 560 1750 = .endSym ∧
    classify 560 18446744073709551615 = .endSym := by decide

/-- V18, V19, V20, V21, V25, V26, V27, V29. -/
theorem test_classify_headers :
    classify 8000 2000 = .repeatSym ∧ classify 9999 2499 = .repeatSym ∧ classify 10000 2250 = .invalid ∧
    classify 9000 2500 = .invalid ∧ classify 8000 4000 = .start ∧ classify 9999 4999 = .start ∧
    classify 9000 5000 = .invalid ∧ classify 10000 4500 = .invalid := by decide

/-! ## Symbols -/

/-- T1. -/
theorem test_start_from_idle :
    (after (exec .start (executing true 0xB04 12 false))).map (fun s => (s.ds, s.alarms, events s)) =
      some ({ data := 0, step := 0, implicitEnd := false, isCancelled := false, sparedUntil := 900000,
              lock := .heldByPoll }, [905000], []) := by decide

/-- T31. -/
theorem test_start_interrupts :
    (after (exec .start (executing false 0xF708FB04 32 true))).map (fun s => (s.ds, s.alarms, events s)) =
      some ({ data := 0, step := 0, implicitEnd := false, isCancelled := false, sparedUntil := 1120000,
              lock := .heldByPoll }, [905000, 1125000], [.event .endOfTransmission]) := by decide

/-- T14 and T32. -/
theorem test_zero :
    (after (exec .zero (executing false 4 5 false))).map (fun s => (s.ds.data, s.ds.step)) = some (4, 6) ∧
    (after (exec .zero (executing false 0xF708FB04 32 true))).map (fun s => (s.ds.isCancelled, s.ds.step, events s)) =
      some (true, 32, [.event .endOfTransmission]) := by decide

/-- T20: the 32nd bit of a word with a wrong complement. -/
theorem test_zero_rejected_word :
    (after (exec .zero (executing false 0x7708FB04 31 false))).map
      (fun s => (s.ds.step, s.ds.implicitEnd, s.ds.sparedUntil, s.alarms, events s)) =
      some (32, true, 1120000, [905000, 1125000], []) := by decide

/-- T15. -/
theorem test_one :
    (after (exec .one (executing false 4 5 false))).map (fun s => (s.ds.data, s.ds.step)) = some (0x24, 6) := by decide

/-- T21: the 32nd bit of a right word. -/
theorem test_one_completes :
    (after (exec .one (executing false 0x7708FB04 31 false))).map
      (fun s => (s.ds.data, s.ds.step, s.ds.implicitEnd, s.alarms, events s)) =
      some (0xF708FB04, 32, true, [905000, 1125000], [.event (.newCommand 0x04 0x08 false)]) := by decide

/-- T34 and T40. -/
theorem test_end :
    (after (exec .endSym (executing false 0xF708FB04 32 true))).map
      (fun s => (s.ds.step, s.ds.implicitEnd, s.alarms, events s)) = some (33, false, [905000], []) ∧
    (after (exec .endSym (executing false 0xF708FB04 33 false))).map
      (fun s => (s.ds.isCancelled, events s)) = some (true, [.event .endOfTransmission]) := by decide

/-- T41 and T47. -/
theorem test_repeat :
    (after (exec .repeatSym (executing false 0xF708FB04 33 false))).map
      (fun s => (s.ds.step, s.ds.implicitEnd, s.ds.sparedUntil, s.alarms, events s)) =
      some (34, true, 1120000, [905000, 1125000], []) ∧
    (after (exec .repeatSym (executing false 0xF708FB04 34 true))).map
      (fun s => (s.ds.isCancelled, events s)) = some (true, [.event .endOfTransmission]) := by decide

/-- T18 and T6. -/
theorem test_invalid :
    (after (exec .invalid (executing false 4 5 false))).map
      (fun s => (s.ds.isCancelled, s.ds.data, s.ds.step, events s)) = some (true, 4, 5, [.event .endOfTransmission]) ∧
    after (exec .invalid (executing true 0xB04 12 false)) = some (executing true 0xB04 12 false) := by decide

/-- K2, K5, K6, K7. -/
theorem test_complements :
    complementsValid 0x00FFFF00 = true ∧ complementsValid 0xF608FB04 = false ∧ complementsValid 0xF708FA04 = false ∧
    complementsValid 0 = false := by decide

/-! ## ALARM_FIRE -/

/-- A6 and A7. -/
theorem test_alarm_fire :
    (after (exec (.alarmFire 208040) (awaiting .free 208040))).map
      (fun s => (s.alarms, s.ds.isCancelled, s.ds.lock, events s)) =
      some ([], true, .free, [.event .endOfTransmission]) ∧
    (after (exec (.alarmFire 208040) (awaiting .heldByPoll 208040))).map
      (fun s => (s.alarms, s.ds.isCancelled, events s)) = some ([], false, []) := by decide

/-- A11. -/
theorem test_alarm_fire_early : refusal (exec (.alarmFire 208040) (awaiting .free 208039)) = some .alarmNotDue := by
  decide

/-- A2, A3 and A4. -/
theorem test_end_check :
    endCheck .alarm false (awaiting .free 203039) = awaiting .free 203039 ∧
    (endCheck .alarm false (awaiting .free 203040)).ds.isCancelled = true ∧
    events (endCheck .poll true (awaiting .heldByPoll 100)) = [.event .endOfTransmission] := by decide

/-! ## A fetched word is the next thing that happens -/

theorem test_fetch_first_after_reset :
    (after (step (State.reset.withFetchWord 8 0x10))).map (fun s => (s.erInit, s.erIdleLevel, s.turns)) =
      some (true, .high, []) ∧
    (after (step (State.reset.withFetchWord 8 2))).map (fun s => (s.pdInit, s.turns)) = some (true, []) ∧
    refusal (step (State.reset.withFetchWord 8 3)) = some .notInitialised ∧
    refusal (step (State.reset.withFetchWord 8 7)) = some (.undefinedWord .reservedId) := by decide

theorem test_fetch_symbol :
    (after (step (ready.withFetchWord 8 0xB))).map (fun s => (s.ds.isCancelled, s.ds.lock, s.poll)) =
      some (false, .heldByPoll, .release) := by decide

/-- A listing of rule R86: `CAPTURE` lines become turns that ENV and CAP take. -/
theorem test_listing :
    (after (run 4 { ready with turns := listingTurns (pulseLines .high 560 1000) })).map
      (fun s => (s.time, s.edgeQ, s.irIn)) = some (1560, [⟨1000, .falling⟩, ⟨1560, .rising⟩], .high) := by decide

/-! ## Witnesses: the hypotheses of each statement are met together -/

/-- PowerOnIsUninitialised, PowerOnMeetsInvariant: the largest `TIME` in range, and the first outside it. -/
theorem witness_power_on :
    timeInRange 0 = true ∧ timeInRange (BitVec.ofNat 64 (2 ^ 64 - (2 ^ 32 + 125000) - 1)) = true ∧
    timeInRange (BitVec.ofNat 64 (2 ^ 64 - (2 ^ 32 + 125000))) = false := by decide

/-- EdgeInitExplicitCompletes, EdgeInitAutoBegins, UseBeforeInitIsRefused. -/
theorem witness_uninitialised :
    State.reset.poll = .idle ∧ State.reset.erInit = false ∧ State.reset.pdInit = false ∧ State.reset.decInit = false ∧
    State.reset.erEnabled = false := by decide

/-- CalibrationEndsAsStated: before the end, with no turn and on the way to a later `TIME`; at the end, after the latest
change that still succeeds and after the earliest that fails; no change at all. -/
theorem witness_calibration :
    (let s := { State.reset with poll := .calibrate 0, levelSince := some 970000, time := 999999 }
     timeInRange s.time = true ∧ timeInRange 1000000 = true ∧ s.poll = .calibrate 0 ∧ s.decInit = false ∧ s.turns = [] ∧
     s.levelSince = some 970000 ∧ 970000 = max (0 : Time).toNat (970000 : Time).toNat ∧
     (1000000 : Time).toNat = min (970000 + 30000) ((0 : Time).toNat + 1000000) ∧
     s.time.toNat < (1000000 : Time).toNat) ∧
    (1000000 : Time).toNat < (1000001 : Time).toNat ∧
    970000 + 30000 ≤ (0 : Time).toNat + 1000000 ∧
    970001 = max (0 : Time).toNat (970001 : Time).toNat ∧
    (1000000 : Time).toNat = min (970001 + 30000) ((0 : Time).toNat + 1000000) ∧
    (0 : Time).toNat + 1000000 < 970001 + 30000 ∧
    (let s := { State.reset with poll := .calibrate 0, time := 30000 }
     s.levelSince = none ∧ 0 = (0 : Time).toNat ∧ s.time = 30000 ∧
     (30000 : Time).toNat = min (0 + 30000) ((0 : Time).toNat + 1000000)) := by decide

/-- QueueAndDecoderInitComplete. -/
theorem witness_queue_and_decoder_init :
    (State.reset.poll = .idle ∧ State.reset.pdInit = false) ∧
    (let s := { State.reset with pdInit := true }
     s.poll = .idle ∧ s.decInit = false ∧ s.pdInit = true) := by decide

/-- SecondInitAndOverlapAreRefused. -/
theorem witness_second_init :
    (ready.poll = .idle ∧ ready.erInit = true ∧ ready.pdInit = true ∧ ready.decInit = true) ∧
    ({ ready with poll := .drain } : State).poll ≠ .idle := by decide

/-- CaptureCompletes: 127 entries, 128 entries, not enabled. -/
theorem witness_capture :
    ready.erEnabled = true ∧ (List.replicate 127 (⟨1, .rising⟩ : Edge)).length < 128 ∧
    128 ≤ (List.replicate 128 (⟨1, .rising⟩ : Edge)).length ∧ State.reset.erEnabled = false :=
  ⟨rfl, by simp, by simp, rfl⟩

/-- PinChangeIsCapturedOnce: no change; a first change; a change one microsecond after the last. -/
theorem witness_pin_change :
    (let s := { ready with turns := [.level .high] }
     timeInRange s.time = true ∧ s.turns = .level .high :: [] ∧ s.irIn = .high) ∧
    (let s := { ready with turns := [.level .low], lastCapture := some 6, time := 7 }
     timeInRange s.time = true ∧ s.turns = .level .low :: [] ∧ s.irIn ≠ .low ∧
     s.lastCapture = some 6 ∧ (6 : Time).toNat < s.time.toNat) := by decide

/-- EnvironmentDuties: `TIME` one back, just out of range, unchanged; two edges at one `TIME`; no change of the pin. -/
theorem witness_environment :
    ((5 : Time).toNat < ({ ready with time := 6 } : State).time.toNat ∧ ({ ready with time := 6 } : State).poll = .idle) ∧
    2 ^ 64 - (2 ^ 32 + 125000) ≤ (BitVec.ofNat 64 (2 ^ 64 - (2 ^ 32 + 125000)) : Time).toNat ∧
    (ready.time.toNat ≤ (0 : Time).toNat ∧ (0 : Time).toNat < 2 ^ 64 - (2 ^ 32 + 125000)) ∧
    (let s := { ready with turns := [.level .low], lastCapture := some 7, time := 7 }
     s.irIn ≠ .low ∧ s.erEnabled = true ∧ s.lastCapture = some 7 ∧ s.time.toNat ≤ (7 : Time).toNat) ∧
    (let s := { ready with turns := [.op (encode (.capture .rising))] }
     s.irIn = Direction.rising.toLevel ∧ s.erEnabled = true) := by decide

theorem witness_environment_not_calibrating : ∀ t0, ready.poll ≠ .calibrate t0 := fun _ h => by cases h

/-- DrainIterationCompletes, DrainRunsToItsEnd, CaptureCommutesWithDrain: one edge; a full pulse queue; a first edge that
matches the idle level with 31 pulses queued; one that does not. -/
theorem witness_drain :
    (ready.poll = .idle ∧ ready.erInit = true ∧ ready.pdInit = true ∧ timeInRange ready.time = true ∧
     ready.turns = [] ∧ ready.ds.lock ≠ .heldByAlarm ∧ ready.pulseQ.length ≤ 32) ∧
    ({ ready with edgeQ := [⟨1, .falling⟩] } : State).edgeQ.length < 2 ∧
    ({ ready with pulseQ := List.replicate 32 ⟨1, 1⟩ } : State).pulseQ.length = 32 ∧
    (let s := { ready with edgeQ := edgesG5, pulseQ := List.replicate 31 ⟨1, 1⟩ }
     s.edgeQ = ⟨100, .rising⟩ :: ⟨1000, .falling⟩ :: [⟨1560, .rising⟩] ∧ s.pulseQ.length < 32 ∧
     Direction.rising.toLevel = s.erIdleLevel ∧ Direction.falling.toLevel ≠ s.erIdleLevel ∧
     s.erEnabled = true ∧ 2 ≤ s.edgeQ.length ∧ s.edgeQ.length < 128 ∧
     (after (exec .drain s)).isSome = true ∧ (after (exec (.capture .falling) s)).isSome = true) := by decide

/-- PulsesAreActiveIntervals. -/
theorem witness_alternating : edgesG5.IsChain (fun a b => a.direction ≠ b.direction) := by
  simp [edgesG5]

/-- LegalWindowsDecideTheSymbol. -/
theorem witness_legal_config : Config.default.Legal := by decide

/-- SpaceNeverWraps, and the statements about every step from a state that meets the invariant. -/
theorem witness_invariant :
    Inv { ready with pulseQ := twoPulses, time := 20000, lastCapture := some 20000 } where
  timeInRange := by decide
  queuesBounded := ⟨by decide, by decide⟩
  alarmsSorted := List.Pairwise.nil
  initConsistent := ⟨rfl, fun h => (by cases h), fun h => (by cases h), fun h => (by cases h)⟩
  phaseLegal := trivial
  lockMatchesPhase := fun _ => by decide
  endFlagMatchesStep := fun _ h => by cases h
  unreceivedBitsClear := fun _ _ h => by cases h
  queuesInTime := by
    refine ⟨List.Pairwise.nil, ?_, fun _ _ _ h => (by cases h), fun _ h => (by cases h), ?_, fun _ h => (by cases h), ?_⟩
    · exact List.pairwise_cons.mpr ⟨fun p hp => by simp only [List.mem_singleton] at hp; subst hp; decide,
        List.pairwise_singleton _ _⟩
    · intro t ht; cases ht; decide
    · intro p hp
      refine ⟨20000, rfl, ?_⟩
      simp only [twoPulses, List.mem_cons, List.not_mem_nil, or_false] at hp
      rcases hp with rfl | rfl <;> decide

/-- StepKeepsInvariant, EventsOfOneStep, AlarmsChangeOnlyByArmOrFiring, TimeNeverDecreases, ConfigurationIsImmutable,
QueuesAreFifos: such a state has a next state, by a turn of each kind. -/
theorem witness_step :
    (after (step { ready with pulseQ := twoPulses, time := 20000, lastCapture := some 20000, turns := [.op 5] })).isSome =
      true ∧
    (after (step { awaiting .free 208040 with turns := [.op (encode (.alarmFire 208040))] })).isSome = true ∧
    (after (step { ready with turns := [.time 1] })).isSome = true := by decide

/-- MacrosClassifyAsNamed: the largest start. -/
theorem witness_macros : (BitVec.ofNat 64 (2 ^ 64 - 13501) : Time).toNat + 13500 < 2 ^ 64 := by decide

/-- ProcessHeadCompletes, ProcessRunsToItsEnd. -/
theorem witness_process :
    (ready.poll = .idle ∧ ready.owner = .returns ∧ ready.decInit = true ∧ ready.ds.lock = .free ∧ ready.turns = [] ∧
     timeInRange ready.time = true) ∧
    ({ ready with pulseQ := [⟨1, 1⟩] } : State).pulseQ.length < 2 ∧
    ({ ready with pulseQ := twoPulses } : State).pulseQ = ⟨1000, 9000⟩ :: ⟨14500, 560⟩ :: [] := by decide

/-- SymbolTakesThreeLockedSteps: each of its clauses. -/
theorem witness_locked_steps :
    (let s := { ready with poll := .acquire .start }
     timeInRange s.time = true ∧ s.turns = [] ∧ s.poll = .acquire .start ∧ s.ds.lock = .free) ∧
    (let s := { executing true 0 0 false with poll := .acquire .start }
     timeInRange s.time = true ∧ s.turns = [] ∧ s.poll = .acquire .start ∧ s.ds.lock ≠ .free) ∧
    (let s := { executing true 0 0 false with poll := .execute .start }
     s.poll = .execute .start ∧ s.owner = .returns ∧ (after (exec .start s)).isSome = true) ∧
    (let s := { executing true 0 0 false with poll := .release }
     s.poll = .release ∧ s.ds.lock = .heldByPoll) ∧
    (let s := { ready with poll := .release, ds := { ready.ds with lock := .heldByAlarm } }
     s.turns = [] ∧ s.decInit = true ∧ s.ds.lock = .heldByAlarm) ∧
    (let s := { ready with poll := .release }
     s.poll = .release ∧ s.ds.lock ≠ .heldByPoll) := by decide

/-- StartCompletes, IdleIgnoresAllButStart, FrameDeliversItsWord: Idle and Building under the lock. -/
theorem witness_start :
    MayExecute (executing true 0xB04 12 false) ∧ (executing true 0xB04 12 false).ds.isCancelled = true ∧
    MayExecute (executing false 4 5 false) ∧ (executing false 4 5 false).ds.isCancelled = false ∧
    Symbol.zero ≠ .start := ⟨⟨rfl, rfl⟩, rfl, ⟨rfl, rfl⟩, rfl, by decide⟩

/-- DataBitsFollowTheirRule at steps 30, 31 and 32, LastBitCompletesWord at step 31. -/
theorem witness_bits :
    MayExecute (executing false 0 30 false) ∧ (executing false 0 30 false).ds.step.toNat < 31 ∧
    MayExecute (executing false 0x7708FB04 31 false) ∧ (executing false 0x7708FB04 31 false).ds.step = 31 ∧
    31 < (executing false 0 32 true).ds.step.toNat ∧
    (0xF708FB04 : DataWord) = (0x7708FB04 : DataWord) ||| (1#32 <<< 31) :=
  ⟨⟨rfl, rfl⟩, by decide, ⟨rfl, rfl⟩, by decide, by decide, by decide⟩

/-- EndFollowsItsRule, RepeatCompletes: the first steps they are due, and the last odd step below the largest. -/
theorem witness_end_and_repeat :
    MayExecute (executing false 0 32 true) ∧ (executing false 0 32 true).ds.step.toNat + 1 < 2 ^ 32 ∧
    (executing false 0 32 true).ds.implicitEnd = true ∧
    32 < (executing false 0 33 false).ds.step.toNat ∧ (executing false 0 33 false).ds.step.toNat % 2 = 1 ∧
    (executing false 0 0xFFFFFFFD false).ds.step.toNat + 1 < 2 ^ 32 :=
  ⟨⟨rfl, rfl⟩, by decide, rfl, by decide, by decide, by decide⟩

/-- RejectedSymbolsAbort: each of its clauses. -/
theorem witness_rejected :
    MayExecute (executing false 0 32 true) ∧ 31 < (executing false 0 32 true).ds.step.toNat ∧
    (executing false 0 32 true).ds.step.toNat ≤ 32 ∧ (executing false 0 33 false).ds.implicitEnd = false ∧
    (executing false 0 34 true).ds.step.toNat % 2 = 0 := ⟨⟨rfl, rfl⟩, by decide, by decide, rfl, by decide⟩

/-- SymbolsNeedDecoderAndLock. -/
theorem witness_no_lock :
    State.reset.decInit = false ∧ ready.decInit = true ∧ ready.ds.lock ≠ .heldByPoll := by decide

/-- StepAdvancesByRule, SymbolsFrame: a symbol that answers with a next state. -/
theorem witness_symbol_runs : (after (exec Symbol.one.toInstr (executing false 4 5 false))).isSome = true := by decide

/-- LargestStepIsRefused. -/
theorem witness_largest_step :
    MayExecute (executing false 0 0xFFFFFFFF true) ∧ (executing false 0 0xFFFFFFFF true).ds.step = 0xFFFFFFFF ∧
    (executing false 0 0xFFFFFFFF true).ds.implicitEnd = true := ⟨⟨rfl, rfl⟩, rfl, rfl⟩

/-- SymbolsFollowTransitionTable. -/
theorem witness_table :
    MayExecute (executing false 0 32 true) ∧ EndFlagMatchesStep (executing false 0 32 true) ∧
    (executing false 0 32 true).ds.step.toNat + 1 < 2 ^ 32 := ⟨⟨rfl, rfl⟩, fun _ _ => by decide, by decide⟩

/-- HeldButtonKeepsMessageOpen at the largest number of repeats. -/
theorem witness_held_button :
    MayExecute (executing false 0xF708FB04 32 true) ∧ (executing false 0xF708FB04 32 true).ds.step = 32 ∧
    34 + 2 * (2 ^ 31 - 18) < 2 ^ 32 := ⟨⟨rfl, rfl⟩, rfl, by decide⟩

/-- AlarmFireCompletes, ContentionSpendsTheAlarm, LateAlarmSilencesMessage: at the guard, before it, under the lock. -/
theorem witness_alarm :
    (let s := { awaiting .free 203040 with alarms := [203040] }
     (203040 : Time) ∈ s.alarms ∧ (203040 : Time).toNat ≤ s.time.toNat ∧ s.ds.lock = .free ∧
     s.ds.isCancelled = false ∧ s.ds.sparedUntil.toNat ≤ s.time.toNat ∧ s.decInit = true ∧ Symbol.start ∉ [Symbol.zero]) ∧
    (let s := { awaiting .free 203039 with alarms := [203039] }
     (203039 : Time) ∈ s.alarms ∧ (203039 : Time).toNat ≤ s.time.toNat ∧ s.time.toNat < s.ds.sparedUntil.toNat) ∧
    (awaiting .heldByPoll 208040).ds.lock ≠ .free := by decide

/-- AlarmNeverFiresEarly: not pending, and one microsecond early. -/
theorem witness_early :
    (1 : Time) ∉ (awaiting .free 208039).alarms ∧ (208040 : Time) ∈ (awaiting .free 208039).alarms ∧
    (awaiting .free 208039).time.toNat < (208040 : Time).toNat := by decide

/-- SupersededAlarmIsHarmless: rows A8 and A9. -/
theorem witness_superseded :
    (let s := { awaiting .free 225000 with
       alarms := [225000, 230001], ds := { (awaiting .free 0).ds with sparedUntil := 225001 } }
     (100000 : Time).toNat ≤ (105001 : Time).toNat ∧ timeInRange 105001 = true ∧
     s.ds.sparedUntil = (105001 : Time) + 120000 ∧ (100000 : Time) + 125000 ∈ s.alarms ∧
     (100000 : Time).toNat + 125000 ≤ s.time.toNat ∧ s.ds.lock = .free ∧
     s.time.toNat < (105001 : Time).toNat + 120000 ∧ s.time = (100000 : Time) + 125000 ∧
     5000 < (105001 : Time).toNat - (100000 : Time).toNat) ∧
    (let s := { awaiting .free 225000 with
       alarms := [225000, 230000], ds := { (awaiting .free 0).ds with sparedUntil := 225000 } }
     s.ds.sparedUntil = (105000 : Time) + 120000 ∧ s.time = (100000 : Time) + 125000 ∧
     (105000 : Time).toNat - (100000 : Time).toNat ≤ 5000 ∧ s.ds.isCancelled = false) := by decide

/-- TimeoutEndsTheMessage. -/
theorem witness_timeout :
    (let s := { awaiting .free 83040 with
       turns := [.time 208040, .op (encode (.alarmFire 208040))] }
     s.decInit = true ∧ s.ds.isCancelled = false ∧ s.owner = .returns ∧ s.ds.lock = .free ∧ s.poll = .idle ∧
     timeInRange s.time = true ∧ timeInRange 208040 = true ∧ (208040 : Time).toNat = (83040 : Time).toNat + 125000 ∧
     s.time.toNat ≤ (208040 : Time).toNat ∧ s.alarms = [208040] ∧ s.ds.sparedUntil = (83040 : Time) + 120000) := by
  decide

/-- GuardKeepsMessageOpen: a REPEAT due at step 33, executed at 100000 under the guard 203040, in a run of one step. -/
theorem witness_guard :
    let s := { awaiting .heldByPoll 100000 with
      poll := .execute .repeatSym,
      ds := { data := 0xF708FB04, step := 33, implicitEnd := false, isCancelled := false, sparedUntil := 203040,
              lock := .heldByPoll } }
    MessageOpen s ∧ (after (run 1 s)).isSome = true ∧
    ∀ k u, k < 1 → run k s = .next u →
      u.time.toNat < u.ds.sparedUntil.toNat ∧ ∀ sym, u.poll = .execute sym → Accepted u.ds sym := by
  refine ⟨⟨rfl, rfl⟩, by decide, fun k u hk hu => ?_⟩
  cases Nat.lt_one_iff.mp hk
  cases hu
  refine ⟨by decide, fun sym hs => ?_⟩
  cases hs
  exact ⟨by decide, by decide⟩

/-- HandlersFrame, CaptureAndAlarmCommute: both handlers run in one state. -/
theorem witness_handlers :
    (after (exec (.alarmFire 208040) (awaiting .free 208040))).isSome = true ∧
    (after (exec (.capture .falling) (awaiting .free 208040))).isSome = true := by decide

/-- QuiescentStatesRest: with no turn; and with an advance of `TIME` and a `DRAIN` still to come, in a state that meets
the invariant. -/
theorem witness_quiescent :
    (timeInRange ready.time = true ∧ Quiescent ready ∧ ready.turns = [] ∧ ready.poll = .idle) ∧
    Quiescent { ready with turns := [.time 7, .op (encode .drain)] } ∧
    (after (step { ready with turns := [.time 7, .op (encode .drain)] })).isSome = true := by
  refine ⟨⟨by decide, ⟨.inl (by decide), by decide, fun _ h => (by cases h), rfl, rfl, fun _ h => (by cases h)⟩, rfl, rfl⟩,
    ⟨.inl (by decide), by decide, fun _ h => (by cases h), rfl, rfl, fun x hx => ?_⟩, by decide⟩
  simp only [List.mem_cons, List.not_mem_nil, or_false] at hx
  rcases hx with rfl | rfl
  · exact ⟨fun _ h => (by cases h), fun _ _ h => (by cases h)⟩
  · exact ⟨fun _ h => (by cases h), fun _ _ h hd => by
      cases h
      rw [show decode (encode .drain) = .ok .drain by decide] at hd
      cases hd⟩

/-! ## Callbacks (rule R183, U12) -/

/-- The 32nd bit with an owner that never returns: the bit is in `data`, the event is out, POLL is stuck under the lock and
`step` has not advanced. -/
theorem test_stuck_at_last_bit :
    (after (run 1 { executing false 0x7708FB04 31 false with poll := .execute .one, owner := .neverReturns })).map
      (fun s => (s.ds.data, s.ds.step, s.ds.lock, s.poll, events s)) =
      some (0xF708FB04, 31, .heldByPoll, .stuck, [.event (.newCommand 0x04 0x08 false)]) := by decide

/-- An alarm with an owner that never returns, and one whose owner re-enters the block. -/
theorem test_stuck_alarm :
    (after (step { awaiting .free 208040 with
      turns := [.op (encode (.alarmFire 208040))], owner := .neverReturns })).map
      (fun s => (s.alarms, s.ds.lock, s.ds.isCancelled, events s)) =
      some ([], .heldByAlarm, false, [.event .endOfTransmission]) ∧
    refusal (step { awaiting .free 208040 with
      turns := [.op (encode (.alarmFire 208040))], owner := .reenters }) = some .callbackReenters := by decide

/-- While ALARM is stuck POLL has no step: a `DRAIN` asked for waits, and a `PROCESS` begun pops no pulse. -/
theorem test_poll_waits_for_alarm :
    (let s := { ready with
       ds := { ready.ds with lock := .heldByAlarm }, edgeQ := edgesG5, turns := [.op (encode .drain)] }
     after (step s) = some s) ∧
    (let s := { ready with ds := { ready.ds with lock := .heldByAlarm }, poll := .process, pulseQ := [⟨1, 1⟩, ⟨5, 1⟩] }
     after (step s) = some s) := by decide

/-- CallbackRunsUnderTheLock: a symbol and an alarm whose step adds one event. -/
theorem witness_callback :
    (let s := { executing false 0x7708FB04 31 false with poll := .execute .one }
     timeInRange s.time = true ∧ s.turns = [] ∧ s.poll = .execute .one ∧
     (after (exec Symbol.one.toInstr s)).map (·.trace) =
       some (s.trace ++ [⟨s.time, .poll, .event (.newCommand 0x04 0x08 false)⟩])) ∧
    (let s := { awaiting .free 208040 with turns := [.op (encode (.alarmFire 208040))] }
     timeInRange s.time = true ∧
     (after (exec (.alarmFire 208040) s)).map (·.trace) =
       some (s.trace ++ [⟨s.time, .alarm, .event .endOfTransmission⟩])) := by decide

/-- StuckCallbackKeepsTheLock: a stuck POLL with no turn and a stuck ALARM with a `DRAIN` requested, each in a state that
meets the invariant and has a next state. -/
theorem witness_stuck :
    (let s := { ready with poll := .stuck, ds := { ready.ds with lock := .heldByPoll } }
     Inv s ∧ s.decInit = true ∧ s.poll = .stuck ∧ (after (step s)).isSome = true) ∧
    (let s := { ready with ds := { ready.ds with lock := .heldByAlarm }, turns := [.op (encode .drain)] }
     Inv s ∧ s.decInit = true ∧ s.ds.lock = .heldByAlarm ∧ (after (step s)).isSome = true) := by
  have noQueues (s : State) (h1 : s.edgeQ = []) (h2 : s.pulseQ = []) (h3 : s.levelSince = none)
      (h4 : s.lastCapture = none) : QueuesInTime s := by
    unfold QueuesInTime
    rw [h1, h2, h3, h4]
    exact ⟨List.Pairwise.nil, List.Pairwise.nil, fun _ h => (by cases h), fun _ h => (by cases h),
      fun _ h => (by cases h), fun _ h => (by cases h), fun _ h => (by cases h)⟩
  refine ⟨⟨⟨by decide, ⟨by decide, by decide⟩, List.Pairwise.nil, ?_, rfl, fun _ => by decide, fun _ h => (by cases h),
    fun _ _ h => (by cases h), noQueues _ rfl rfl rfl rfl⟩, rfl, rfl, by decide⟩,
    ⟨⟨by decide, ⟨by decide, by decide⟩, List.Pairwise.nil, ?_, trivial, fun _ => by decide, fun _ h => (by cases h),
    fun _ _ h => (by cases h), noQueues _ rfl rfl rfl rfl⟩, rfl, rfl, by decide⟩⟩ <;>
  exact ⟨rfl, fun h => (by cases h), fun h => (by cases h), fun h => (by cases h)⟩

/-- StepRunsRequestedOperation: each of its clauses. -/
theorem witness_requested :
    (let s := { ready with turns := [.op (encode .drain)] }
     timeInRange s.time = true ∧ Instr.drain.wf = true ∧ takerOf .drain = .pollOperation ∧ s.poll = .idle ∧
     s.decInit = true ∧ s.ds.lock ≠ .heldByAlarm) ∧
    (let s := { ready with turns := [.op (encode .drain)], ds := { ready.ds with lock := .heldByAlarm } }
     s.decInit = true ∧ s.ds.lock = .heldByAlarm) ∧
    ({ ready with turns := [.op (encode .drain)], poll := .process } : State).poll ≠ .idle ∧
    takerOf (.alarmFire 208040) = .alarm ∧ ready.owner = .returns ∧
    (let s := { ready with turns := [.op (encode (.capture .falling))], lastCapture := some 0, time := 1 }
     s.irIn ≠ Direction.falling.toLevel ∧ s.erEnabled = true ∧ s.lastCapture = some 0 ∧
     (0 : Time).toNat < s.time.toNat) ∧
    (let s := { executing false 4 5 false with turns := [.op (encode .one)], poll := .execute .one }
     s.poll = .execute .one ∧ Instr.one = Symbol.one.toInstr) := by decide

/-- AbsorbedConditions: a full edge queue. -/
theorem witness_overflow :
    conditionOf (.capture .rising) { ready with edgeQ := List.replicate 128 ⟨1, .rising⟩ } = some .queueOverflow := by
  simp [conditionOf, ready, qCount, cfg, Config.default]

/-- AbsorbedConditions: a rejected symbol, a rejected word. -/
theorem witness_absorbed :
    conditionOf Symbol.endSym.toInstr (executing false 4 5 false) = some .protocolViolation ∧
    conditionOf Symbol.zero.toInstr (executing false 0x7708FB04 31 false) = some .protocolViolation ∧
    (after (exec Symbol.zero.toInstr (executing false 0x7708FB04 31 false))).isSome = true := by decide

/-- EncodingRoundTrips: a well-formed instruction, and a word that decodes. -/
theorem witness_encoding :
    (Instr.edgeInit 7 .auto).wf = true ∧ decode 0x720 = .ok (.edgeInit 7 .auto) := by decide

end Sys2Proof.Tests
end

section
/-! Requested operations: an operation word decodes to its instruction (`30_encoding.md` rule R82), and a step whose next
turn is that word runs the operation, class by class of its taker (`00_scope.md` rules R7 and R9). -/

namespace Sys2Proof

/-! ## The fields of an operation word -/

theorem encode_id (i : Instr) : (encode i).extractLsb' 0 4 = i.id := Laws.EncodeId.low_field _ _ _

theorem encode_nibble (i : Instr) : (encode i).extractLsb' 4 4 = i.nibble := by
  apply BitVec.eq_of_getLsbD_eq
  intro k hk
  have hid : ¬ 4 + k < 4 := by omega
  have hpos : 4 + k - 4 = k := by omega
  simp only [encode, BitVec.getLsbD_extractLsb', BitVec.getLsbD_append, hk, hid, hpos, decide_true, Bool.true_and,
    if_true, if_false]

theorem encode_payload (i : Instr) : (encode i).extractLsb' 8 64 = i.payload := by
  apply BitVec.eq_of_getLsbD_eq
  intro k hk
  have hid : ¬ 8 + k < 4 := by omega
  have hnibble : ¬ 8 + k - 4 < 4 := by omega
  have hpos : 8 + k - 4 - 4 = k := by omega
  simp only [encode, BitVec.getLsbD_extractLsb', BitVec.getLsbD_append, hk, hid, hnibble, hpos, decide_true,
    Bool.true_and, if_false]

/-! ## Decoding what was encoded -/

/-- The one operand with a rejected value is the idle mode: its code 3 is reserved (rule R73). -/
theorem decodeEdgeInit_nibble {mode : IdleMode} (pin : Pin) (hwf : mode.wf = true) :
    decodeEdgeInit (Instr.edgeInit pin mode).nibble pin = .ok (.edgeInit pin mode) := by
  have hpadding : ((0 : BitVec 2) ++ mode.code).extractLsb' 2 2 = 0 := by cases mode <;> decide
  have hmode : IdleMode.ofCode (((0 : BitVec 2) ++ mode.code).extractLsb' 0 2) = mode := by cases mode <;> decide
  rw [decodeEdgeInit, Instr.nibble, if_pos hpadding, hmode]
  cases mode with
  | reserved => cases hwf
  | low | high | auto => rfl

theorem decode_encode {i : Instr} (hwf : i.wf = true) : decode (encode i) = .ok i := by
  simp only [decode, encode_id, encode_nibble, encode_payload]
  cases i with
  | edgeInit pin mode => exact decodeEdgeInit_nibble pin hwf
  | capture d => cases d <;> rfl
  | _ => rfl

end Sys2Proof

namespace Sys2Proof.Machine

/-! ## The takers -/

theorem takerOf_toInstr (sym : Symbol) : takerOf sym.toInstr = .pollSymbol sym := by cases sym <;> rfl

theorem toDirection_toLevel (d : Direction) : d.toLevel.toDirection = d := by cases d <;> rfl

/-! ## The atomic steps, while the owner's callbacks return -/

theorem executeSymbol_of_next {sym : Symbol} {s t : State} (ho : s.owner = .returns)
    (hx : exec sym.toInstr s = .next t) : executeSymbol sym s = .next (t.setPoll .release) := by
  rw [executeSymbol, hx]
  exact callBack_returns _ _ ho

theorem executeSymbol_of_refused {sym : Symbol} {s : State} {r : Refusal}
    (hx : exec sym.toInstr s = .refused r) : executeSymbol sym s = .refused r := by rw [executeSymbol, hx]

theorem fireAlarm_returns (i : Instr) {s : State} (ho : s.owner = .returns) : fireAlarm i s = exec i s := by
  unfold fireAlarm
  cases exec i s with
  | next t => exact callBack_returns _ _ ho
  | fault r => rfl
  | refused r => rfl

/-- A change of the pin later than the last captured one is captured (rules R93 and R95). -/
theorem changePin_of_legal {l : Level} {s : State}
    (hlegal : s.erEnabled = true → ∀ t, s.lastCapture = some t → t.toNat < s.time.toNat) :
    changePin l s = exec (.capture l.toDirection) (s.setPin l) := by
  unfold changePin
  cases hc : s.lastCapture with
  | none => rfl
  | some t => exact if_neg (fun ⟨he, hle⟩ => absurd hle (Nat.not_le.mpr (hlegal he t hc)))

theorem takeCapture_of_legal {d : Direction} {s : State} (hne : s.irIn ≠ d.toLevel)
    (hlegal : s.erEnabled = true → ∀ t, s.lastCapture = some t → t.toNat < s.time.toNat) :
    takeCapture d s = exec (.capture d) (s.setPin d.toLevel) := by
  rw [takeCapture, if_neg hne, changePin_of_legal hlegal, toDirection_toLevel]

/-! ## The operation of a word, by its taker -/

section
variable {i : Instr} {s waiting : State}

theorem takeOperation_pollOperation_free (hk : takerOf i = .pollOperation) (hp : s.poll = .idle)
    (ha : alarmHoldsLock s = false) : takeOperation i s waiting = exec i s := by
  rw [takeOperation, hk]
  exact if_pos ⟨hp, by rw [ha]; exact Bool.false_ne_true⟩

theorem takeOperation_pollOperation_waits (hk : takerOf i = .pollOperation)
    (hw : s.poll ≠ .idle ∨ alarmHoldsLock s = true) : takeOperation i s waiting = pollStep waiting := by
  rw [takeOperation, hk]
  exact if_neg (fun ⟨hp, ha⟩ => hw.elim (· hp) ha)

theorem takeOperation_alarm (hk : takerOf i = .alarm) : takeOperation i s waiting = fireAlarm i s := by
  rw [takeOperation, hk]

theorem takeOperation_capture (d : Direction) : takeOperation (.capture d) s waiting = takeCapture d s := rfl

theorem takeOperation_symbol {sym : Symbol} (hp : s.poll = .execute sym) :
    takeOperation sym.toInstr s waiting = executeSymbol sym s := by
  rw [takeOperation, takerOf_toInstr]
  exact if_pos hp

end

/-- A step whose next turn is a well-formed instruction's word takes that instruction. -/
theorem step_request {s : State} {i : Instr} {rest : List Turn} (hr : timeInRange s.time = true) (hwf : i.wf = true)
    (ht : s.turns = .op (encode i) :: rest) : step s = takeOperation i (s.setTurns rest) s := by
  rw [step_eq hr, takeTurn, ht]
  dsimp only
  rw [decode_encode hwf]

/-- Settles O50: the step takes the decoded operation, and each clause is the rule of one taker. -/
theorem stepRunsRequestedOperation : Obligations.StepRunsRequestedOperation := by
  intro s i rest hr hwf ht
  rw [step_request hr hwf ht]
  refine ⟨fun hk hp hl => ?_, fun hk hi hl => ?_, fun hk hp => ?_, fun hk ho => ?_, ?_, ?_⟩
  · have ha : alarmHoldsLock (s.setTurns rest) = false :=
      Bool.eq_false_iff.mpr fun ha => hl ((alarmHoldsLock_iff _).mp ha).1 ((alarmHoldsLock_iff _).mp ha).2
    exact takeOperation_pollOperation_free hk hp ha
  · have ha : alarmHoldsLock s = true := (alarmHoldsLock_iff s).mpr ⟨hi, hl⟩
    exact (takeOperation_pollOperation_waits (s := s.setTurns rest) hk (.inr ha)).trans (pollStep_of_alarmHoldsLock ha)
  · exact takeOperation_pollOperation_waits hk (.inl hp)
  · rw [takeOperation_alarm hk]
    exact fireAlarm_returns i ho
  · rintro d rfl hne hlegal
    rw [takeOperation_capture]
    exact takeCapture_of_legal hne hlegal
  · rintro sym rfl hp ho
    rw [takeOperation_symbol (s := s.setTurns rest) hp]
    cases hx : exec sym.toInstr { s with turns := rest } with
    | next t => exact executeSymbol_of_next (s := s.setTurns rest) ho hx
    | fault r => cases r
    | refused r => exact executeSymbol_of_refused (s := s.setTurns rest) hx

end Sys2Proof.Machine
end

section
/-! What the symbols and the handlers may write (`10_state.md` rule R41). -/

namespace Sys2Proof.Machine

open Sys2Proof.Safety

/-! ## The symbols -/

theorem bitSymbol_cases (b : Bool) : bitSymbol b = .zero ∨ bitSymbol b = .one := by
  cases b
  · exact .inl rfl
  · exact .inr rfl

theorem wordEvents_cases (w : DataWord) (s : State) :
    wordEvents w s = [] ∨ ∃ e, wordEvents w s = [⟨s.time, .poll, .event e⟩] := by
  unfold wordEvents
  split
  · exact .inr ⟨_, rfl⟩
  · exact .inl rfl

/-- The guard and the pending alarms are as they were. -/
abbrev AlarmsKept (s t : State) : Prop := t.ds.sparedUntil = s.ds.sparedUntil ∧ t.alarms = s.alarms

/-- The guard and the pending alarms are those of an `Arm` (`44_end_timer.md` rule R140). -/
abbrev AlarmsArmed (s t : State) : Prop :=
  t.ds.sparedUntil = s.time + 120000 ∧ t.alarms = addAlarm (s.time + 125000) s.alarms

/-- A symbol touches the guard and the alarms only by an `Arm`, if it is an arming symbol of a message in progress. -/
theorem symbol_alarms {s t : State} {sym : Symbol} (h : exec sym.toInstr s = .next t) :
    AlarmsKept s t ∨
    AlarmsArmed s t ∧ s.ds.isCancelled = false ∧
      (sym = .start ∨ sym = .repeatSym ∨ (sym = .zero ∨ sym = .one) ∧ s.ds.step = 31) := by
  obtain ⟨-, ⟨-, -, rfl⟩ | ⟨-, -, rfl⟩ | ⟨-, -, rfl⟩ | ⟨hsym, hc, rfl⟩ | ⟨b, -, -, -, rfl⟩ | ⟨b, rfl, hc, h31, rfl⟩ |
    ⟨-, -, -, -, rfl⟩ | ⟨hsym, hc, -, -, -, rfl⟩⟩ := symbol_cases h
  · exact .inl ⟨rfl, rfl⟩
  · exact .inl ⟨rfl, rfl⟩
  · exact .inl ⟨rfl, rfl⟩
  · exact .inr ⟨⟨rfl, rfl⟩, hc, .inl hsym⟩
  · exact .inl ⟨rfl, rfl⟩
  · exact .inr ⟨⟨rfl, rfl⟩, hc, .inr (.inr ⟨bitSymbol_cases b, h31⟩)⟩
  · exact .inl ⟨rfl, rfl⟩
  · exact .inr ⟨⟨rfl, rfl⟩, hc, .inr (.inl hsym)⟩

/-- A symbol writes the decoder's own state but not its lock, the pending alarms and the trace, and nothing else. -/
theorem symbol_frame {s t : State} {sym : Symbol} (h : exec sym.toInstr s = .next t) :
    ∃ d as tr, t = { s with ds := d, alarms := as, trace := tr } ∧ d.lock = s.ds.lock ∧
      (sym ≠ .start → sym ≠ .one → d.data = s.ds.data) ∧
      (tr = s.trace ∨ ∃ e, tr = s.trace ++ [⟨s.time, .poll, .event e⟩]) := by
  have bitData (b : Bool) (hone : bitSymbol b ≠ .one) : withBit b s.ds = s.ds.data := by
    cases b
    · rfl
    · exact absurd rfl hone
  obtain ⟨-, ⟨-, -, rfl⟩ | ⟨-, -, rfl⟩ | ⟨hsym, -, rfl⟩ | ⟨hsym, -, rfl⟩ | ⟨b, rfl, -, -, rfl⟩ | ⟨b, rfl, -, -, rfl⟩ |
    ⟨-, -, -, -, rfl⟩ | ⟨-, -, -, -, -, rfl⟩⟩ := symbol_cases h
  · exact ⟨_, _, _, rfl, rfl, fun _ _ => rfl, .inl rfl⟩
  · exact ⟨_, _, _, rfl, rfl, fun _ _ => rfl, .inr ⟨_, rfl⟩⟩
  · exact ⟨_, _, _, rfl, rfl, fun hne => absurd hsym hne, .inl rfl⟩
  · exact ⟨_, _, _, rfl, rfl, fun hne => absurd hsym hne, .inr ⟨_, rfl⟩⟩
  · exact ⟨_, _, _, rfl, rfl, fun _ => bitData b, .inl rfl⟩
  · refine ⟨_, _, _, rfl, rfl, fun _ => bitData b, ?_⟩
    rcases wordEvents_cases (withBit b s.ds) s with he | ⟨e, he⟩
    · exact .inl ((congrArg (s.trace ++ ·) he).trans (List.append_nil _))
    · exact .inr ⟨e, congrArg (s.trace ++ ·) he⟩
  · exact ⟨_, _, _, rfl, rfl, fun _ _ => rfl, .inl rfl⟩
  · exact ⟨_, _, _, rfl, rfl, fun _ _ => rfl, .inl rfl⟩

/-- Settles O33: the frame of a symbol, and its one way to touch the guard and the alarms. -/
theorem symbolsFrame : Obligations.SymbolsFrame := by
  intro s t sym h
  have halarms : AlarmsKept s t ∨ AlarmsArmed s t := (symbol_alarms h).imp_right And.left
  obtain ⟨d, as, tr, rfl, hlock, hdata, htrace⟩ := symbol_frame h
  exact ⟨rfl, rfl, rfl, rfl, rfl, rfl, rfl, hlock, rfl, rfl, rfl, rfl, rfl, rfl, rfl, hdata, halarms, htrace⟩

/-- Every symbol's meaning is guarded by the decoder's existence and POLL's lock. -/
theorem exec_symbol_guarded (sym : Symbol) (s : State) : ∃ body, exec sym.toInstr s = underPollLock s body := by
  cases sym <;> exact ⟨_, rfl⟩

/-- Settles O29: the two refusals of the guard every symbol runs under. -/
theorem symbolsNeedDecoderAndLock : Obligations.SymbolsNeedDecoderAndLock := by
  intro s sym
  obtain ⟨body, hx⟩ := exec_symbol_guarded sym s
  rw [hx, underPollLock]
  refine ⟨fun hd => if_pos hd, fun hd hl => ?_⟩
  rw [if_neg (by rw [hd]; decide), if_neg hl]

/-! ## The two handlers -/

/-- Settles O43: an alarm spends itself and may finalise the message; a capture pushes its edge or loses it. -/
theorem handlersFrame : Obligations.HandlersFrame := by
  refine fun s t => ⟨fun a h => ?_, fun d h => ?_⟩
  · obtain ⟨-, -, ⟨-, -, -, rfl⟩ | ⟨-, rfl⟩⟩ := execAlarmFire_cases h
    · exact ⟨_, _, _, rfl, fun _ => rfl⟩
    · exact ⟨_, _, _, rfl, id⟩
  · have h : execCapture d s = .next t := h
    rw [execCapture_eq] at h
    cases h
    refine ⟨_, rfl, ?_⟩
    split
    · exact (qTryPush_cases 128 s.edgeQ ⟨s.time, d⟩).symm
    · exact .inl rfl

end Sys2Proof.Machine
end

section
/-! The invariant, kept by every step: the queues and their timestamps, the parts of the state an atomic step writes, the
symbols, and then the moves of the agents one by one. -/

namespace Sys2Proof.Safety

open Sys2Proof.Machine

section
variable {s : State}

/-! ## The order in the queues -/

/-- Entries taken off the queues leave the rest in order. -/
theorem QueuesInTime.sublist {es : List Edge} {ps : List Pulse} (h : QueuesInTime s) (he : es.Sublist s.edgeQ)
    (hp : ps.Sublist s.pulseQ) : QueuesInTime ((s.setEdgeQ es).setPulseQ ps) := by
  obtain ⟨hedges, hpulses, hcross, hlevel, hlast, hedgeLast, hpulseLast⟩ := h
  exact ⟨hedges.sublist he, hpulses.sublist hp, fun p hm e hn => hcross p (hp.subset hm) e (he.subset hn), hlevel, hlast,
    fun e hm => hedgeLast e (he.subset hm), fun p hm => hpulseLast p (hp.subset hm)⟩

/-- A pulse ends no later than its second edge: its duration is at most the difference of the two (rule R103). -/
theorem pulseEnd_pulseOf_le {a b : Edge} (h : a.timestamp.toNat ≤ b.timestamp.toNat) :
    pulseEnd (pulseOf a b) ≤ b.timestamp.toNat := by
  have hdur : (pulseOf a b).duration.toNat ≤ b.timestamp.toNat - a.timestamp.toNat := by
    rw [pulseOf, BitVec.toNat_setWidth, ← BitVec.toNat_sub_of_le (BitVec.le_def.mpr h)]
    exact Nat.mod_le _ _
  have hstart : (pulseOf a b).start = a.timestamp := rfl
  rw [pulseEnd, hstart]
  omega

/-- The pulse of the first two edges belongs between the queued pulses and the remaining edges. -/
theorem QueuesInTime.pair {a b : Edge} {rest : List Edge} (h : QueuesInTime s) (hq : s.edgeQ = a :: b :: rest) :
    QueuesInTime ((s.setEdgeQ rest).setPulseQ (s.pulseQ ++ [pulseOf a b])) := by
  obtain ⟨hedges, hpulses, hcross, hlevel, hlast, hedgeLast, hpulseLast⟩ := h
  rw [hq] at hedges hcross hedgeLast
  obtain ⟨ha, hedges⟩ := List.pairwise_cons.mp hedges
  obtain ⟨hb, hrest⟩ := List.pairwise_cons.mp hedges
  have hend : pulseEnd (pulseOf a b) ≤ b.timestamp.toNat := pulseEnd_pulseOf_le (ha b (List.mem_cons_self ..)).le
  have queued {e : Edge} (hm : e ∈ rest) : e ∈ a :: b :: rest := List.mem_cons_of_mem _ (List.mem_cons_of_mem _ hm)
  refine ⟨hrest, ?_, ?_, hlevel, hlast, fun e hm => hedgeLast e (queued hm), ?_⟩
  · exact List.pairwise_append.mpr ⟨hpulses, List.pairwise_singleton _ _, fun p hm q hn => by
      rw [List.mem_singleton.mp hn]
      exact hcross p hm a (List.mem_cons_self ..)⟩
  · intro p hm e hn
    rcases List.mem_append.mp hm with hm | hm
    · exact hcross p hm e (queued hn)
    · rw [List.mem_singleton.mp hm]
      exact hend.trans_lt (hb e hn)
  · intro p hm
    rcases List.mem_append.mp hm with hm | hm
    · exact hpulseLast p hm
    · rw [List.mem_singleton.mp hm]
      obtain ⟨t, ht, hle⟩ := hedgeLast b (List.mem_cons_of_mem _ (List.mem_cons_self ..))
      exact ⟨t, ht, hend.trans hle⟩

/-- Where `TIME` has passed the last captured change, it has passed everything queued (rule R95). -/
theorem QueuesInTime.lt_time (h : QueuesInTime s) (hlate : ∀ t, s.lastCapture = some t → t.toNat < s.time.toNat) :
    (∀ e ∈ s.edgeQ, e.timestamp.toNat < s.time.toNat) ∧ (∀ p ∈ s.pulseQ, pulseEnd p < s.time.toNat) := by
  obtain ⟨-, -, -, -, -, hedgeLast, hpulseLast⟩ := h
  refine ⟨fun e hm => ?_, fun p hm => ?_⟩
  · obtain ⟨t, ht, hle⟩ := hedgeLast e hm
    exact hle.trans_lt (hlate t ht)
  · obtain ⟨t, ht, hle⟩ := hpulseLast p hm
    exact hle.trans_lt (hlate t ht)

/-- A change of the pin is the latest thing that has happened to it. -/
theorem QueuesInTime.setPin (h : QueuesInTime s) (l : Level) : QueuesInTime (s.setPin l) := by
  obtain ⟨hedges, hpulses, hcross, hlevel, hlast, hedgeLast, hpulseLast⟩ := h
  have later {n : Nat} (hn : ∃ t, s.lastCapture = some t ∧ n ≤ t.toNat) :
      ∃ t, (s.setPin l).lastCapture = some t ∧ n ≤ t.toNat := by
    obtain ⟨t, ht, hle⟩ := hn
    rw [State.setPin_lastCapture]
    split
    · exact ⟨s.time, rfl, hle.trans (hlast t ht)⟩
    · exact ⟨t, ht, hle⟩
  refine ⟨hedges, hpulses, hcross, fun t ht => ?_, fun t ht => ?_, fun e hm => later (hedgeLast e hm),
    fun p hm => later (hpulseLast p hm)⟩
  · cases ht
    exact Nat.le_refl _
  · rw [State.setPin_lastCapture] at ht
    split at ht
    · cases ht
      exact Nat.le_refl _
    · exact hlast t ht

/-- An edge captured now goes to the tail of the edge queue. -/
theorem QueuesInTime.push {d : Direction} (h : QueuesInTime s) (hnow : s.lastCapture = some s.time)
    (hedge : ∀ e ∈ s.edgeQ, e.timestamp.toNat < s.time.toNat) (hpulse : ∀ p ∈ s.pulseQ, pulseEnd p < s.time.toNat) :
    QueuesInTime (s.setEdgeQ (s.edgeQ ++ [⟨s.time, d⟩])) := by
  obtain ⟨hedges, hpulses, hcross, hlevel, hlast, hedgeLast, hpulseLast⟩ := h
  refine ⟨?_, hpulses, ?_, hlevel, hlast, ?_, hpulseLast⟩
  · exact List.pairwise_append.mpr ⟨hedges, List.pairwise_singleton _ _, fun e hm f hn => by
      rw [List.mem_singleton.mp hn]
      exact hedge e hm⟩
  · intro p hm e hn
    rcases List.mem_append.mp hn with hn | hn
    · exact hcross p hm e hn
    · rw [List.mem_singleton.mp hn]
      exact hpulse p hm
  · intro e hm
    rcases List.mem_append.mp hm with hm | hm
    · exact hedgeLast e hm
    · rw [List.mem_singleton.mp hm]
      exact ⟨s.time, hnow, Nat.le_refl _⟩

/-! ## What the invariant says of POLL's phase -/

theorem phaseLegal_of_idle (hp : s.poll = .idle) : PhaseLegal s := by
  rw [PhaseLegal, hp]
  trivial

/-- A calibration has begun and not yet ended, unless POLL can take no step to end it (rules R92, R62). -/
abbrev CalibrationOnTime (t0 : Time) (s : State) : Prop :=
  t0.toNat ≤ s.time.toNat ∧ (alarmHoldsLock s = false → s.time.toNat ≤ calibrationEnd t0 s)

/-- A change of neither POLL's phase nor the flags matters to a calibration alone. -/
theorem PhaseLegal.of_same_phase {t : State} (h : PhaseLegal s) (hpoll : t.poll = s.poll)
    (hflags : t.erInit = s.erInit ∧ t.pdInit = s.pdInit ∧ t.decInit = s.decInit)
    (hcal : ∀ t0, s.poll = .calibrate t0 → CalibrationOnTime t0 s → CalibrationOnTime t0 t) : PhaseLegal t := by
  obtain ⟨her, hpd, hdec⟩ := hflags
  unfold PhaseLegal at h ⊢
  rw [hpoll, her, hpd, hdec]
  cases hp : s.poll with
  | calibrate t0 =>
    rw [hp] at h
    obtain ⟨hi, htime⟩ := h
    exact ⟨hi, hcal t0 hp htime⟩
  | _ =>
    rw [hp] at h
    exact h

/-- The legality of POLL's phase, read off the phase it is in. -/
theorem Inv.phaseLegal_of_eq {p : PollPhase} (h : Inv s) (hp : s.poll = p) : PhaseLegal (s.setPoll p) := by
  subst hp
  exact h.phaseLegal

/-- `DRAIN` goes on only where it may run (rule R172). -/
theorem Inv.initialised_of_atDrain (h : Inv s) (ha : AtDrain s) : s.erInit = true ∧ s.pdInit = true := by
  rcases ha with ⟨-, hi⟩ | hp
  · exact hi
  · exact h.phaseLegal_of_eq hp

/-- `PROCESS` goes on only where it may run (rule R172). -/
theorem Inv.decInit_of_atProcess (h : Inv s) (ha : AtProcess s) : s.decInit = true := by
  rcases ha with ⟨-, hi⟩ | hp
  · exact hi
  · exact h.phaseLegal_of_eq hp

theorem insideLock_of_atDrain (ha : AtDrain s) : insideLock s.poll = false := by
  rcases ha with ⟨hp, -⟩ | hp <;> rw [hp] <;> rfl

theorem insideLock_of_atProcess (ha : AtProcess s) : insideLock s.poll = false := by
  rcases ha with ⟨hp, -⟩ | hp <;> rw [hp] <;> rfl

/-! ## The invariant under the writes of an atomic step -/

theorem Inv.setTurns (h : Inv s) (ts : List Turn) : Inv (s.setTurns ts) := { h with }

theorem Inv.setOwner (h : Inv s) (c : OwnerConduct) : Inv (s.setOwner c) := { h with }

theorem Inv.setTrace (h : Inv s) (tr : List TraceEntry) : Inv (s.setTrace tr) := { h with }

/-- POLL goes on to a phase on the same side of the lock. -/
theorem Inv.setPoll {p : PollPhase} (h : Inv s) (hrun : s.poll ≠ .stuck) (hlock : insideLock s.poll = insideLock p)
    (hlegal : PhaseLegal (s.setPoll p)) : Inv (s.setPoll p) :=
  { h with
    phaseLegal := hlegal
    lockMatchesPhase := fun hd => by
      rw [State.setPoll_poll, ← hlock]
      exact h.lockMatchesPhase hd
    unreceivedBitsClear := fun hd _ => h.unreceivedBitsClear hd hrun }

/-- POLL takes or gives back the lock. -/
theorem Inv.setLock_setPoll {l : Lock} {p : PollPhase} (h : Inv s) (hrun : s.poll ≠ .stuck)
    (hlock : l = .heldByPoll ↔ insideLock p = true) (hlegal : PhaseLegal ((s.setLock l).setPoll p)) :
    Inv ((s.setLock l).setPoll p) :=
  { h with
    phaseLegal := hlegal
    lockMatchesPhase := fun _ => hlock
    unreceivedBitsClear := fun hd _ => h.unreceivedBitsClear hd hrun }

/-- A callback that never returns leaves POLL inside the lock; what it has put into `data` by then is excepted (log 14). -/
theorem Inv.setData_setPoll_stuck (h : Inv s) (hd : s.decInit = true) (hin : insideLock s.poll = true) (w : DataWord) :
    Inv ((s.setData w).setPoll .stuck) :=
  { h with
    phaseLegal := hd
    lockMatchesPhase := fun hd => (h.lockMatchesPhase hd).trans (iff_of_true hin rfl)
    unreceivedBitsClear := fun _ hne => absurd rfl hne }

/-- Entries taken off the queues leave queues that still meet the invariant. -/
theorem Inv.sublist {es : List Edge} {ps : List Pulse} (h : Inv s) (he : es.Sublist s.edgeQ)
    (hp : ps.Sublist s.pulseQ) : Inv ((s.setEdgeQ es).setPulseQ ps) :=
  { h with
    queuesBounded := h.queuesBounded.imp he.length_le.trans hp.length_le.trans
    initConsistent := by
      obtain ⟨hen, hedge, hpulse, halarm⟩ := h.initConsistent
      exact ⟨hen, fun hi => List.sublist_nil.mp (hedge hi ▸ he),
        fun hi => ⟨List.sublist_nil.mp ((hpulse hi).1 ▸ hp), (hpulse hi).2⟩, halarm⟩
    queuesInTime := h.queuesInTime.sublist he hp }

/-- The pairing of the first two edges, whether the pulse queue has room or not. -/
theorem Inv.pair {a b : Edge} {rest : List Edge} (h : Inv s) (hi : s.pdInit = true) (hq : s.edgeQ = a :: b :: rest) :
    Inv ((s.setEdgeQ rest).setPulseQ (qTryPush 32 s.pulseQ (pulseOf a b)).2) := by
  have hrest : rest.Sublist s.edgeQ := hq ▸ ((List.Sublist.refl rest).cons b).cons a
  have hdropped : Inv ((s.setEdgeQ rest).setPulseQ s.pulseQ) := h.sublist hrest (.refl _)
  refine { hdropped with
    queuesBounded := hdropped.queuesBounded.imp_right (qTryPush_length_le _)
    initConsistent := ?_
    queuesInTime := ?_ }
  · obtain ⟨hen, hedge, -, halarm⟩ := hdropped.initConsistent
    exact ⟨hen, hedge, fun hn => absurd (hi.symm.trans hn) (by decide), halarm⟩
  · rcases qTryPush_cases 32 s.pulseQ (pulseOf a b) with hpush | hfull
    · rw [hpush]
      exact h.queuesInTime.pair hq
    · rw [hfull]
      exact hdropped.queuesInTime

/-- A successful `EDGE_INIT` (rule R90). -/
theorem Inv.finishEdgeInit (h : Inv s) (hrun : s.poll ≠ .stuck) (hlock : insideLock s.poll = false) (l : Level) :
    Inv (finishEdgeInit l s) := by
  have hempty : Inv (s.setEdgeQ []) := h.sublist (List.nil_sublist _) (.refl _)
  have hidle : Inv ((s.setEdgeQ []).setPoll .idle) := hempty.setPoll hrun hlock trivial
  obtain ⟨-, -, hpulse, halarm⟩ := hidle.initConsistent
  exact { hidle with initConsistent := ⟨rfl, fun _ => rfl, hpulse, halarm⟩ }

/-- A calibration that failed (rule R151). -/
theorem Inv.raiseCalibrationTimeout (h : Inv s) (hrun : s.poll ≠ .stuck) (hlock : insideLock s.poll = false) :
    Inv (raiseCalibrationTimeout s) := { h.setPoll (p := .idle) hrun hlock trivial with }

/-- `PULSE_INIT` (rule R100). -/
theorem Inv.pulseInit (h : Inv s) (hp : s.poll = .idle) : Inv { s with pulseQ := [], pdInit := true } := by
  have hempty : Inv (s.setPulseQ []) := h.sublist (.refl _) (List.nil_sublist _)
  obtain ⟨hen, hedge, -, halarm⟩ := hempty.initConsistent
  exact { hempty with
    initConsistent := ⟨hen, hedge, fun hn => (nomatch hn), halarm⟩
    phaseLegal := phaseLegal_of_idle hp }

/-- `DEC_INIT` (rule R120). -/
theorem Inv.decInit (h : Inv s) (hp : s.poll = .idle) (hi : s.pdInit = true) :
    Inv { s with ds := initialDecoderState, alarms := [], decInit := true } := by
  obtain ⟨hen, hedge, -, -⟩ := h.initConsistent
  exact { h with
    alarmsSorted := List.Pairwise.nil
    initConsistent := ⟨hen, hedge, fun hn => absurd (hi.symm.trans hn) (by decide), fun _ => rfl⟩
    phaseLegal := phaseLegal_of_idle hp
    lockMatchesPhase := fun _ => iff_of_false (fun hl => nomatch hl) (by rw [hp]; decide)
    endFlagMatchesStep := fun _ hc => nomatch hc
    unreceivedBitsClear := fun _ _ hc => nomatch hc }

/-! ## The handlers and the environment -/

/-- A spent alarm. -/
theorem Inv.spendAlarm (h : Inv s) (a : Time) : Inv (s.setAlarms (s.alarms.erase a)) :=
  { h with
    alarmsSorted := h.alarmsSorted.sublist List.erase_sublist
    initConsistent := by
      obtain ⟨hen, hedge, hpulse, halarm⟩ := h.initConsistent
      exact ⟨hen, hedge, hpulse, fun hd => by simp [halarm hd]⟩ }

/-- The message in progress is finalised. -/
theorem Inv.setCancelled (h : Inv s) : Inv (s.setCancelled true) :=
  { h with
    endFlagMatchesStep := fun _ hc => nomatch hc
    unreceivedBitsClear := fun _ _ hc => nomatch hc }

/-- An alarm takes the lock. -/
theorem Inv.setLock_heldByAlarm (h : Inv s) (hl : s.ds.lock = .free) : Inv (s.setLock .heldByAlarm) :=
  { h with
    phaseLegal := h.phaseLegal.of_same_phase rfl ⟨rfl, rfl, rfl⟩ fun _ _ ⟨hbegun, hend⟩ =>
      ⟨hbegun, fun _ => hend (alarmHoldsLock_of_ne (by rw [hl]; decide))⟩
    lockMatchesPhase := fun hd =>
      iff_of_false (fun hl => nomatch hl) (fun hin => nomatch hl.symm.trans ((h.lockMatchesPhase hd).mpr hin)) }

/-- `TIME` moves on, at most to the end of a calibration that POLL can end. -/
theorem Inv.setTime {t : Time} (h : Inv s) (hle : s.time.toNat ≤ t.toNat) (hr : Machine.timeInRange t = true)
    (hcal : alarmHoldsLock s = false → ∀ t0, s.poll = .calibrate t0 → t.toNat ≤ calibrationEnd t0 s) :
    Inv (s.setTime t) :=
  { h with
    timeInRange := hr
    phaseLegal := h.phaseLegal.of_same_phase rfl ⟨rfl, rfl, rfl⟩ fun t0 hp ⟨hbegun, _⟩ =>
      ⟨hbegun.trans hle, fun ha => hcal ha t0 hp⟩
    queuesInTime := by
      obtain ⟨hedges, hpulses, hcross, hlevel, hlast, hedgeLast, hpulseLast⟩ := h.queuesInTime
      exact ⟨hedges, hpulses, hcross, fun t ht => (hlevel t ht).trans hle, fun t ht => (hlast t ht).trans hle,
        hedgeLast, hpulseLast⟩ }

/-- A change of the pin restarts the time a calibration waits for, but not its timeout (rule R92). -/
theorem Inv.setPin (h : Inv s) (l : Level) : Inv (s.setPin l) :=
  { h with
    phaseLegal := h.phaseLegal.of_same_phase rfl ⟨rfl, rfl, rfl⟩ fun t0 _ ⟨hbegun, hend⟩ => by
      refine ⟨hbegun, fun ha => le_calibrationEnd ?_ ((hend ha).trans (calibrationEnd_le t0 s))⟩
      rw [stableSince_of_some (State.setPin_levelSince s l)]
      exact (le_max_right _ _).trans (Nat.le_add_right _ _)
    queuesInTime := h.queuesInTime.setPin l }

/-- A change of the pin and its capture (rules R93, R95). -/
theorem Inv.capture (h : Inv s) (d : Direction)
    (hlegal : s.erEnabled = true → ∀ t, s.lastCapture = some t → t.toNat < s.time.toNat) :
    Inv ((s.setPin d.toLevel).setEdgeQ (if s.erEnabled then (qTryPush 128 s.edgeQ ⟨s.time, d⟩).2 else s.edgeQ)) := by
  have hpin : Inv (s.setPin d.toLevel) := h.setPin d.toLevel
  cases hen : s.erEnabled with
  | false => exact { hpin with }
  | true =>
    obtain ⟨hflag, -, hpulse, halarm⟩ := hpin.initConsistent
    refine { hpin with
      queuesBounded := h.queuesBounded.imp_left (qTryPush_length_le _)
      initConsistent := ⟨hflag, fun hi => (nomatch hen.symm.trans (hflag.trans hi)), hpulse, halarm⟩
      queuesInTime := ?_ }
    rw [if_pos rfl]
    rcases qTryPush_cases 128 s.edgeQ ⟨s.time, d⟩ with hpush | hfull
    · obtain ⟨hedge, hpulse⟩ := h.queuesInTime.lt_time (hlegal hen)
      rw [hpush]
      exact hpin.queuesInTime.push (by rw [State.setPin_lastCapture, if_pos hen]; rfl) hedge hpulse
    · rw [hfull]
      exact hpin.queuesInTime

/-! ## The symbols -/

theorem toNat_step_succ {n : StepCount} (h : n.toNat + 1 < 2 ^ 32) : (n + 1).toNat = n.toNat + 1 :=
  BitVec.toNat_add_of_lt h

/-- A data bit sets no bit above the present `step` (rule R125). -/
theorem withBit_lt {d : DecoderState} (b : Bool) (h : d.data.toNat < 2 ^ d.step.toNat) :
    (withBit b d).toNat < 2 ^ (d.step.toNat + 1) := by
  have hgrow : 2 ^ d.step.toNat < 2 ^ (d.step.toNat + 1) := Nat.pow_lt_pow_right (by decide) (Nat.lt_succ_self _)
  cases b with
  | false => exact h.trans hgrow
  | true =>
    have hbit : (1#32 <<< d.step.toNat).toNat < 2 ^ (d.step.toNat + 1) := by
      rw [BitVec.toNat_shiftLeft, Nat.shiftLeft_eq, BitVec.toNat_ofNat, Nat.one_mod, Nat.one_mul]
      exact (Nat.mod_le _ _).trans_lt hgrow
    rw [withBit, if_pos rfl, BitVec.toNat_or]
    exact Nat.or_lt_two_pow (h.trans hgrow) hbit

/-- `10_state.md` rule R28 (a) over a symbol. -/
theorem symbol_endFlagMatchesStep {t : State} {sym : Symbol} (h : exec sym.toInstr s = .next t)
    (hs : EndFlagMatchesStep s) : EndFlagMatchesStep t := by
  obtain ⟨⟨hd, -⟩, ⟨-, -, rfl⟩ | ⟨-, -, rfl⟩ | ⟨-, -, rfl⟩ | ⟨-, -, rfl⟩ | ⟨b, -, hc, hlt, rfl⟩ | ⟨b, -, -, -, rfl⟩ |
    ⟨-, hc, hend, hmax, rfl⟩ | ⟨-, hc, hlt, hodd, hmax, rfl⟩⟩ := symbol_cases h
  · exact hs
  · exact fun _ hc => nomatch hc
  · exact fun _ _ => by simp [fresh]
  · exact fun _ _ => by simp [fresh, armed]
  · intro _ _
    have hflag := hs hd hc
    simp only [toNat_step_succ (show s.ds.step.toNat + 1 < 2 ^ 32 by omega), hflag]
    omega
  · exact fun _ _ => by simp [completed, armed]
  · intro _ _
    obtain ⟨-, heven⟩ := (hs hd hc).mp hend
    simp only [toNat_step_succ hmax, Bool.false_eq_true, false_iff]
    omega
  · intro _ _
    simp only [armed, toNat_step_succ hmax, true_iff]
    omega

/-- `10_state.md` rule R28 (b) over a symbol: below step 32 it is a data bit or a `START` that moves `step` or `data`. -/
theorem symbol_unreceivedBitsClear {t : State} {sym : Symbol} (h : exec sym.toInstr s = .next t)
    (hflag : EndFlagMatchesStep s) (hs : UnreceivedBitsClear s) : UnreceivedBitsClear t := by
  obtain ⟨⟨hd, -⟩, ⟨-, -, rfl⟩ | ⟨-, -, rfl⟩ | ⟨-, -, rfl⟩ | ⟨-, -, rfl⟩ | ⟨b, -, hc, hlt, rfl⟩ | ⟨b, -, -, -, rfl⟩ |
    ⟨-, hc, hend, hmax, rfl⟩ | ⟨-, hc, hlt, -, hmax, rfl⟩⟩ := symbol_cases h
  · exact hs
  · exact fun _ _ hc => nomatch hc
  · exact fun _ _ _ _ => by simp [fresh]
  · exact fun _ _ _ _ => by simp [fresh, armed]
  · intro _ hrun _ _
    rw [toNat_step_succ (by omega)]
    exact withBit_lt b (hs hd hrun hc (by omega))
  · intro _ _ _ (hle : 32 ≤ 31)
    omega
  · intro _ _ _ (hle : (s.ds.step + 1).toNat ≤ 31)
    obtain ⟨h32, -⟩ := (hflag hd hc).mp hend
    rw [toNat_step_succ hmax] at hle
    omega
  · intro _ _ _ (hle : (s.ds.step + 1).toNat ≤ 31)
    rw [toNat_step_succ hmax] at hle
    omega

theorem symbol_alarmsSorted {t : State} {sym : Symbol} (h : exec sym.toInstr s = .next t)
    (hs : AlarmsSorted s) : AlarmsSorted t := by
  rcases symbol_alarms h with ⟨-, hkept⟩ | ⟨⟨-, hadd⟩, -⟩
  · rw [AlarmsSorted, hkept]
    exact hs
  · rw [AlarmsSorted, hadd]
    exact addAlarm_rising _ hs

/-- A symbol, POLL being about to execute it. -/
theorem Inv.symbol {t : State} {sym : Symbol} (h : Inv s) (hp : s.poll = .execute sym)
    (hx : exec sym.toInstr s = .next t) : Inv t := by
  obtain ⟨⟨hd, -⟩, -⟩ := symbol_cases hx
  obtain ⟨hen, hedge, hpulse, -⟩ := h.initConsistent
  obtain ⟨d, as, tr, rfl, hlock, -, -⟩ := symbol_frame hx
  exact { h with
    alarmsSorted := symbol_alarmsSorted hx h.alarmsSorted
    initConsistent := ⟨hen, hedge, hpulse, fun hn => nomatch hd.symm.trans hn⟩
    phaseLegal := by rw [PhaseLegal, hp]; exact hd
    lockMatchesPhase := fun hd => by rw [hlock]; exact h.lockMatchesPhase hd
    endFlagMatchesStep := symbol_endFlagMatchesStep hx h.endFlagMatchesStep
    unreceivedBitsClear := symbol_unreceivedBitsClear hx h.endFlagMatchesStep h.unreceivedBitsClear }

/-! ## The moves -/

/-- A step of POLL keeps the invariant. -/
theorem Inv.pollMove {t : State} (h : Inv s) (hm : PollMove s t) : Inv t := by
  have hrun := hm.poll_ne_stuck
  cases hm with
  | edgeInit l hp => exact h.finishEdgeInit hrun (by rw [hp]; rfl) l
  | calibrating hp hi =>
    refine h.setPoll hrun (by rw [hp]; rfl) ⟨hi, Nat.le_refl _, fun _ => ?_⟩
    exact le_calibrationEnd ((le_stableSince s.time s).trans (Nat.le_add_right _ _)) (Nat.le_add_right _ _)
  | calibrated t0 hp => exact h.finishEdgeInit hrun (by rw [hp]; rfl) s.irIn
  | calibrationFailed t0 hp => exact h.raiseCalibrationTimeout hrun (by rw [hp]; rfl)
  | pulseInit hp => exact h.pulseInit hp
  | decInit hp _ hi => exact h.decInit hp hi
  | drainEnd ha => exact h.setPoll hrun (insideLock_of_atDrain ha) trivial
  | drainDrop a b rest ha hq =>
    have hsub : (b :: rest).Sublist s.edgeQ := hq ▸ .cons a (.refl _)
    have hdropped : Inv (s.setEdgeQ (b :: rest)) := h.sublist hsub (.refl _)
    exact hdropped.setPoll hrun (insideLock_of_atDrain ha) (h.initialised_of_atDrain ha)
  | drainPair a b rest ha hq =>
    obtain ⟨hi, hd⟩ := h.initialised_of_atDrain ha
    exact (h.pair hd hq).setPoll hrun (insideLock_of_atDrain ha) ⟨hi, hd⟩
  | processEnd ha => exact h.setPoll hrun (insideLock_of_atProcess ha) trivial
  | processHead cur next rest ha hq =>
    have hsub : (next :: rest).Sublist s.pulseQ := hq ▸ .cons cur (.refl _)
    have hpopped : Inv (s.setPulseQ (next :: rest)) := h.sublist (.refl _) hsub
    exact hpopped.setPoll hrun (insideLock_of_atProcess ha) (h.decInit_of_atProcess ha)
  | acquire sym hp => exact h.setLock_setPoll hrun (iff_of_true rfl rfl) (h.phaseLegal_of_eq hp)
  | execute sym v hp hx =>
    have hv : Inv v := h.symbol hp hx
    obtain ⟨d, as, tr, rfl, -⟩ := symbol_frame hx
    exact hv.setPoll hrun (by rw [hp]; rfl) (h.phaseLegal_of_eq hp)
  | executeStuck sym v hp hx =>
    rw [beforeCallback_eq]
    have hin : insideLock s.poll = true := by rw [hp]; rfl
    exact (h.setTrace v.trace).setData_setPoll_stuck (h.phaseLegal_of_eq hp) hin _
  | release hp => exact h.setLock_setPoll hrun (by decide) (h.phaseLegal_of_eq hp)

/-- What any agent does in one atomic step keeps the invariant. -/
theorem Inv.move {t : State} {x : Option Turn} (h : Inv s) (hm : Move x s t) : Inv t := by
  cases hm with
  | stay => exact h
  | poll _ _ hp => exact h.pollMove hp
  | pin d _ _ hlegal => exact h.capture d hlegal
  | alarmEnds a => exact (h.spendAlarm a).setCancelled.setTrace _
  | alarmStuck a _ _ hl => exact ((h.spendAlarm a).setLock_heldByAlarm hl).setTrace _
  | alarmSpent a => exact h.spendAlarm a
  | time t1 t2 _ _ hle hr hcal => exact h.setTime hle hr hcal
  | owner c => exact h.setOwner c

end

/-- Settles O51: a step takes at most its turn off the list and makes one move, which keeps the invariant. -/
theorem stepKeepsInvariant : Obligations.StepKeepsInvariant := by
  intro s t h hstep
  obtain ⟨-, ts, -, hm⟩ := step_move hstep
  exact (h.setTurns ts).move hm

end Sys2Proof.Safety
end

section
/-! What a step leaves unchanged: the alarms and their guard, `TIME` and the pin, the configuration; and the refusals of
the environment's breaches of its duties. -/

namespace Sys2Proof.Machine

open Sys2Proof.Safety

section
variable {u t : State}

/-! ## The guard and the pending alarms -/

/-- Once the decoder exists POLL touches the guard and the alarms only by an `Arm`, when it executes an arming symbol. -/
theorem PollMove.alarms (hm : PollMove u t) (hd : u.decInit = true) :
    AlarmsKept u t ∨
    AlarmsArmed u t ∧ MessageOpen u ∧ (u.poll = .execute .start ∨ u.poll = .execute .repeatSym ∨
      (u.poll = .execute .zero ∨ u.poll = .execute .one) ∧ u.ds.step = 31) := by
  cases hm with
  | decInit _ hi => exact absurd (hd.symm.trans hi) (by decide)
  | execute sym v hp hx =>
    rcases symbol_alarms hx with hkept | ⟨harmed, hc, hsym⟩
    · exact .inl hkept
    · exact .inr ⟨harmed, ⟨hd, hc⟩, by simpa [hp] using hsym⟩
  | executeStuck sym v hp =>
    rw [beforeCallback_eq]
    exact .inl ⟨rfl, rfl⟩
  | _ => exact .inl ⟨rfl, rfl⟩

/-- Settles O53: of POLL's steps an `Arm`, of ALARM's the spending of its alarm; nobody else touches either. -/
theorem alarmsChangeOnlyByArmOrFiring : Obligations.AlarmsChangeOnlyByArmOrFiring := by
  intro s t _ hd hstep
  obtain ⟨-, ts, -, hm⟩ := step_move hstep
  cases hm with
  | poll _ _ hp =>
    rcases hp.alarms hd with ⟨hguard, hkept⟩ | ⟨⟨hguard, hadd⟩, hopen, hsym⟩
    · exact .inl ⟨hguard, .inl hkept⟩
    · exact .inr ⟨hguard, hadd, hopen, hsym⟩
  | alarmEnds a ha hdue | alarmStuck a ha hdue | alarmSpent a ha hdue => exact .inl ⟨rfl, .inr ⟨a, ha, hdue, rfl⟩⟩
  | stay | pin | time | owner => exact .inl ⟨rfl, .inl rfl⟩

/-! ## `TIME` and the pin -/

/-- POLL moves neither `TIME` nor the pin (`10_state.md` rule R41). -/
theorem PollMove.time_irIn (hm : PollMove u t) : t.time = u.time ∧ t.irIn = u.irIn := by
  cases hm with
  | execute sym v _ hx =>
    obtain ⟨d, as, tr, rfl, -⟩ := symbol_frame hx
    exact ⟨rfl, rfl⟩
  | executeStuck sym v =>
    rw [beforeCallback_eq]
    exact ⟨rfl, rfl⟩
  | _ => exact ⟨rfl, rfl⟩

/-- Who moves `TIME` and the pin: ENV's turn of `TIME` the one, a change of the pin the other. -/
theorem Move.time_irIn {x : Option Turn} (hm : Move x u t) :
    t.irIn = u.irIn ∧
      (t.time = u.time ∨ ∃ t1, x = some (.time t1) ∧ t.time.toNat ≤ t1.toNat ∧ u.time.toNat ≤ t.time.toNat ∧
        timeInRange t.time = true) ∨
    t.time = u.time ∧ ∃ d, DrivesPin x d ∧ t.irIn = d.toLevel := by
  cases hm with
  | poll _ _ hp =>
    obtain ⟨htime, hpin⟩ := hp.time_irIn
    exact .inl ⟨hpin, .inl htime⟩
  | pin d hx => exact .inr ⟨rfl, d, hx, rfl⟩
  | time t1 t2 hx hle hge hr => exact .inl ⟨rfl, .inr ⟨t2, hx, hle, hge, hr⟩⟩
  | stay | alarmEnds | alarmStuck | alarmSpent | owner => exact .inl ⟨rfl, .inl rfl⟩

/-- Settles O54: of all moves only ENV's advance touches `TIME`, and only a change of the pin the pin. -/
theorem timeNeverDecreases : Obligations.TimeNeverDecreases := by
  intro s t hstep
  obtain ⟨hr, ts, -, hm⟩ := step_move hstep
  obtain ⟨hpin, htime | ⟨t1, hx, hle, hge, hrange⟩⟩ | ⟨htime, d, hx, hpin⟩ := hm.time_irIn
  · exact ⟨htime ▸ Nat.le_refl _, htime ▸ hr, fun hne => absurd htime hne, fun hne => absurd hpin hne⟩
  · obtain ⟨rest, hturns⟩ := List.head?_eq_some_iff.mp hx
    exact ⟨hge, hrange, fun _ => ⟨t1, rest, hturns, hle⟩, fun hne => absurd hpin hne⟩
  · refine ⟨htime ▸ Nat.le_refl _, htime ▸ hr, fun hne => absurd htime hne, fun _ => ⟨htime, ?_⟩⟩
    rw [hpin]
    rcases hx with hx | ⟨w, hx, hw⟩
    · obtain ⟨rest, hturns⟩ := List.head?_eq_some_iff.mp hx
      exact ⟨rest, .inl hturns⟩
    · obtain ⟨rest, hturns⟩ := List.head?_eq_some_iff.mp hx
      exact ⟨rest, .inr ⟨w, d, hturns, hw, rfl⟩⟩

/-! ## The configuration -/

/-- What `EDGE_INIT` has written stays, and no initialisation is undone. -/
abbrev ConfigurationKept (u t : State) : Prop :=
  (u.erInit = true → t.erInit = true ∧ t.erEnabled = u.erEnabled ∧ t.erIdleLevel = u.erIdleLevel) ∧
  (u.pdInit = true → t.pdInit = true) ∧ (u.decInit = true → t.decInit = true)

/-- Only a first `EDGE_INIT` writes the configuration (`70_reset_and_hazards.md` rule R173). -/
theorem PollMove.configurationKept (hm : PollMove u t) (h : Inv u) : ConfigurationKept u t := by
  have first (hi : u.erInit = false) (l : Level) : ConfigurationKept u (finishEdgeInit l u) :=
    ⟨fun hn => (nomatch hi.symm.trans hn), id, id⟩
  cases hm with
  | edgeInit l _ hi => exact first hi l
  | calibrated t0 hp =>
    obtain ⟨hi, -⟩ := h.phaseLegal_of_eq hp
    exact first hi u.irIn
  | pulseInit => exact ⟨fun hi => ⟨hi, rfl, rfl⟩, fun _ => rfl, id⟩
  | decInit => exact ⟨fun hi => ⟨hi, rfl, rfl⟩, id, fun _ => rfl⟩
  | execute sym v _ hx =>
    obtain ⟨d, as, tr, rfl, -⟩ := symbol_frame hx
    exact ⟨fun hi => ⟨hi, rfl, rfl⟩, id, id⟩
  | executeStuck sym v =>
    rw [beforeCallback_eq]
    exact ⟨fun hi => ⟨hi, rfl, rfl⟩, id, id⟩
  | _ => exact ⟨fun hi => ⟨hi, rfl, rfl⟩, id, id⟩

theorem Move.configurationKept {x : Option Turn} (hm : Move x u t) (h : Inv u) : ConfigurationKept u t := by
  cases hm with
  | poll _ _ hp => exact hp.configurationKept h
  | _ => exact ⟨fun hi => ⟨hi, rfl, rfl⟩, id, id⟩

/-- Settles O55: a move keeps what is configured, and `ER.enabled` is `ER.init` under the invariant. -/
theorem configurationIsImmutable : Obligations.ConfigurationIsImmutable := by
  intro s t h hstep
  obtain ⟨-, ts, -, hm⟩ := step_move hstep
  obtain ⟨her, hpd, hdec⟩ := hm.configurationKept (h.setTurns ts)
  obtain ⟨hen, -⟩ := h.initConsistent
  refine ⟨fun hi => ?_, hpd, hdec⟩
  obtain ⟨hinit, henabled, hlevel⟩ := her hi
  exact ⟨hinit, henabled.trans (hen.trans hi), hlevel⟩

end

/-! ## The duties of the environment -/

/-- Outside a calibration ENV's turn is not cut short. -/
theorem takeTime_of_not_calibrating {t : Time} {s waiting : State} (hp : ∀ t0, s.poll ≠ .calibrate t0) :
    takeTime t s waiting = advanceTime t s := by
  rw [takeTime]
  cases he : calibrationEndBefore t s with
  | none => rfl
  | some e =>
    obtain ⟨-, t0, hc, -⟩ := calibrationEndBefore_eq_some he
    exact absurd hc (hp t0)

theorem advanceTime_of_backwards {t : Time} {s : State} (h : t.toNat < s.time.toNat) :
    advanceTime t s = .refused .timeDecreases := if_pos h

theorem advanceTime_of_out_of_range {t : Time} {s : State} (hle : s.time.toNat ≤ t.toNat) (hr : timeInRange t = false) :
    advanceTime t s = .refused .timeOutOfRange := by
  rw [advanceTime, if_neg (Nat.not_lt.mpr hle), hr]
  exact if_neg Bool.false_ne_true

theorem advanceTime_of_legal {t : Time} {s : State} (hle : s.time.toNat ≤ t.toNat) (hr : timeInRange t = true) :
    advanceTime t s = .next (s.setTime t) := by
  rw [advanceTime, if_neg (Nat.not_lt.mpr hle), if_pos hr]

/-- A second edge within one microsecond (rule R95). -/
theorem drivePin_of_same_time {l : Level} {t : Time} {s : State} (hne : s.irIn ≠ l) (hen : s.erEnabled = true)
    (hlast : s.lastCapture = some t) (hle : s.time.toNat ≤ t.toNat) : drivePin l s = .refused .edgesSameTime := by
  rw [drivePin, if_neg hne, changePin, hlast]
  exact if_pos ⟨hen, hle⟩

/-- A captured direction that is no change of the pin (rule R96). -/
theorem takeCapture_of_no_change {d : Direction} {s : State} (he : s.irIn = d.toLevel) (hen : s.erEnabled = true) :
    takeCapture d s = .refused .edgeWithoutChange := by
  rw [takeCapture, if_pos he, if_pos hen]

/-- Settles O11: each duty is one test of ENV's or CAP's step. -/
theorem environmentDuties : Obligations.EnvironmentDuties := by
  intro s rest hr
  refine ⟨fun t hturns hp => ?_, fun l t hturns hne hen hlast hle => ?_, fun d hturns he hen => ?_⟩
  · have hstep : step s = advanceTime t (s.setTurns rest) := by
      rw [step_eq hr, takeTurn, hturns]
      exact takeTime_of_not_calibrating hp
    rw [hstep]
    refine ⟨fun hback => advanceTime_of_backwards hback, fun hout => ?_, fun hle hin => ?_⟩
    · have hbelow := (timeInRange_iff s.time).mp hr
      exact advanceTime_of_out_of_range (hbelow.le.trans hout) ((timeInRange_eq_false t).mpr hout)
    · exact advanceTime_of_legal hle ((timeInRange_iff t).mpr hin)
  · rw [step_eq hr, takeTurn, hturns]
    exact drivePin_of_same_time (s := s.setTurns rest) hne hen hlast hle
  · rw [step_request hr rfl hturns]
    exact takeCapture_of_no_change (s := s.setTurns rest) he hen

end Sys2Proof.Machine
end

section
/-! What a step does to the two queues: removals from the head, additions at the tail. -/

namespace Sys2Proof.Machine

open Sys2Proof.Safety

/-! ## Pushing at the tail -/

/-- At most one entry is put at the tail of `p`, and none is removed. -/
abbrev AtMostOnePushed {α : Type} (p q : List α) : Prop := ∃ added : List α, added.length ≤ 1 ∧ q = p ++ added

theorem AtMostOnePushed.refl {α : Type} (q : List α) : AtMostOnePushed q q := ⟨[], Nat.zero_le 1, q.append_nil.symm⟩

/-- A push that finds the queue full leaves it (rule R52). -/
theorem atMostOnePushed_qTryPush {α : Type} (cap : Nat) (q : List α) (v : α) :
    AtMostOnePushed q (qTryPush cap q v).2 := by
  rcases qTryPush_cases cap q v with hpush | hfull
  · exact ⟨[v], Nat.le_refl 1, hpush⟩
  · rw [hfull]
    exact .refl q

/-! ## The queues over a move -/

section
variable {u t : State}

/-- POLL only takes edges, from the head: the ones an iteration of `DRAIN` removes (rules R102, R107). An `EDGE_INIT`
finds the queue empty. -/
theorem PollMove.edgeQ (hm : PollMove u t) (h : Inv u) : ∃ k ≤ 2, t.edgeQ = u.edgeQ.drop k := by
  obtain ⟨-, hempty, -, -⟩ := h.initConsistent
  cases hm with
  | edgeInit l _ hi => exact ⟨0, Nat.zero_le 2, (hempty hi).symm⟩
  | calibrated t0 hp =>
    obtain ⟨hi, -⟩ := h.phaseLegal_of_eq hp
    exact ⟨0, Nat.zero_le 2, (hempty hi).symm⟩
  | drainDrop first second rest _ hq => exact ⟨1, Nat.le_succ 1, by rw [hq]; rfl⟩
  | drainPair first second rest _ hq => exact ⟨2, Nat.le_refl 2, by rw [hq]; rfl⟩
  | execute sym v _ hx =>
    obtain ⟨d, as, tr, rfl, -⟩ := symbol_frame hx
    exact ⟨0, Nat.zero_le 2, rfl⟩
  | executeStuck sym v =>
    rw [beforeCallback_eq]
    exact ⟨0, Nat.zero_le 2, rfl⟩
  | _ => exact ⟨0, Nat.zero_le 2, rfl⟩

/-- The head of the queue of pulses is removed, for the symbol of it and the pulse behind it (rule R121). -/
abbrev HeadPulseClassified (u t : State) : Prop :=
  ∃ cur next rest, u.pulseQ = cur :: next :: rest ∧ t.pulseQ = next :: rest ∧ t.poll = .acquire (symbolOf cur next)

/-- `DRAIN` pushes a pulse, the head of `PROCESS` takes one; a `PULSE_INIT` finds the queue empty. -/
theorem PollMove.pulseQ (hm : PollMove u t) (h : Inv u) :
    AtMostOnePushed u.pulseQ t.pulseQ ∨ HeadPulseClassified u t := by
  cases hm with
  | pulseInit _ hi =>
    obtain ⟨-, -, hbefore, -⟩ := h.initConsistent
    obtain ⟨hempty, -⟩ := hbefore hi
    rw [hempty]
    exact .inl (.refl [])
  | drainPair first second => exact .inl (atMostOnePushed_qTryPush 32 u.pulseQ (pulseOf first second))
  | processHead cur next rest _ hq => exact .inr ⟨cur, next, rest, hq, rfl, rfl⟩
  | execute sym v _ hx =>
    obtain ⟨d, as, tr, rfl, -⟩ := symbol_frame hx
    exact .inl (.refl u.pulseQ)
  | executeStuck sym v =>
    rw [beforeCallback_eq]
    exact .inl (.refl u.pulseQ)
  | _ => exact .inl (.refl u.pulseQ)

/-- POLL takes edges and a captured change of the pin adds one, so no move does both. -/
theorem Move.edgeQ {x : Option Turn} (hm : Move x u t) (h : Inv u) :
    (∃ k ≤ 2, t.edgeQ = u.edgeQ.drop k) ∨ AtMostOnePushed u.edgeQ t.edgeQ := by
  cases hm with
  | poll _ _ hp => exact .inl (hp.edgeQ h)
  | pin d =>
    refine .inr ?_
    show AtMostOnePushed u.edgeQ (if u.erEnabled then _ else _)
    split
    · exact atMostOnePushed_qTryPush 128 u.edgeQ ⟨u.time, d⟩
    · exact .refl u.edgeQ
  | stay | alarmEnds | alarmStuck | alarmSpent | time | owner => exact .inr (.refl u.edgeQ)

/-- The queue of pulses is POLL's alone. -/
theorem Move.pulseQ {x : Option Turn} (hm : Move x u t) (h : Inv u) :
    AtMostOnePushed u.pulseQ t.pulseQ ∨ HeadPulseClassified u t := by
  cases hm with
  | poll _ _ hp => exact hp.pulseQ h
  | stay | pin | alarmEnds | alarmStuck | alarmSpent | time | owner => exact .inl (.refl u.pulseQ)

end

/-- Settles O56: a step makes one move, and of the moves `DRAIN` takes edges and pushes a pulse, a capture pushes an edge
and the head of `PROCESS` takes a pulse. -/
theorem queuesAreFifos : Obligations.QueuesAreFifos := by
  intro s t h hstep
  obtain ⟨-, ts, -, hm⟩ := step_move hstep
  have hinv : Inv (s.setTurns ts) := h.setTurns ts
  refine ⟨?_, hm.pulseQ hinv⟩
  rcases hm.edgeQ hinv with ⟨k, hk, htaken⟩ | ⟨added, hone, hpushed⟩
  · exact ⟨k, [], hk, Nat.zero_le 1, htaken.trans (List.append_nil _).symm⟩
  · exact ⟨0, added, Nat.zero_le 2, hone, hpushed⟩

end Sys2Proof.Machine
end

section
/-! Encodings (`30_encoding.md`): an accepted operation word is its operation's own word, the records and the data word
give back their fields, and the operands that two queued pulses make are exact. -/

namespace Sys2Proof

/-! ## Codes -/

@[simp] theorem IdleMode.code_ofCode : ∀ c : BitVec 2, (IdleMode.ofCode c).code = c := by decide

theorem IdleMode.wf_iff (mode : IdleMode) : mode.wf = true ↔ mode ≠ .reserved := by cases mode <;> decide

@[simp] theorem Direction.code_ofCode : ∀ c : BitVec 1, (Direction.ofCode c).code = c := by decide

@[simp] theorem Direction.ofCode_code (d : Direction) : Direction.ofCode d.code = d := by cases d <;> rfl

@[simp] theorem Symbol.ofCode_code (sym : Symbol) : Symbol.ofCode sym.code = some sym := by cases sym <;> rfl

theorem Symbol.toInstr_id (sym : Symbol) : sym.toInstr.id = (1 : BitVec 1) ++ sym.code := by cases sym <;> rfl

theorem Symbol.ofCode_eq_none_iff : ∀ c : BitVec 3, Symbol.ofCode c = none ↔ c = 6 ∨ c = 7 := by decide

/-! ## What an accepted word holds -/

/-- `i` is well-formed, and the fields of its word are this identifier, this operand nibble and this payload. -/
abbrev Instr.Holds (i : Instr) (id : Nat) (nibble : BitVec 4) (payload : BitVec 64) : Prop :=
  i.wf = true ∧ i.id.toNat = id ∧ i.nibble = nibble ∧ i.payload = payload

theorem decodePlain_holds {nibble : BitVec 4} {payload : BitVec 64} {i j : Instr} (hwf : i.wf = true)
    (hnibble : i.nibble = 0) (hpayload : i.payload = 0) (h : decodePlain nibble payload i = .ok j) :
    j.Holds i.id.toNat nibble payload := by
  unfold decodePlain at h
  split at h
  case isTrue hzero =>
    obtain ⟨rfl, rfl⟩ := hzero
    cases h
    exact ⟨hwf, rfl, hnibble, hpayload⟩
  case isFalse => cases h

/-- The idle mode read back fills the nibble again, since the two bits above it are zero (rule R73, log 3). -/
theorem decodeEdgeInit_holds {nibble : BitVec 4} {payload : BitVec 64} {j : Instr}
    (h : decodeEdgeInit nibble payload = .ok j) : j.Holds 0 nibble payload := by
  unfold decodeEdgeInit at h
  split at h
  case isTrue hpadding =>
    have hnibble : (0 : BitVec 2) ++ (IdleMode.ofCode (nibble.extractLsb' 0 2)).code = nibble := by
      rw [IdleMode.code_ofCode, ← hpadding]
      exact BitVec.extractLsb'_append_extractLsb'
    split at h
    case h_1 => cases h
    case h_2 mode hmode =>
      cases h
      exact ⟨(IdleMode.wf_iff _).mpr hmode, rfl, hnibble, rfl⟩
  case isFalse => cases h

/-- The direction read back fills the nibble again, since the three bits above it are zero (rule R72, log 3). -/
theorem decodeCapture_holds {nibble : BitVec 4} {payload : BitVec 64} {j : Instr}
    (h : decodeCapture nibble payload = .ok j) : j.Holds 1 nibble payload := by
  unfold decodeCapture at h
  split at h
  case isTrue hzero =>
    obtain ⟨hpadding, rfl⟩ := hzero
    have hnibble : (0 : BitVec 3) ++ (Direction.ofCode (nibble.extractLsb' 0 1)).code = nibble := by
      rw [Direction.code_ofCode, ← hpadding]
      exact BitVec.extractLsb'_append_extractLsb'
    cases h
    exact ⟨rfl, rfl, hnibble, rfl⟩
  case isFalse => cases h

theorem decodeAlarmFire_holds {nibble : BitVec 4} {payload : BitVec 64} {j : Instr}
    (h : decodeAlarmFire nibble payload = .ok j) : j.Holds 6 nibble payload := by
  unfold decodeAlarmFire at h
  split at h
  case isTrue hzero =>
    cases hzero
    cases h
    exact ⟨rfl, rfl, rfl, rfl⟩
  case isFalse => cases h

/-- An accepted word holds the identifier and the operands of the operation it decodes to. -/
theorem decode_holds {w : OpWord} {i : Instr} (h : decode w = .ok i) :
    i.Holds (w.extractLsb' 0 4).toNat (w.extractLsb' 4 4) (w.extractLsb' 8 64) := by
  unfold decode at h
  dsimp only at h
  split at h
  case h_14 => cases h
  all_goals rename_i hid; rw [hid]
  case h_1 => exact decodeEdgeInit_holds h
  case h_2 => exact decodeCapture_holds h
  case h_7 => exact decodeAlarmFire_holds h
  all_goals exact decodePlain_holds rfl rfl rfl h

/-- A word is its payload, its operand nibble and its identifier. -/
theorem opWord_eq_fields (w : OpWord) : w.extractLsb' 8 64 ++ w.extractLsb' 4 4 ++ w.extractLsb' 0 4 = w := by
  have hoperands : w.extractLsb' 8 64 ++ w.extractLsb' 4 4 = w.extractLsb' 4 68 :=
    BitVec.extractLsb'_append_extractLsb'_eq_extractLsb' rfl
  rw [hoperands]
  exact BitVec.extractLsb'_append_extractLsb'

/-- The decoder accepts exactly the words of the well-formed instructions, each as its instruction. -/
theorem decode_eq_ok_iff {w : OpWord} {i : Instr} : decode w = .ok i ↔ i.wf = true ∧ encode i = w := by
  constructor
  · intro h
    obtain ⟨hwf, hid, hnibble, hpayload⟩ := decode_holds h
    refine ⟨hwf, ?_⟩
    rw [encode, BitVec.eq_of_toNat_eq hid, hnibble, hpayload]
    exact opWord_eq_fields w
  · rintro ⟨hwf, rfl⟩
    exact decode_encode hwf

/-- Settles O58: the two directions of `decode_eq_ok_iff`. -/
theorem encodingRoundTrips : Obligations.EncodingRoundTrips :=
  ⟨fun _ => decode_encode, fun _ _ => decode_eq_ok_iff.mp⟩

/-- Settles O60: an accepted word is the encoding of its operation; the rejected ones are evaluated. -/
theorem tableWordsDecode : Obligations.TableWordsDecode := by
  have accepts {w : OpWord} (i : Instr) (h : i.wf = true ∧ encode i = w) : decode w = .ok i := decode_eq_ok_iff.mpr h
  exact ⟨accepts (.edgeInit 0 .low) (by decide), accepts (.edgeInit 0 .high) (by decide),
    accepts (.edgeInit 0 .auto) (by decide), by decide, accepts (.capture .falling) (by decide),
    accepts (.capture .rising) (by decide), accepts .pulseInit (by decide), accepts .drain (by decide),
    accepts .decInit (by decide), accepts .process (by decide), accepts (.alarmFire 1) (by decide),
    accepts .invalid (by decide), accepts .zero (by decide), accepts .one (by decide), accepts .start (by decide),
    accepts .repeatSym (by decide), accepts .endSym (by decide), by decide, by decide, by decide⟩

/-! ## Records -/

@[simp] theorem Edge.encode_timestamp (e : Edge) : e.encode.extractLsb' 0 64 = e.timestamp :=
  BitVec.extractLsb'_append_eq_right

@[simp] theorem Edge.encode_direction (e : Edge) : e.encode.extractLsb' 64 1 = e.direction.code :=
  BitVec.extractLsb'_append_eq_left

@[simp] theorem Edge.decode_encode (e : Edge) : Edge.decode e.encode = e := by
  rw [Edge.decode, Edge.encode_timestamp, Edge.encode_direction, Direction.ofCode_code]

/-- Bit 64 of an edge's record is its direction (rule R71). -/
theorem Edge.encode_bit64_iff (e : Edge) : e.encode.getLsbD 64 = true ↔ e.direction = .rising := by
  have hbit : e.encode.getLsbD 64 = e.direction.code.getLsbD 0 := by
    rw [← Edge.encode_direction, BitVec.getLsbD_extractLsb']
    rfl
  rw [hbit]
  cases e.direction <;> decide

@[simp] theorem Pulse.encode_start (p : Pulse) : p.encode.extractLsb' 32 64 = p.start :=
  BitVec.extractLsb'_append_eq_left

@[simp] theorem Pulse.encode_duration (p : Pulse) : p.encode.extractLsb' 0 32 = p.duration :=
  BitVec.extractLsb'_append_eq_right

@[simp] theorem Pulse.decode_encode (p : Pulse) : Pulse.decode p.encode = p := by
  rw [Pulse.decode, Pulse.encode_start, Pulse.encode_duration]

/-- Settles O59: record by record and code by code. -/
theorem recordFormatsRoundTrip : Obligations.RecordFormatsRoundTrip :=
  ⟨fun e => ⟨e.decode_encode, e.encode_timestamp, e.encode_bit64_iff⟩,
    fun p => ⟨p.decode_encode, p.encode_start, p.encode_duration⟩,
    fun sym => ⟨sym.ofCode_code, sym.toInstr_id⟩, Symbol.ofCode_eq_none_iff⟩

/-! ## The bytes of a data word -/

@[simp] theorem necWord_address (address command : Byte) : DataWord.address (necWord address command) = address :=
  BitVec.extractLsb'_append_eq_right

@[simp] theorem necWord_addressComplement (address command : Byte) :
    DataWord.addressComplement (necWord address command) = ~~~address :=
  (BitVec.extractLsb'_append_eq_of_le (Nat.le_refl 8)).trans BitVec.extractLsb'_append_eq_right

@[simp] theorem necWord_command (address command : Byte) : DataWord.command (necWord address command) = command :=
  (BitVec.extractLsb'_append_eq_of_le (by decide : 8 ≤ 16)).trans <|
    (BitVec.extractLsb'_append_eq_of_le (Nat.le_refl 8)).trans BitVec.extractLsb'_append_eq_right

@[simp] theorem necWord_commandComplement (address command : Byte) :
    DataWord.commandComplement (necWord address command) = ~~~command :=
  (BitVec.extractLsb'_append_eq_of_le (by decide : 8 ≤ 24)).trans <|
    (BitVec.extractLsb'_append_eq_of_le (by decide : 8 ≤ 16)).trans BitVec.extractLsb'_append_eq_left

end Sys2Proof

namespace Sys2Proof.Machine

open Sys2Proof.Safety

theorem necWord_complementsValid (address command : Byte) : complementsValid (necWord address command) = true := by
  have haddress : DataWord.address (necWord address command) =
      ~~~DataWord.addressComplement (necWord address command) := by
    rw [necWord_address, necWord_addressComplement, BitVec.not_not]
  have hcommand : DataWord.command (necWord address command) =
      ~~~DataWord.commandComplement (necWord address command) := by
    rw [necWord_command, necWord_commandComplement, BitVec.not_not]
  exact (complementsValid_iff _).mpr ⟨haddress, hcommand⟩

/-- Settles O35: the four bytes, and each complement's complement is its byte. -/
theorem sentWordCarriesItsBytes : Obligations.SentWordCarriesItsBytes := fun address command =>
  ⟨necWord_address address command, necWord_command address command, necWord_addressComplement address command,
    necWord_commandComplement address command, necWord_complementsValid address command⟩

/-! ## Mark and space -/

/-- Where the pulse ends within range, the 64-bit sum is that end (rule R81 line 3). -/
theorem markEnd_toNat {cur : Pulse} (h : pulseEnd cur < 2 ^ 64) : (markEnd cur).toNat = pulseEnd cur := by
  have hdur : (cur.duration.setWidth cfg.tsWidth).toNat = cur.duration.toNat :=
    BitVec.toNat_setWidth_of_le (by decide)
  rw [markEnd, BitVec.toNat_add, hdur]
  exact Nat.mod_eq_of_lt h

/-- Where the pulse ends by the next start, the space is the difference of the two (rule R81 line 4). -/
theorem spaceOf_toNat {cur next : Pulse} (h : pulseEnd cur ≤ next.start.toNat) :
    (spaceOf cur next).toNat = next.start.toNat - pulseEnd cur := by
  have hmark : (markEnd cur).toNat = pulseEnd cur := markEnd_toNat (h.trans_lt next.start.isLt)
  rw [spaceOf, BitVec.toNat_sub_of_le (BitVec.le_def.mpr (hmark.trans_le h)), hmark]

/-- The first queued pulse ends before the second one starts (rules R79, R95). -/
theorem pulseEnd_lt_next_start {s : State} {cur next : Pulse} {rest : List Pulse} (h : Inv s)
    (hq : s.pulseQ = cur :: next :: rest) : pulseEnd cur < next.start.toNat := by
  obtain ⟨-, hpulses, -⟩ := h.queuesInTime
  rw [hq] at hpulses
  exact List.rel_of_pairwise_cons hpulses (List.mem_cons_self ..)

/-- Settles O17: the order of the queued pulses keeps both operations in range. -/
theorem spaceNeverWraps : Obligations.SpaceNeverWraps := by
  intro s cur next rest hinv hq
  have hlt : pulseEnd cur < next.start.toNat := pulseEnd_lt_next_start hinv hq
  rw [spaceOf_toNat hlt.le]
  refine ⟨markEnd_toNat (hlt.trans next.start.isLt), ?_, ?_⟩
  · exact Nat.sub_add_cancel hlt.le
  · exact Nat.sub_pos_of_lt hlt

/-- The space to a start `gap` later does not depend on where the pulse starts. -/
theorem spaceOf_later_start (t gap : Time) (mark d : Duration) :
    spaceOf ⟨t, mark⟩ ⟨t + gap, d⟩ = gap - mark.setWidth cfg.tsWidth := add_sub_add_left_eq_sub _ _ _

/-- The symbol of a pulse and its successor is a matter of the pulse's length and the distance of the two starts. -/
theorem symbolOf_later_start (t gap : Time) (mark d : Duration) :
    symbolOf ⟨t, mark⟩ ⟨t + gap, d⟩ = classify mark (gap - mark.setWidth cfg.tsWidth) := by
  rw [symbolOf, spaceOf_later_start, markOf]

/-- Settles O18: with the start cancelled, which it does even where it wraps, each macro is one mark and one space. -/
theorem macrosClassifyAsNamed : Obligations.MacrosClassifyAsNamed := by
  intro t d _
  simp only [symbolOf_later_start]
  decide

end Sys2Proof.Machine
end

section
/-! The Edge Receiver (`40_edge_receiver.md`): `EDGE_INIT` with an explicit level and with `Auto`, how a calibration waits
and ends, and the capture of every change of the pin. -/

namespace Sys2Proof.Machine

/-! ## `EDGE_INIT` -/

section
variable {s : State}

/-- Between two operations, a first `EDGE_INIT` writes an explicit level at once, begins to calibrate with `Auto`, and
is refused with the reserved mode (rules R90 to R92, R73). -/
theorem exec_edgeInit_first (pin : Pin) (hp : s.poll = .idle) (hi : s.erInit = false) :
    exec (.edgeInit pin .low) s = .next (finishEdgeInit .low s) ∧
    exec (.edgeInit pin .high) s = .next (finishEdgeInit .high s) ∧
    exec (.edgeInit pin .auto) s = .next (s.setPoll (.calibrate s.time)) ∧
    exec (.edgeInit pin .reserved) s = .refused .reservedIdleMode := by
  simp only [exec, execEdgeInit, whenPollIdle_eq _ hp, hi, Bool.false_eq_true, if_false, and_self]

/-- Where POLL is between two operations, it stays there. -/
theorem finishEdgeInit_of_idle (l : Level) (hp : s.poll = .idle) : finishEdgeInit l s = { s with
    erIdleLevel := l, edgeQ := [], erEnabled := true, erInit := true,
    trace := s.trace ++ [⟨s.time, .poll, .edgeInitOk l⟩] } := by
  rw [finishEdgeInit, ← hp]
  rfl

/-- Settles O3: an explicit level is written at once, and POLL is between two operations again. -/
theorem edgeInitExplicitCompletes : Obligations.EdgeInitExplicitCompletes := by
  intro pin s hp hi
  obtain ⟨hlow, hhigh, -, -⟩ := exec_edgeInit_first pin hp hi
  rw [hlow, hhigh, finishEdgeInit_of_idle .low hp, finishEdgeInit_of_idle .high hp]
  exact ⟨rfl, rfl⟩

/-- Settles O4: of the two remaining modes one begins to calibrate, the other is refused. -/
theorem edgeInitAutoBegins : Obligations.EdgeInitAutoBegins := by
  intro pin s hp hi
  obtain ⟨-, -, hauto, hreserved⟩ := exec_edgeInit_first pin hp hi
  exact ⟨hauto, hreserved⟩

/-! ## The end of a calibration -/

/-- Both ways to end a calibration as one: whichever of its two bounds comes first (rule R92). -/
theorem calibrationEnd_eq_min (t0 : Time) (s : State) :
    calibrationEnd t0 s = min (stableSince t0 s + 30000) (t0.toNat + 1000000) := by
  by_cases h : calibrationSucceeds t0 s = true
  · rw [calibrationEnd_of_success h, Nat.min_eq_left ((calibrationSucceeds_iff t0 s).mp h)]
  · rw [calibrationEnd_of_failure h, Nat.min_eq_right]
    exact (Nat.lt_of_not_le (mt (calibrationSucceeds_iff t0 s).mpr h)).le

theorem calibrationStep_of_waits {t0 : Time} (h : s.time.toNat < calibrationEnd t0 s) : calibrationStep t0 s = s :=
  if_pos ((calibrationWaits_iff t0 s).mpr h)

theorem calibrationStep_of_ended {t0 : Time} (h : calibrationEnd t0 s ≤ s.time.toNat) :
    calibrationStep t0 s = endCalibration t0 s :=
  if_neg (fun hw => absurd ((calibrationWaits_iff t0 s).mp hw) (Nat.not_lt.mpr h))

/-- The level held is the result (rules R90, R92). -/
theorem endCalibration_of_success {t0 : Time} (h : stableSince t0 s + 30000 ≤ t0.toNat + 1000000) :
    endCalibration t0 s = finishEdgeInit s.irIn s := if_pos ((calibrationSucceeds_iff t0 s).mpr h)

/-- `CalibrationTimeout` is raised (rules R92, R151). -/
theorem endCalibration_of_failure {t0 : Time} (h : t0.toNat + 1000000 < stableSince t0 s + 30000) :
    endCalibration t0 s = raiseCalibrationTimeout s :=
  if_neg (fun hs => absurd ((calibrationSucceeds_iff t0 s).mp hs) (Nat.not_le.mpr h))

/-! ## POLL and ENV during a calibration -/

theorem alarmHoldsLock_eq_false (h : s.decInit = true → s.ds.lock ≠ .heldByAlarm) : alarmHoldsLock s = false := by
  rw [Bool.eq_false_iff, Ne, alarmHoldsLock_iff]
  exact fun ⟨hd, hl⟩ => h hd hl

section
variable {t0 t : Time} (hp : s.poll = .calibrate t0) (ha : alarmHoldsLock s = false)
include hp ha

theorem pollStep_of_calibrating : pollStep s = .next (calibrationStep t0 s) := by
  rw [pollStep, ha, if_neg Bool.false_ne_true, hp]

theorem pollWaits_of_calibrating : pollWaits s = calibrationWaits t0 s := by
  rw [pollWaits, ha, hp, Bool.false_or]

theorem calibrationEndBefore_of_calibrating (hlt : calibrationEnd t0 s < t.toNat) :
    calibrationEndBefore t s = some (calibrationEnd t0 s) := by
  rw [calibrationEndBefore, ha, if_neg Bool.false_ne_true, hp]
  exact if_pos hlt

/-- On its way beyond the end of a calibration ENV stops there, and its turn stays scheduled. -/
theorem takeTime_before_calibrationEnd {tEnd : Time} (waiting : State) (hend : calibrationEnd t0 s = tEnd.toNat)
    (hlt : tEnd.toNat < t.toNat) (hw : s.time.toNat < tEnd.toNat) :
    takeTime t s waiting = advanceTime tEnd waiting := by
  have hwaits : calibrationWaits t0 s = true := (calibrationWaits_iff t0 s).mpr (hw.trans_eq hend.symm)
  rw [takeTime, calibrationEndBefore_of_calibrating hp ha (hend.trans_lt hlt), pollWaits_of_calibrating hp ha, hwaits,
    hend]
  dsimp only
  rw [if_pos rfl, BitVec.ofNat_toNat, BitVec.setWidth_eq]

/-- At the end of a calibration POLL takes its step before ENV goes on. -/
theorem takeTime_at_calibrationEnd (waiting : State) (hlt : calibrationEnd t0 s < t.toNat)
    (hge : calibrationEnd t0 s ≤ s.time.toNat) : takeTime t s waiting = pollStep waiting := by
  rw [takeTime, calibrationEndBefore_of_calibrating hp ha hlt, pollWaits_of_calibrating hp ha]
  exact if_neg (fun hw => absurd ((calibrationWaits_iff t0 s).mp hw) (Nat.not_lt.mpr hge))

end

/-! ## A step by its next turn -/

section
variable {rest : List Turn} (hr : timeInRange s.time = true)
include hr

theorem step_of_no_turn (ht : s.turns = []) : step s = pollStep s := by
  rw [step_eq hr, takeTurn, ht]

theorem step_of_time_turn {t : Time} (ht : s.turns = .time t :: rest) : step s = takeTime t (s.setTurns rest) s := by
  rw [step_eq hr, takeTurn, ht]

theorem step_of_level_turn {l : Level} (ht : s.turns = .level l :: rest) : step s = drivePin l (s.setTurns rest) := by
  rw [step_eq hr, takeTurn, ht]

end

/-- Settles O5: `tEnd` is the model's own end of the calibration. Before it POLL waits and ENV stops there; at it both
turns give POLL its step, which ends the calibration by the bound that comes first. -/
theorem calibrationEndsAsStated : Obligations.CalibrationEndsAsStated := by
  intro s t0 tEnd since hr hrEnd hp hlock hsince hmin
  have ha : alarmHoldsLock s = false := alarmHoldsLock_eq_false hlock
  have hstable : stableSince t0 s = since := by
    rcases hsince with ⟨hnone, rfl⟩ | ⟨t, hsome, rfl⟩
    · exact stableSince_of_none hnone
    · exact stableSince_of_some hsome
  have hend : calibrationEnd t0 s = tEnd.toNat := by rw [calibrationEnd_eq_min, hstable, hmin]
  refine ⟨fun hturns hw => ?_, fun t rest hturns hlt hw => ?_, fun hturns htime => ?_⟩
  · rw [step_of_no_turn hr hturns, pollStep_of_calibrating hp ha, calibrationStep_of_waits (hend ▸ hw)]
  · rw [step_of_time_turn hr hturns, takeTime_before_calibrationEnd (s := s.setTurns rest) hp ha s hend hlt hw]
    exact advanceTime_of_legal hw.le hrEnd
  · subst htime
    have hpoll : step s = pollStep s := by
      rcases hturns with hnil | ⟨t, rest, hturn, hlt⟩
      · exact step_of_no_turn hr hnil
      · rw [step_of_time_turn hr hturn]
        exact takeTime_at_calibrationEnd (s := s.setTurns rest) hp ha s (hend.trans_lt hlt) hend.le
    rw [hpoll, pollStep_of_calibrating hp ha, calibrationStep_of_ended hend.le, ← hstable]
    refine ⟨fun hsuccess => ?_, fun hfailure => ?_⟩
    · rw [endCalibration_of_success hsuccess]
      rfl
    · rw [endCalibration_of_failure hfailure]
      rfl

/-! ## `CAPTURE` -/

theorem exec_capture_of_room {d : Direction} (hen : s.erEnabled = true) (hroom : s.edgeQ.length < 128) :
    exec (.capture d) s = .next (s.setEdgeQ (s.edgeQ ++ [⟨s.time, d⟩])) := by
  rw [exec, execCapture_eq, if_pos hen, qTryPush_of_room _ hroom]

/-- A full queue loses the edge (rule R94). -/
theorem exec_capture_of_full {d : Direction} (hen : s.erEnabled = true) (hfull : 128 ≤ s.edgeQ.length) :
    exec (.capture d) s = .next s := by
  rw [exec, execCapture_eq, if_pos hen, qTryPush_of_full _ hfull]
  rfl

/-- Before `EDGE_INIT` nothing is captured (rule R93). -/
theorem exec_capture_of_disabled {d : Direction} (hen : s.erEnabled = false) : exec (.capture d) s = .next s :=
  if_neg (Bool.eq_false_iff.mp hen)

/-- Settles O9: room, a full queue, the interrupt not enabled. -/
theorem captureCompletes : Obligations.CaptureCompletes :=
  fun _ _ => ⟨exec_capture_of_room, exec_capture_of_full, exec_capture_of_disabled⟩

/-- The three cases of `CAPTURE` as one queue. -/
theorem exec_capture_eq (d : Direction) (s : State) :
    exec (.capture d) s = .next (s.setEdgeQ
      (if s.erEnabled = true ∧ s.edgeQ.length < 128 then s.edgeQ ++ [⟨s.time, d⟩] else s.edgeQ)) := by
  split
  case isTrue h =>
    obtain ⟨hen, hroom⟩ := h
    exact exec_capture_of_room hen hroom
  case isFalse h =>
    cases hen : s.erEnabled with
    | false => exact exec_capture_of_disabled hen
    | true => exact exec_capture_of_full hen (Nat.le_of_not_lt fun hroom => h ⟨hen, hroom⟩)

/-! ## A change of the pin -/

theorem toDirection_eq_ite (l : Level) : l.toDirection = if l = .high then .rising else .falling := by cases l <;> rfl

theorem drivePin_of_same_level {l : Level} (h : s.irIn = l) : drivePin l s = .next s := if_pos h

theorem drivePin_of_change {l : Level} (hne : s.irIn ≠ l)
    (hlegal : s.erEnabled = true → ∀ t, s.lastCapture = some t → t.toNat < s.time.toNat) :
    drivePin l s = exec (.capture l.toDirection) (s.setPin l) := by
  rw [drivePin, if_neg hne, changePin_of_legal hlegal]

/-- Settles O10: no change takes the turn alone; a change is noted, and captured by one `CAPTURE` of its direction. -/
theorem pinChangeIsCapturedOnce : Obligations.PinChangeIsCapturedOnce := by
  intro s l rest hr hturns
  rw [step_of_level_turn hr hturns]
  refine ⟨fun hsame => drivePin_of_same_level (s := s.setTurns rest) hsame, fun hne hlegal => ?_⟩
  rw [drivePin_of_change (s := s.setTurns rest) hne hlegal, exec_capture_eq, toDirection_eq_ite]
  rfl

end

end Sys2Proof.Machine
end

section
/-! The Pulse Detector (`41_pulse_detector.md`): its initialisation and the decoder's, one iteration of `DRAIN` case by
case, a capture on either side of it, the loop of `DRAIN` on the machine, and the pulses that loop emits. -/

namespace Sys2Proof.Machine

open Sys2Proof.Safety

/-! ## The operations between two operations of POLL -/

section
variable {s : State} (hp : s.poll = .idle)
include hp

theorem setPoll_idle_of_idle : s.setPoll .idle = s := by
  rw [← hp]
  rfl

theorem exec_pulseInit_first (hi : s.pdInit = false) :
    exec .pulseInit s = .next { s with pulseQ := [], pdInit := true } := by
  rw [exec, execPulseInit, whenPollIdle_eq _ hp, if_neg (Bool.eq_false_iff.mp hi)]

theorem exec_decInit_first (hi : s.decInit = false) (hpd : s.pdInit = true) :
    exec .decInit s = .next { s with ds := initialDecoderState, alarms := [], decInit := true } := by
  rw [exec, execDecInit, whenPollIdle_eq _ hp, if_neg (Bool.eq_false_iff.mp hi), if_pos hpd]

theorem exec_drain (her : s.erInit = true) (hpd : s.pdInit = true) : exec .drain s = .next (drainIteration s) := by
  rw [exec, execDrain, whenPollIdle_eq _ hp, her, hpd]
  rfl

end

/-- Settles O6: neither initialisation has run before, and the one DEC_INIT needs has. -/
theorem queueAndDecoderInitComplete : Obligations.QueueAndDecoderInitComplete :=
  fun _ hp => ⟨exec_pulseInit_first hp, exec_decInit_first hp⟩

/-! ## One iteration of `DRAIN` -/

section
variable {s : State}

theorem drainIteration_of_few (hfew : s.edgeQ.length < 2) : drainIteration s = s.setPoll .idle := by
  unfold drainIteration
  match hq : s.edgeQ with
  | [] => rfl
  | [_] => rfl
  | _ :: _ :: _ => simp [hq] at hfew

/-- A full pulse queue stops the loop before anything is popped (rule R104). -/
theorem drainIteration_of_full (hfull : s.pulseQ.length = 32) : drainIteration s = s.setPoll .idle := by
  match hq : s.edgeQ with
  | [] | [_] => exact drainIteration_of_few (by simp [hq])
  | _ :: _ :: _ => simp [drainIteration, hq, hfull]

variable {first second : Edge} {rest : List Edge} (hq : s.edgeQ = first :: second :: rest) (hroom : s.pulseQ.length < 32)
include hq hroom

/-- A first edge that matches the idle level is dropped alone (rule R102). -/
theorem drainIteration_drop (hm : first.direction.toLevel = s.erIdleLevel) :
    drainIteration s = (s.setEdgeQ (second :: rest)).setPoll .drain := by
  simp [drainIteration, hq, hroom.ne, matchesIdle, hm]

/-- Any other first edge makes a pulse with the edge behind it, whatever that one's direction (rules R103 and R107). -/
theorem drainIteration_pair (hm : first.direction.toLevel ≠ s.erIdleLevel) :
    drainIteration s = ((s.setEdgeQ rest).setPulseQ (s.pulseQ ++ [pulseOf first second])).setPoll .drain := by
  simp [drainIteration, hq, hroom.ne, matchesIdle, hm, qTryPush_of_room _ hroom]

end

/-- Settles O12: the two stops and the two ways to take edges. -/
theorem drainIterationCompletes : Obligations.DrainIterationCompletes := by
  intro s hp her hpd
  rw [exec_drain hp her hpd]
  refine ⟨fun hfew => ?_, fun hfull => ?_, fun first second rest hq hroom => ⟨fun hm => ?_, fun hm => ?_⟩⟩
  · rw [drainIteration_of_few hfew, setPoll_idle_of_idle hp]
  · rw [drainIteration_of_full hfull, setPoll_idle_of_idle hp]
  · rw [drainIteration_drop hq hroom hm]
    rfl
  · rw [drainIteration_pair hq hroom hm]
    rfl

/-! ## A capture before or after an iteration -/

/-- With two edges queued and room on both sides, a capture after the iteration leads where the iteration leads after
the capture: the new edge goes behind those the iteration looks at (rule R105). -/
theorem exec_capture_drainIteration {s : State} {d : Direction} (hen : s.erEnabled = true) (htwo : 2 ≤ s.edgeQ.length)
    (hedges : s.edgeQ.length < 128) (hroom : s.pulseQ.length < 32) :
    exec (.capture d) (drainIteration s) =
      .next (drainIteration (s.setEdgeQ (s.edgeQ ++ [⟨s.time, d⟩]))) := by
  match hq : s.edgeQ with
  | [] | [_] => simp [hq] at htwo
  | first :: second :: rest =>
    have hq' : (s.setEdgeQ (first :: second :: rest ++ [⟨s.time, d⟩])).edgeQ =
      first :: second :: (rest ++ [⟨s.time, d⟩]) := rfl
    have hrest : rest.length + 2 < 128 := by simpa [hq] using hedges
    by_cases hm : first.direction.toLevel = s.erIdleLevel
    · rw [drainIteration_drop hq hroom hm, drainIteration_drop hq' hroom hm]
      exact exec_capture_of_room hen (Nat.lt_of_succ_lt hrest)
    · rw [drainIteration_pair hq hroom hm, drainIteration_pair hq' hroom hm]
      exact exec_capture_of_room hen (Nat.lt_of_add_right_lt hrest)

/-- Settles O45: both orders end in the iteration of the queue with the new edge. -/
theorem captureCommutesWithDrain : Obligations.CaptureCommutesWithDrain := by
  intro s t u d hen htwo hedges hroom hdrain hcapture
  obtain ⟨hp, her, hpd, rfl⟩ := execDrain_next hdrain
  obtain rfl : s.setEdgeQ (s.edgeQ ++ [⟨s.time, d⟩]) = u := by
    rw [exec_capture_of_room hen hedges] at hcapture
    exact Host.Outcome.next.inj hcapture
  exact ⟨_, exec_capture_drainIteration hen htwo hedges hroom,
    exec_drain (s := s.setEdgeQ (s.edgeQ ++ [⟨s.time, d⟩])) hp her hpd⟩

/-! ## The loop of `DRAIN`, call by call -/

section
variable {idle : Level} {es : List Edge} {ps : List Pulse} {first second : Edge} {rest : List Edge}

/-- The edges of the loop's last case. -/
theorem length_lt_two_of_shape (h : ∀ first second rest, es = first :: second :: rest → False) : es.length < 2 := by
  match es with
  | [] | [_] => simp
  | first :: second :: rest => exact (h first second rest rfl).elim

theorem drainCall_of_few (hfew : es.length < 2) : drainCall idle es ps = (es, ps) := by
  match es with
  | [] | [_] => rfl
  | _ :: _ :: _ => simp at hfew

theorem drainCall_of_full (hfull : ps.length = 32) :
    drainCall idle (first :: second :: rest) ps = (first :: second :: rest, ps) := if_pos hfull

theorem drainCall_drop (hne : ps.length ≠ 32) (hm : first.direction.toLevel = idle) :
    drainCall idle (first :: second :: rest) ps = drainCall idle (second :: rest) ps := by
  rw [drainCall, if_neg hne, if_pos hm]

theorem drainCall_pair (hne : ps.length ≠ 32) (hm : first.direction.toLevel ≠ idle) :
    drainCall idle (first :: second :: rest) ps = drainCall idle rest (ps ++ [pulseOf first second]) := by
  rw [drainCall, if_neg hne, if_neg hm]
  rfl

end

/-! ## The loop of `DRAIN` on the machine -/

/-- `s` with the queues and the phase that an iteration of `DRAIN` leaves. -/
def withQueues (s : State) (p : PollPhase) (q : List Edge × List Pulse) : State :=
  { s with edgeQ := q.1, pulseQ := q.2, poll := p }

section
variable {s : State} (hr : timeInRange s.time = true) (ht : s.turns = []) (ha : alarmHoldsLock s = false)
include hr ht ha

/-- Inside `DRAIN`, with no turn left, the step is the next iteration (rule R101). -/
theorem step_of_draining (hp : s.poll = .drain) : step s = .next (drainIteration s) := by
  rw [step_of_no_turn hr ht, pollStep, ha, if_neg Bool.false_ne_true, hp]

/-- One iteration and those that follow it, by the recursion of the loop: each of its calls is one step. The step before,
from `u`, is the word's or the loop's own. -/
theorem run_drain (es : List Edge) (ps : List Pulse) (p : PollPhase) (u : State) (hps : ps.length ≤ 32)
    (hu : step u = .next (drainIteration (withQueues s p (es, ps)))) :
    ∃ n ≤ es.length + 1, run n u = .next (withQueues s .idle (drainCall s.erIdleLevel es ps)) := by
  induction es, ps using drainCall.induct (idle := s.erIdleLevel) generalizing p u with
  | case1 first second rest ps hfull =>
    rw [drainIteration_of_full hfull] at hu
    rw [drainCall_of_full hfull]
    exact ⟨1, Nat.le_add_left .., run_succ_next hu⟩
  | case2 first second rest ps hne hm ih =>
    rw [drainIteration_drop (s := withQueues s p (_, _)) rfl (hps.lt_of_ne hne) hm] at hu
    obtain ⟨n, hn, hrun⟩ := ih .drain _ hps (step_of_draining hr ht ha rfl)
    rw [drainCall_drop hne hm]
    exact ⟨n + 1, Nat.succ_le_succ hn, (run_succ_next hu).trans hrun⟩
  | case3 first second rest ps hne hm ih =>
    have hroom : ps.length < 32 := hps.lt_of_ne hne
    rw [drainIteration_pair (s := withQueues s p (_, _)) rfl hroom hm] at hu
    obtain ⟨n, hn, hrun⟩ := ih .drain _ (by simpa using hroom) (step_of_draining hr ht ha rfl)
    rw [drainCall_pair hne hm]
    exact ⟨n + 1, Nat.succ_le_succ (Nat.le_succ_of_le hn), (run_succ_next hu).trans hrun⟩
  | case4 es ps hshape =>
    have hfew : es.length < 2 := length_lt_two_of_shape hshape
    rw [drainIteration_of_few hfew] at hu
    rw [drainCall_of_few hfew]
    exact ⟨1, Nat.le_add_left .., run_succ_next hu⟩

end

/-- Settles O13: the word's step is the first iteration of the loop. -/
theorem drainRunsToItsEnd : Obligations.DrainRunsToItsEnd := by
  intro s hr hp her hpd ht hlock hps
  have ha : alarmHoldsLock s = false := alarmHoldsLock_eq_false hlock
  have hfirst : step { s with turns := [.op (encode .drain)] } = .next (drainIteration s) := by
    have hself : { s with turns := [.op (encode .drain)] }.setTurns [] = s := by
      rw [← ht]
      rfl
    rw [step_request (s := { s with turns := [.op (encode .drain)] }) (i := .drain) hr rfl rfl, hself,
      takeOperation_pollOperation_free rfl hp ha, exec_drain hp her hpd]
  obtain ⟨n, hn, hrun⟩ := run_drain hr ht ha s.edgeQ s.pulseQ s.poll _ hps hfirst
  refine ⟨n, hn, hrun.trans ?_⟩
  rw [withQueues, ← hp]

/-! ## The pulses of the loop -/

/-- `p` spans two adjacent edges of `es`, the first leaving the idle level and the second returning to it (rule R106). -/
def ActiveInterval (idle : Level) (es : List Edge) (p : Pulse) : Prop :=
  ∃ pre first second post, es = pre ++ first :: second :: post ∧
    first.direction.toLevel ≠ idle ∧ second.direction.toLevel = idle ∧ p = pulseOf first second

theorem ActiveInterval.append_left {idle : Level} {es : List Edge} {p : Pulse} (h : ActiveInterval idle es p)
    (front : List Edge) : ActiveInterval idle (front ++ es) p := by
  obtain ⟨pre, first, second, post, rfl, hspan⟩ := h
  exact ⟨front ++ pre, first, second, post, (List.append_assoc ..).symm, hspan⟩

/-- There are two levels, so of two different directions one leads to the idle level. -/
theorem toLevel_eq_of_ne {a b : Direction} {idle : Level} (hne : a ≠ b) (ha : a.toLevel ≠ idle) : b.toLevel = idle := by
  cases a <;> cases b
  case rising.rising | falling.falling => exact absurd rfl hne
  case rising.falling =>
    cases idle with
    | low => rfl
    | high => exact absurd rfl ha
  case falling.rising =>
    cases idle with
    | low => exact absurd rfl ha
    | high => rfl

theorem drainCall_adds_activeIntervals (idle : Level) (es : List Edge) (ps : List Pulse)
    (halt : es.IsChain (fun a b => a.direction ≠ b.direction)) :
    ∃ added, (drainCall idle es ps).2 = ps ++ added ∧ ∀ p ∈ added, ActiveInterval idle es p := by
  induction es, ps using drainCall.induct (idle := idle) with
  | case1 first second rest ps hfull =>
    exact ⟨[], by rw [drainCall_of_full hfull, List.append_nil], by simp⟩
  | case2 first second rest ps hne hm ih =>
    obtain ⟨added, heq, hspan⟩ := ih halt.tail
    rw [drainCall_drop hne hm]
    exact ⟨added, heq, fun p hp => (hspan p hp).append_left [first]⟩
  | case3 first second rest ps hne hm ih =>
    obtain ⟨added, heq, hspan⟩ := ih halt.tail.tail
    have hback : second.direction.toLevel = idle := toLevel_eq_of_ne (List.isChain_cons_cons.mp halt).1 hm
    rw [drainCall_pair hne hm]
    refine ⟨pulseOf first second :: added, heq.trans (List.append_assoc ..), ?_⟩
    intro p hp
    rcases List.mem_cons.mp hp with rfl | hp
    · exact ⟨[], first, second, rest, rfl, hm, hback, rfl⟩
    · exact (hspan p hp).append_left [first, second]
  | case4 es ps hshape =>
    exact ⟨[], by rw [drainCall_of_few (length_lt_two_of_shape hshape), List.append_nil], by simp⟩

/-- Settles O14: the interval of each added pulse is the pair of edges the loop took for it. -/
theorem pulsesAreActiveIntervals : Obligations.PulsesAreActiveIntervals := drainCall_adds_activeIntervals

end Sys2Proof.Machine
end

section
/-! The classifier (`42_nec_classifier.md`): the window of each symbol, what puts a pair in it, and what `Classify` gives
under a legal configuration and under the block's own. -/

namespace Sys2Proof.Machine

theorem inWindow_iff {lo hi v : Nat} : inWindow lo hi v = true ↔ lo ≤ v ∧ v < hi := by
  rw [inWindow, Bool.and_eq_true, decide_eq_true_iff, decide_eq_true_iff]

/-- The mark and space window of each of the five symbols (rules R111 to R115); `Invalid` has none (rule R116). -/
def InOwnWindow (c : Config) (mark : Duration) (space : Time) : Symbol → Prop
  | .zero =>
    (c.bitMarkLo ≤ mark.toNat ∧ mark.toNat < c.bitMarkHi) ∧ c.zeroSpaceLo ≤ space.toNat ∧ space.toNat < c.zeroSpaceHi
  | .one =>
    (c.bitMarkLo ≤ mark.toNat ∧ mark.toNat < c.bitMarkHi) ∧ c.oneSpaceLo ≤ space.toNat ∧ space.toNat < c.oneSpaceHi
  | .endSym => (c.bitMarkLo ≤ mark.toNat ∧ mark.toNat < c.bitMarkHi) ∧ c.endSpaceLo ≤ space.toNat
  | .repeatSym =>
    (c.hdrMarkLo ≤ mark.toNat ∧ mark.toNat < c.hdrMarkHi) ∧ c.rptSpaceLo ≤ space.toNat ∧ space.toNat < c.rptSpaceHi
  | .start =>
    (c.hdrMarkLo ≤ mark.toNat ∧ mark.toNat < c.hdrMarkHi) ∧
      c.startSpaceLo ≤ space.toNat ∧ space.toNat < c.startSpaceHi
  | .invalid => False

section
variable {c : Config} {mark : Duration} {space : Time} {sym : Symbol}

/-- No symbol is given outside its window, whatever the configuration: the tests are the windows. -/
theorem inOwnWindow_of_classifyWith_eq (h : classifyWith c mark space = sym) (hne : sym ≠ .invalid) :
    InOwnWindow c mark space sym := by
  subst h
  revert hne
  simp only [classifyWith, inWindow_iff]
  split_ifs with hbit hzero hone hend hhdr hrpt hstart <;> intro hne
  · exact ⟨hbit, hzero⟩
  · exact ⟨hbit, hone⟩
  · exact ⟨hbit, hend⟩
  · exact absurd rfl hne
  · exact ⟨hhdr, hrpt⟩
  · exact ⟨hhdr, hstart⟩
  · exact absurd rfl hne
  · exact absurd rfl hne

/-- Every pair in a symbol's window is given that symbol: in a legal configuration the windows tested before it do not
meet its own (rule R118). -/
theorem classifyWith_eq_of_inOwnWindow (hlegal : c.Legal) (h : InOwnWindow c mark space sym) :
    classifyWith c mark space = sym := by
  obtain ⟨-, -, -, honeNonempty, -, -, -, hmarks, hzeroOne, honeEnd, hrptStart⟩ := hlegal
  simp only [classifyWith, inWindow_iff]
  cases sym with
  | invalid => exact h.elim
  | zero =>
    obtain ⟨hbit, hspace⟩ := h
    rw [if_pos hbit, if_pos hspace]
  | one =>
    obtain ⟨hbit, hspace⟩ := h
    rw [if_pos hbit, if_neg (by omega), if_pos hspace]
  | endSym =>
    obtain ⟨hbit, hspace⟩ := h
    rw [if_pos hbit, if_neg (by omega), if_neg (by omega), if_pos hspace]
  | repeatSym =>
    obtain ⟨hhdr, hspace⟩ := h
    rw [if_neg (by omega), if_pos hhdr, if_pos hspace]
  | start =>
    obtain ⟨hhdr, hspace⟩ := h
    rw [if_neg (by omega), if_pos hhdr, if_neg (by omega), if_pos hspace]

theorem classifyWith_eq_iff (hlegal : c.Legal) (hne : sym ≠ .invalid) :
    classifyWith c mark space = sym ↔ InOwnWindow c mark space sym :=
  ⟨fun h => inOwnWindow_of_classifyWith_eq h hne, classifyWith_eq_of_inOwnWindow hlegal⟩

/-- `Invalid` is every pair not in one of the five windows (rule R116). -/
theorem classifyWith_eq_invalid_iff (hlegal : c.Legal) :
    classifyWith c mark space = .invalid ↔ ∀ sym, ¬ InOwnWindow c mark space sym := by
  constructor
  · intro hinv sym hw
    have hsym : sym = .invalid := (classifyWith_eq_of_inOwnWindow hlegal hw).symm.trans hinv
    rwa [hsym] at hw
  · intro hnone
    by_contra hne
    exact hnone _ (inOwnWindow_of_classifyWith_eq rfl hne)

end

/-- Settles O16: a symbol is given in its own window only, and there always. -/
theorem legalWindowsDecideTheSymbol : Obligations.LegalWindowsDecideTheSymbol :=
  ⟨by decide, fun _ hlegal _ _ =>
    ⟨classifyWith_eq_iff hlegal (by decide), classifyWith_eq_iff hlegal (by decide),
      classifyWith_eq_iff hlegal (by decide), classifyWith_eq_iff hlegal (by decide),
      classifyWith_eq_iff hlegal (by decide)⟩⟩

/-- The default windows leave the ranges that rule R116 lists. -/
theorem forall_not_inOwnWindow_cfg_iff (mark : Duration) (space : Time) :
    (∀ sym, ¬ InOwnWindow cfg mark space sym) ↔
      mark.toNat < 500 ∨ (650 ≤ mark.toNat ∧ mark.toNat < 8000) ∨ 10000 ≤ mark.toNat ∨
      ((500 ≤ mark.toNat ∧ mark.toNat < 650) ∧
        (space.toNat < 500 ∨ (650 ≤ space.toNat ∧ space.toNat < 1600))) ∨
      ((8000 ≤ mark.toNat ∧ mark.toNat < 10000) ∧
        (space.toNat < 2000 ∨ (2500 ≤ space.toNat ∧ space.toNat < 4000) ∨ 5000 ≤ space.toNat)) := by
  constructor
  · intro hnone
    have hzero := hnone .zero
    have hone := hnone .one
    have hend := hnone .endSym
    have hrpt := hnone .repeatSym
    have hstart := hnone .start
    simp only [InOwnWindow] at hzero hone hend hrpt hstart
    omega
  · intro hrange sym hw
    cases sym <;> simp only [InOwnWindow] at hw <;> omega

/-- Settles O15: the block's configuration is legal, and its windows are the defaults. -/
theorem classifyByWindows : Obligations.ClassifyByWindows := by
  intro mark space
  obtain ⟨hlegal, hwindows⟩ := legalWindowsDecideTheSymbol
  obtain ⟨hzero, hone, hend, hrpt, hstart⟩ := hwindows cfg hlegal mark space
  exact ⟨hzero, hone, hend, hrpt, hstart,
    (classifyWith_eq_invalid_iff hlegal).trans (forall_not_inOwnWindow_cfg_iff mark space)⟩

end Sys2Proof.Machine
end

section
/-! The six symbols of the decoder (`43_nec_decoder.md` rules R123 to R133): what each does where it is accepted, where it
is rejected, in Idle and at the largest step; the transition table; and how `step` moves. -/

namespace Sys2Proof.Machine

open Sys2Proof.Safety

/-! ## `Arm` and the other fields of the message -/

/-- `Arm` in the terms of the statements. -/
theorem arm_eq_armed (s : State) : arm s = armed s := arm_eq s

theorem armed_setImplicitEnd (s : State) (b : Bool) : (armed s).setImplicitEnd b = armed (s.setImplicitEnd b) := rfl

theorem armed_setStep (s : State) (n : StepCount) : (armed s).setStep n = armed (s.setStep n) := rfl

theorem armed_setImplicitEnd_step (s : State) : (armed (s.setImplicitEnd true)).ds.step = s.ds.step := by
  simp only [armed, State.setImplicitEnd_ds]

/-! ## A symbol under POLL's lock -/

section
variable {s : State} (h : MayExecute s)
include h

theorem exec_invalid_eq : exec .invalid s = .next (abort s) := by
  obtain ⟨hd, hl⟩ := h
  exact underPollLock_eq _ hd hl

theorem exec_bitSymbol (b : Bool) : exec (bitSymbol b).toInstr s = execBit b s := by
  obtain ⟨hd, hl⟩ := h
  cases b <;> exact underPollLock_eq _ hd hl

/-- From Idle `START` opens a fresh message and arms nothing (rule R124). -/
theorem exec_start_of_idle (hc : s.ds.isCancelled = true) : exec .start s = .next (fresh s) := by
  obtain ⟨hd, hl⟩ := h
  rw [exec, execStart, underPollLock_eq _ hd hl, building_eq, hc]
  rfl

/-- A `START` in a message in progress finalises that message first (rule R124). -/
theorem exec_start_of_building (hc : s.ds.isCancelled = false) :
    exec .start s = .next (armed (fresh { s with trace := s.trace ++ [eot .poll s] })) := by
  obtain ⟨hd, hl⟩ := h
  rw [exec, execStart, underPollLock_eq _ hd hl, building_eq, hc, if_pos Bool.not_false, endCheck_forced_building hc, arm_eq]
  rfl

theorem exec_endSym_eq : exec .endSym s =
    if s.ds.endDue then advanceStep (s.setImplicitEnd false) else .next (abort s) := by
  obtain ⟨hd, hl⟩ := h
  exact underPollLock_eq _ hd hl

theorem exec_repeatSym_eq : exec .repeatSym s =
    if s.ds.repeatDue then advanceStep (armed (s.setImplicitEnd true)) else .next (abort s) := by
  obtain ⟨hd, hl⟩ := h
  rw [← armed_setImplicitEnd, ← arm_eq_armed]
  exact underPollLock_eq _ hd hl

theorem exec_endSym_of_due (hc : s.ds.isCancelled = false) (he : s.ds.implicitEnd = true)
    (hmax : s.ds.step.toNat + 1 < 2 ^ 32) :
    exec .endSym s = .next { s with ds := { s.ds with implicitEnd := false, step := s.ds.step + 1 } } := by
  rw [exec_endSym_eq h, if_pos ((endDue_iff _).mpr ⟨hc, he⟩)]
  exact advanceStep_eq hmax

theorem exec_repeatSym_of_due (hc : s.ds.isCancelled = false) (hlt : 32 < s.ds.step.toNat)
    (hodd : s.ds.step.toNat % 2 = 1) (hmax : s.ds.step.toNat + 1 < 2 ^ 32) :
    exec .repeatSym s = .next (armed { s with ds := { s.ds with implicitEnd := true, step := s.ds.step + 1 } }) := by
  have hstep : (armed (s.setImplicitEnd true)).ds.step = s.ds.step := armed_setImplicitEnd_step s
  rw [exec_repeatSym_eq h, if_pos ((repeatDue_iff _).mpr ⟨hc, hlt, hodd⟩), advanceStep_eq (by rwa [hstep]), hstep,
    armed_setStep]
  rfl

/-- A symbol that is not accepted, in Idle or in a message in progress, takes the path of `Abort` (rules R130 to R132). -/
theorem exec_eq_abort {sym : Symbol} (hne : sym ≠ .start) (hr : s.ds.isCancelled = true ∨ Rejected s sym) :
    exec sym.toInstr s = .next (abort s) := by
  have bit (b : Bool) (hr : s.ds.isCancelled = true ∨ 31 < s.ds.step.toNat) :
      exec (bitSymbol b).toInstr s = .next (abort s) := by
    have hdue : ¬ s.ds.bitDue = true := by
      rw [bitDue_iff]
      rintro ⟨hc, hle⟩
      rcases hr with hi | hlt
      · exact Bool.false_ne_true (hc.symm.trans hi)
      · exact absurd hle (Nat.not_le.mpr hlt)
    rw [exec_bitSymbol h, execBit_reject b hdue]
  cases sym with
  | start => exact absurd rfl hne
  | invalid => exact exec_invalid_eq h
  | zero => exact bit false (by simpa [Rejected] using hr)
  | one => exact bit true (by simpa [Rejected] using hr)
  | endSym =>
    have hdue : ¬ s.ds.endDue = true := by
      rw [endDue_iff]
      rintro ⟨hc, he⟩
      simp [Rejected, hc, he] at hr
    exact (exec_endSym_eq h).trans (if_neg hdue)
  | repeatSym =>
    have hdue : ¬ s.ds.repeatDue = true := by
      rw [repeatDue_iff]
      rintro ⟨hc, hstep⟩
      simp [Rejected, hc, hstep] at hr
    exact (exec_repeatSym_eq h).trans (if_neg hdue)

theorem exec_of_idle {sym : Symbol} (hc : s.ds.isCancelled = true) (hne : sym ≠ .start) :
    exec sym.toInstr s = .next s := by
  rw [exec_eq_abort h hne (.inl hc), abort_idle hc]

theorem exec_of_rejected {sym : Symbol} (hc : s.ds.isCancelled = false) (hr : Rejected s sym) :
    exec sym.toInstr s = .next (aborted s) := by
  have hne : sym ≠ .start := by
    rintro rfl
    simp [Rejected] at hr
  rw [exec_eq_abort h hne (.inr hr), abort_eq_aborted hc]

end

/-- The word that the bit of step 31 completes (rules R126, R127). -/
theorem withBit_of_last {d : DecoderState} (b : Bool) (h31 : d.step = 31) :
    withBit b d = if b then d.data ||| (1#32 <<< 31) else d.data := by
  rw [withBit, h31]
  rfl

/-- The increment of the largest step is refused (rules R22, R133). -/
theorem advanceStep_of_max {s : State} (h : s.ds.step.toNat = 2 ^ 32 - 1) : advanceStep s = .refused .stepOverflow :=
  if_pos ((stepAtMax_iff _).mpr h)

/-! ## The rules of the symbols -/

/-- Settles O22: from Idle the reset alone; in a message in progress the event, the reset and an `Arm`. -/
theorem startCompletes : Obligations.StartCompletes := by
  intro s h
  refine ⟨exec_start_of_idle h, fun hc => ?_⟩
  rw [exec_start_of_building h hc]
  simp [armed, fresh, eot, hc]

/-- Settles O23: the four cases of a bit, and the classifier's windows of the two symbols. -/
theorem dataBitsFollowTheirRule : Obligations.DataBitsFollowTheirRule := by
  refine ⟨fun s h => ⟨fun hc => ?_, fun hc hlt => ?_, fun hc h31 => ?_, fun hc hlt => ?_⟩, rfl, rfl, fun mark space => ?_⟩
  · exact ⟨exec_of_idle h hc (sym := .zero) (by decide), exec_of_idle h hc (sym := .one) (by decide)⟩
  · exact ⟨(exec_bitSymbol h false).trans (execBit_shift false hc hlt),
      (exec_bitSymbol h true).trans (execBit_shift true hc hlt)⟩
  · have hword : withBit true s.ds = s.ds.data ||| (1#32 <<< 31) := withBit_of_last true h31
    rw [← hword]
    exact ⟨(exec_bitSymbol h false).trans (execBit_last false hc h31),
      (exec_bitSymbol h true).trans (execBit_last true hc h31)⟩
  · exact ⟨exec_of_rejected h hc (sym := .zero) (.inr (.inl ⟨.inl rfl, hlt⟩)),
      exec_of_rejected h hc (sym := .one) (.inr (.inl ⟨.inr rfl, hlt⟩))⟩
  · obtain ⟨hzero, hone, -⟩ := classifyByWindows mark space
    exact ⟨hzero, hone⟩

/-- Settles O24: the completed word is the data with bit 31 as sent. -/
theorem lastBitCompletesWord : Obligations.LastBitCompletesWord := by
  intro s b w h hc h31 hw
  have hword : withBit b s.ds = w := (withBit_of_last b h31).trans hw.symm
  rw [exec_bitSymbol h, execBit_last b hc h31, hword]
  rfl

/-- Settles O25: due, not due, in Idle; and the classifier's window of the symbol. -/
theorem endFollowsItsRule : Obligations.EndFollowsItsRule := by
  refine ⟨fun s h => ⟨exec_endSym_of_due h, fun hc he => ?_, fun hc => ?_⟩, rfl, fun mark space => ?_⟩
  · exact exec_of_rejected h hc (sym := .endSym) (.inr (.inr (.inl ⟨rfl, he⟩)))
  · exact exec_of_idle h hc (sym := .endSym) (by decide)
  · obtain ⟨-, -, hend, -⟩ := classifyByWindows mark space
    exact hend

/-- Settles O26: the step of a `REPEAT` that is due, with the `Arm` written out. -/
theorem repeatCompletes : Obligations.RepeatCompletes :=
  fun _ h hc hlt hodd hmax => exec_repeatSym_of_due h hc hlt hodd hmax

/-- Settles O27: each clause is one way to be rejected. -/
theorem rejectedSymbolsAbort : Obligations.RejectedSymbolsAbort := by
  intro s h hc
  have rejects (sym : Symbol) (hr : Rejected s sym) : exec sym.toInstr s = .next (aborted s) :=
    exec_of_rejected h hc hr
  refine ⟨rejects .invalid (.inl rfl), fun hlt => ⟨?_, ?_⟩, fun he => ?_, fun hstep => ?_⟩
  · exact rejects .zero (.inr (.inl ⟨.inl rfl, hlt⟩))
  · exact rejects .one (.inr (.inl ⟨.inr rfl, hlt⟩))
  · exact rejects .endSym (.inr (.inr (.inl ⟨rfl, he⟩)))
  · exact rejects .repeatSym (.inr (.inr (.inr ⟨rfl, by omega⟩)))

/-- Settles O28: in Idle nothing but a `START` is accepted, and an `Abort` of no message does nothing. -/
theorem idleIgnoresAllButStart : Obligations.IdleIgnoresAllButStart := fun _ _ h hc hne => exec_of_idle h hc hne

/-- Settles O31: both symbols are due there, since the largest step is odd, and both advance it. -/
theorem largestStepIsRefused : Obligations.LargestStepIsRefused := by
  intro s h hc hstep
  have hmax : s.ds.step.toNat = 2 ^ 32 - 1 := by
    rw [hstep]
    rfl
  refine ⟨fun he => ?_, ?_⟩
  · rw [exec_endSym_eq h, if_pos ((endDue_iff _).mpr ⟨hc, he⟩)]
    exact advanceStep_of_max hmax
  · rw [exec_repeatSym_eq h, if_pos ((repeatDue_iff _).mpr ⟨hc, by omega, by omega⟩)]
    exact advanceStep_of_max (by rwa [armed_setImplicitEnd_step])

/-! ## The transition table -/

/-- The table's Idle row. -/
theorem transition_of_idle {s : State} {sym : Symbol} (hc : s.ds.isCancelled = true) (hne : sym ≠ .start) :
    transition s sym = s := by
  cases sym with
  | start => exact absurd rfl hne
  | _ => exact if_pos hc

section
variable {s : State} (h : MayExecute s) (hc : s.ds.isCancelled = false)
include h hc

/-- The table's Building rows of a bit: by `step` it shifts, completes the word or aborts. -/
theorem exec_bitSymbol_eq_transition (b : Bool) :
    exec (bitSymbol b).toInstr s = .next (transition s (bitSymbol b)) := by
  have hrow : transition s (bitSymbol b) =
      if s.ds.step.toNat < 31 then { s with ds := { s.ds with data := withBit b s.ds, step := s.ds.step + 1 } }
      else if s.ds.step.toNat = 31 then completed (withBit b s.ds) s
      else aborted s := by
    cases b <;> exact if_neg (Bool.eq_false_iff.mp hc)
  rw [hrow]
  rcases Nat.lt_trichotomy s.ds.step.toNat 31 with hlt | heq | hgt
  · rw [if_pos hlt, exec_bitSymbol h, execBit_shift b hc hlt]
  · rw [if_neg heq.not_lt, if_pos heq, exec_bitSymbol h, execBit_last b hc (BitVec.eq_of_toNat_eq heq)]
  · rw [if_neg hgt.not_gt, if_neg hgt.ne']
    exact exec_of_rejected h hc (.inr (.inl ⟨bitSymbol_cases b, hgt⟩))

/-- The table's Building rows of `END`: `implicit_end` is read off `step` (`10_state.md` rule R28 (a)). -/
theorem exec_endSym_eq_transition (hmax : s.ds.step.toNat + 1 < 2 ^ 32)
    (hflag : s.ds.implicitEnd = true ↔ 32 ≤ s.ds.step.toNat ∧ s.ds.step.toNat % 2 = 0) :
    exec .endSym s = .next (transition s .endSym) := by
  rw [transition, if_neg (Bool.eq_false_iff.mp hc)]
  split
  case isTrue hdue => exact exec_endSym_of_due h hc (hflag.mpr hdue) hmax
  case isFalse hdue =>
    have he : s.ds.implicitEnd = false := Bool.eq_false_iff.mpr (mt hflag.mp hdue)
    exact exec_of_rejected h hc (sym := .endSym) (.inr (.inr (.inl ⟨rfl, he⟩)))

theorem exec_repeatSym_eq_transition (hmax : s.ds.step.toNat + 1 < 2 ^ 32) :
    exec .repeatSym s = .next (transition s .repeatSym) := by
  rw [transition, if_neg (Bool.eq_false_iff.mp hc)]
  split
  case isTrue hdue =>
    obtain ⟨hlt, hodd⟩ := hdue
    exact exec_repeatSym_of_due h hc hlt hodd hmax
  case isFalse hdue => exact exec_of_rejected h hc (sym := .repeatSym) (.inr (.inr (.inr ⟨rfl, hdue⟩)))

end

theorem exec_start_eq_transition {s : State} (h : MayExecute s) : exec .start s = .next (transition s .start) := by
  rw [transition]
  split
  case isTrue hc => exact exec_start_of_idle h hc
  case isFalse hc => exact exec_start_of_building h (Bool.eq_false_iff.mpr hc)

/-- Settles O32: the Idle row for all symbols at once, the Building rows symbol by symbol. -/
theorem symbolsFollowTransitionTable : Obligations.SymbolsFollowTransitionTable := by
  intro s sym h hflag hmax
  by_cases hstart : sym = .start
  · subst hstart
    exact exec_start_eq_transition h
  · cases hc : s.ds.isCancelled with
    | true => rw [exec_of_idle h hc hstart, transition_of_idle hc hstart]
    | false =>
      cases sym with
      | start => exact absurd rfl hstart
      | invalid =>
        rw [exec_of_rejected h hc (.inl rfl), transition, if_neg (Bool.eq_false_iff.mp hc)]
      | zero => exact exec_bitSymbol_eq_transition h hc false
      | one => exact exec_bitSymbol_eq_transition h hc true
      | endSym => exact exec_endSym_eq_transition h hc hmax (hflag h.1 hc)
      | repeatSym => exact exec_repeatSym_eq_transition h hc hmax

/-! ## How `step` moves -/

@[simp] theorem abort_step (s : State) : (abort s).ds.step = s.ds.step := by
  cases hc : s.ds.isCancelled with
  | true => rw [abort_idle hc]
  | false => rw [abort_building hc]

section
variable {s t : State}

/-- A bit advances `step` exactly where it is due (rules R125, R133). -/
theorem execBit_step {b : Bool} (h : execBit b s = .next t) :
    t.ds.step = if s.ds.isCancelled = false ∧ s.ds.step.toNat ≤ 31 then s.ds.step + 1 else s.ds.step := by
  rcases execBit_cases b s with ⟨hc, hlt, hx⟩ | ⟨hc, h31, hx⟩ | ⟨hdue, hx⟩ <;>
    obtain rfl := Host.Outcome.next.inj (hx.symm.trans h)
  · rw [if_pos ⟨hc, hlt.le⟩]
  · rw [h31, if_pos ⟨hc, by decide⟩]
    rfl
  · rw [bitDue_iff] at hdue
    rw [if_neg hdue, abort_step]

theorem execEnd_step (h : execEnd s = .next t) :
    t.ds.step = if s.ds.isCancelled = false ∧ s.ds.implicitEnd = true then s.ds.step + 1 else s.ds.step := by
  rcases execEnd_cases h with ⟨hdue, -, rfl⟩ | ⟨hdue, rfl⟩ <;> rw [endDue_iff] at hdue
  · rw [if_pos hdue]
  · rw [if_neg hdue, abort_step]

theorem execRepeat_step (h : execRepeat s = .next t) :
    t.ds.step = if s.ds.isCancelled = false ∧ 32 < s.ds.step.toNat ∧ s.ds.step.toNat % 2 = 1
      then s.ds.step + 1 else s.ds.step := by
  rcases execRepeat_cases h with ⟨hdue, -, rfl⟩ | ⟨hdue, rfl⟩ <;> rw [repeatDue_iff] at hdue
  · rw [if_pos hdue]
    rfl
  · rw [if_neg hdue, abort_step]

theorem execStart_step (h : exec .start s = .next t) : t.ds.step = 0 := by
  have hm : MayExecute s := (symbol_cases (sym := .start) h).1
  rw [exec_start_eq_transition hm] at h
  obtain rfl := Host.Outcome.next.inj h
  rw [transition]
  split <;> rfl

theorem execInvalid_step (h : execInvalid s = .next t) : t.ds.step = s.ds.step := by
  obtain ⟨-, -, hx⟩ := underPollLock_next h
  rw [← Host.Outcome.next.inj hx, abort_step]

end

/-- Settles O30: symbol by symbol, with the condition under which each is accepted. -/
theorem stepAdvancesByRule : Obligations.StepAdvancesByRule := by
  intro s t sym h
  refine ⟨?_, ?_, ?_, ?_, ?_⟩
  · rintro rfl
    exact execStart_step h
  · rintro (rfl | rfl)
    · obtain ⟨-, -, hx⟩ := underPollLock_next h
      exact execBit_step (b := false) hx
    · obtain ⟨-, -, hx⟩ := underPollLock_next h
      exact execBit_step (b := true) hx
  · rintro rfl
    exact execEnd_step h
  · rintro rfl
    exact execRepeat_step h
  · rintro rfl
    exact execInvalid_step h

end Sys2Proof.Machine
end

section
/-! Sequences of symbols (`43_nec_decoder.md` rules R123 to R129): a frame puts its word into `data`, and the symbols of a
held button keep its message open. -/

namespace Sys2Proof.Machine

open Sys2Proof.Safety

/-! ## One symbol after the other -/

section
variable {s t : State}

theorem execSymbols_cons (sym : Symbol) (rest : List Symbol) (h : exec sym.toInstr s = .next t) :
    execSymbols (sym :: rest) s = execSymbols rest t := by
  rw [execSymbols, h]

theorem execSymbols_singleton (sym : Symbol) (h : exec sym.toInstr s = .next t) : execSymbols [sym] s = .next t :=
  execSymbols_cons sym [] h

theorem execSymbols_append {front : List Symbol} (back : List Symbol) (h : execSymbols front s = .next t) :
    execSymbols (front ++ back) s = execSymbols back t := by
  induction front generalizing s with
  | nil =>
    rw [Host.Outcome.next.inj h]
    rfl
  | cons sym front ih =>
    cases hx : exec sym.toInstr s with
    | next u =>
      rw [execSymbols_cons sym front hx] at h
      exact (execSymbols_cons sym (front ++ back) hx).trans (ih h)
    | fault r => cases r
    | refused r =>
      rw [execSymbols, hx] at h
      cases h

end

/-! ## The bits of a word -/

/-- The first `n` bits of `w`, the others 0. -/
def firstBits (w : DataWord) (n : Nat) : DataWord := (w.setWidth n).setWidth 32

theorem firstBits_zero (w : DataWord) : firstBits w 0 = 0 := by
  rw [firstBits, BitVec.eq_nil (w.setWidth 0)]
  rfl

theorem firstBits_all (w : DataWord) : firstBits w 32 = w := by
  rw [firstBits, BitVec.setWidth_eq, BitVec.setWidth_eq]

/-- The bit of step `n`, put into the `n` bits before it (rules R125, R126). -/
theorem withBit_firstBits {w : DataWord} {n : Nat} {d : DecoderState} (hdata : d.data = firstBits w n)
    (hstep : d.step.toNat = n) : withBit (w.getLsbD n) d = firstBits w (n + 1) := by
  rw [withBit, hdata, hstep]
  cases hbit : w.getLsbD n with
  | true => exact (BitVec.setWidth_setWidth_succ_eq_setWidth_setWidth_or_twoPow_of_getLsbD_true hbit).symm
  | false => exact (BitVec.setWidth_setWidth_succ_eq_setWidth_setWidth_of_getLsbD_false hbit).symm

/-- The symbols of the first `n` bits of `w`, bit 0 first (`30_encoding.md` rule R76). -/
def bitSymbols (w : DataWord) (n : Nat) : List Symbol := (List.range n).map fun k => bitSymbol (w.getLsbD k)

theorem bitSymbols_succ (w : DataWord) (n : Nat) : bitSymbols w (n + 1) = bitSymbols w n ++ [bitSymbol (w.getLsbD n)] := by
  rw [bitSymbols, List.range_succ, List.map_append]
  rfl

/-- `s` after the first `n` bits of the word `w`. -/
def received (w : DataWord) (n : Nat) (s : State) : State :=
  { s with ds := { s.ds with data := firstBits w n, step := BitVec.ofNat 32 n } }

theorem received_step_toNat (w : DataWord) {n : Nat} (s : State) (h : n ≤ 31) : (received w n s).ds.step.toNat = n :=
  (BitVec.toNat_ofNat n 32).trans (Nat.mod_eq_of_lt (by omega))

section
variable {s : State} (w : DataWord) (h : MayExecute s) (hc : s.ds.isCancelled = false) (hdata : s.ds.data = 0)
  (hstep : s.ds.step = 0)
include h hc hdata hstep

/-- Up to 31 bits of a fresh message only shift in (rule R125). -/
theorem execSymbols_bitSymbols {n : Nat} (hn : n ≤ 31) : execSymbols (bitSymbols w n) s = .next (received w n s) := by
  induction n with
  | zero =>
    have hnone : received w 0 s = s := by
      rw [received, firstBits_zero, ← hdata, show BitVec.ofNat 32 0 = s.ds.step from hstep.symm]
    rw [hnone]
    rfl
  | succ n ih =>
    have hcount : (received w n s).ds.step.toNat = n := received_step_toNat w s (by omega)
    have hbit : withBit (w.getLsbD n) (received w n s).ds = firstBits w (n + 1) := withBit_firstBits rfl hcount
    have hnext : (received w n s).ds.step + 1 = BitVec.ofNat 32 (n + 1) := BitVec.ofNat_add_ofNat n 1
    rw [bitSymbols_succ, execSymbols_append _ (ih (by omega))]
    refine execSymbols_singleton _ ?_
    rw [exec_bitSymbol (s := received w n s) h, execBit_shift (s := received w n s) _ hc (hcount.trans_lt hn), hbit,
      hnext]
    rfl

/-- The 32 bits of a fresh message complete its word (rule R127). -/
theorem execSymbols_word : execSymbols (bitSymbols w 32) s = .next (completed w s) := by
  have hbit : withBit (w.getLsbD 31) (received w 31 s).ds = w :=
    (withBit_firstBits rfl (received_step_toNat w s (Nat.le_refl 31))).trans (firstBits_all w)
  rw [bitSymbols_succ, execSymbols_append _ (execSymbols_bitSymbols w h hc hdata hstep (Nat.le_refl 31))]
  refine execSymbols_singleton _ ?_
  rw [exec_bitSymbol (s := received w 31 s) h, execBit_last (s := received w 31 s) _ hc rfl, hbit]
  rfl

end

/-- Settles O34: `START` leaves a fresh message, from Idle or after it has ended the one before; the 32 bits fill it. -/
theorem frameDeliversItsWord : Obligations.FrameDeliversItsWord := by
  intro w s h
  cases hc : s.ds.isCancelled with
  | true =>
    have hbits : execSymbols (bitSymbols w 32) (fresh s) = .next (completed w (fresh s)) :=
      execSymbols_word w h rfl rfl rfl
    rw [frameSymbols, execSymbols_cons .start _ (exec_start_of_idle h hc)]
    refine hbits.trans ?_
    rw [if_pos rfl, if_pos rfl, List.append_nil]
    rfl
  | false =>
    have hbits := execSymbols_word w (s := armed (fresh { s with trace := s.trace ++ [eot .poll s] })) h rfl rfl rfl
    rw [frameSymbols, execSymbols_cons .start _ (exec_start_of_building h hc)]
    exact hbits

/-! ## A held button -/

/-- `t` is what `END` and `n` pairs of `REPEAT` and `END` leave of the message of `s`: open, no `END` due, nothing
emitted, `n` alarms more. -/
structure HeldOpen (n : Nat) (s t : State) : Prop where
  mayExecute  : MayExecute t
  building    : t.ds.isCancelled = false
  noEndDue    : t.ds.implicitEnd = false
  step        : t.ds.step.toNat = 33 + 2 * n
  data        : t.ds.data = s.ds.data
  trace       : t.trace = s.trace
  time        : t.time = s.time
  sparedUntil : 0 < n → t.ds.sparedUntil = s.time + 120000
  alarms      : t.alarms.length = s.alarms.length + n

section
variable {s t : State} {n : Nat}

/-- The `END` after the data word (rule R128). -/
theorem heldOpen_zero (h : MayExecute s) (hc : s.ds.isCancelled = false) (hstep : s.ds.step = 32)
    (he : s.ds.implicitEnd = true) : ∃ t, exec .endSym s = .next t ∧ HeldOpen 0 s t := by
  have hmax : s.ds.step.toNat + 1 < 2 ^ 32 := by rw [hstep]; decide
  refine ⟨_, exec_endSym_of_due h hc he hmax, ?_⟩
  exact {
    mayExecute := h
    building := hc
    noEndDue := rfl
    step := by rw [toNat_step_succ hmax, hstep]; rfl
    data := rfl
    trace := rfl
    time := rfl
    sparedUntil := fun hn => absurd hn (Nat.lt_irrefl 0)
    alarms := rfl }

/-- A `REPEAT` is due at every odd step from 33 on and makes an `END` due; that `END` is accepted (rules R128, R129). -/
theorem HeldOpen.repeat_end (h : HeldOpen n s t) (hmax : 34 + 2 * (n + 1) < 2 ^ 32) :
    ∃ u, execSymbols [.repeatSym, .endSym] t = .next u ∧ HeldOpen (n + 1) s u := by
  have hstep := h.step
  have hrepeat : (t.ds.step + 1).toNat = 34 + 2 * n := by rw [toNat_step_succ (by omega), hstep]; omega
  have hend : (t.ds.step + 1 + 1).toNat = 33 + 2 * (n + 1) := by rw [toNat_step_succ (by omega), hrepeat]; omega
  have hx := exec_repeatSym_of_due h.mayExecute h.building (by omega) (by omega) (by omega)
  have hy := exec_endSym_of_due
    (s := armed { t with ds := { t.ds with implicitEnd := true, step := t.ds.step + 1 } })
    h.mayExecute h.building rfl (show (t.ds.step + 1).toNat + 1 < 2 ^ 32 by omega)
  refine ⟨_, (execSymbols_cons .repeatSym _ hx).trans (execSymbols_singleton .endSym hy), ?_⟩
  exact {
    mayExecute := h.mayExecute
    building := h.building
    noEndDue := rfl
    step := hend
    data := h.data
    trace := h.trace
    time := h.time
    sparedUntil := fun _ => congrArg (· + 120000) h.time
    alarms := ((addAlarm_perm _ _).length_eq.trans (congrArg (· + 1) h.alarms)) }

end

/-- Settles O36: by induction on the number of repeats, with everything a further pair needs carried along. -/
theorem heldButtonKeepsMessageOpen : Obligations.HeldButtonKeepsMessageOpen := by
  intro n s h hc hstep he hn
  have hheld : ∃ t, execSymbols (heldSymbols n) s = .next t ∧ HeldOpen n s t := by
    induction n with
    | zero =>
      obtain ⟨t, hx, ht⟩ := heldOpen_zero h hc hstep he
      exact ⟨t, execSymbols_singleton .endSym hx, ht⟩
    | succ n ih =>
      obtain ⟨t, hx, ht⟩ := ih (by omega)
      obtain ⟨u, hy, hu⟩ := ht.repeat_end hn
      exact ⟨u, (execSymbols_append _ hx).trans hy, hu⟩
  obtain ⟨t, hx, ht⟩ := hheld
  exact ⟨t, hx, ht.building, ht.noEndDue, ht.step, ht.data, ht.trace, ht.sparedUntil, ht.alarms⟩

end Sys2Proof.Machine
end

section
/-! `PROCESS` (`43_nec_decoder.md` rules R121, R122): the head of its loop, the three steps of a symbol under the lock,
and the whole call with nothing of another agent between its steps. -/

namespace Sys2Proof.Machine

open Sys2Proof.Safety

/-! ## The head of the loop -/

section
variable {s : State}

theorem exec_process (hp : s.poll = .idle) (hd : s.decInit = true) : exec .process s = .next (processIteration s) := by
  rw [exec, execProcess, whenPollIdle_eq _ hp, if_pos hd]

theorem processIteration_of_few (hfew : s.pulseQ.length < 2) : processIteration s = s.setPoll .idle := by
  unfold processIteration
  match hq : s.pulseQ with
  | [] | [_] => rfl
  | _ :: _ :: _ => simp [hq] at hfew

theorem processIteration_pair {cur next : Pulse} {rest : List Pulse} (hq : s.pulseQ = cur :: next :: rest) :
    processIteration s = (s.setPulseQ (next :: rest)).setPoll (.acquire (symbolOf cur next)) := by
  rw [processIteration, hq]
  rfl

end

/-- Settles O19: too few pulses, or the symbol of the first two. -/
theorem processHeadCompletes : Obligations.ProcessHeadCompletes := by
  intro s hp hd
  rw [exec_process hp hd]
  refine ⟨fun hfew => ?_, fun cur next rest hq => ?_⟩
  · rw [processIteration_of_few hfew, setPoll_idle_of_idle hp]
  · rw [processIteration_pair hq]
    rfl

/-! ## The steps of one symbol -/

theorem alarmHoldsLock_of_eq {s : State} {l : Lock} (hl : s.ds.lock = l) (hne : l ≠ .heldByAlarm) :
    alarmHoldsLock s = false := alarmHoldsLock_of_ne (hl.trans_ne hne)

section
variable {s t : State} {sym : Symbol} (hr : timeInRange s.time = true) (ht : s.turns = [])
include hr ht

/-- While the alarm context holds the lock nothing happens (`20_memory.md` rule R62). -/
theorem step_of_alarmHoldsLock (ha : alarmHoldsLock s = true) : step s = .next s := by
  rw [step_of_no_turn hr ht, pollStep_of_alarmHoldsLock ha]

theorem step_of_processing (ha : alarmHoldsLock s = false) (hp : s.poll = .process) :
    step s = .next (processIteration s) := by
  rw [step_of_no_turn hr ht, pollStep, ha, if_neg Bool.false_ne_true, hp]

theorem step_of_acquiring (ha : alarmHoldsLock s = false) (hp : s.poll = .acquire sym) :
    step s = .next (acquireForSymbol sym s) := by
  rw [step_of_no_turn hr ht, pollStep, ha, if_neg Bool.false_ne_true, hp]

theorem step_of_executing (ha : alarmHoldsLock s = false) (hp : s.poll = .execute sym) :
    step s = executeSymbol sym s := by
  rw [step_of_no_turn hr ht, pollStep, ha, if_neg Bool.false_ne_true, hp]

theorem step_of_releasing (ha : alarmHoldsLock s = false) (hp : s.poll = .release) :
    step s = releaseAfterSymbol s := by
  rw [step_of_no_turn hr ht, pollStep, ha, if_neg Bool.false_ne_true, hp]

end

section
variable {s : State} {sym : Symbol}

theorem acquireForSymbol_of_free (hl : s.ds.lock = .free) :
    acquireForSymbol sym s = (s.setLock .heldByPoll).setPoll (.execute sym) := by
  rw [acquireForSymbol, pollAcquire, if_pos hl]

theorem acquireForSymbol_of_held (hl : s.ds.lock ≠ .free) : acquireForSymbol sym s = s := by
  rw [acquireForSymbol, pollAcquire, if_neg hl]

theorem releaseAfterSymbol_of_held (hl : s.ds.lock = .heldByPoll) :
    releaseAfterSymbol s = .next ((s.setLock .free).setPoll .process) := by
  rw [releaseAfterSymbol, pollRelease, if_pos hl]

theorem releaseAfterSymbol_of_not_held (hl : s.ds.lock ≠ .heldByPoll) :
    releaseAfterSymbol s = .refused .lockNotHeld := by
  rw [releaseAfterSymbol, pollRelease, if_neg hl]

end

/-- Settles O20: the phase says which of the three steps POLL takes, the lock whether it can. -/
theorem symbolTakesThreeLockedSteps : Obligations.SymbolTakesThreeLockedSteps := by
  intro s sym hr ht
  refine ⟨fun hp hl => ?_, fun hp hl => ?_, fun hp ho t hx => ?_, fun hp hl => ?_, fun hd hl => ?_,
    fun hp hl hnot => ?_⟩
  · rw [step_of_acquiring hr ht (alarmHoldsLock_of_eq hl (by decide)) hp, acquireForSymbol_of_free hl]
    rfl
  · cases ha : alarmHoldsLock s with
    | true => exact step_of_alarmHoldsLock hr ht ha
    | false => rw [step_of_acquiring hr ht ha hp, acquireForSymbol_of_held hl]
  · obtain ⟨⟨-, hl⟩, -⟩ := symbol_cases hx
    rw [step_of_executing hr ht (alarmHoldsLock_of_eq hl (by decide)) hp]
    exact executeSymbol_of_next ho hx
  · rw [step_of_releasing hr ht (alarmHoldsLock_of_eq hl (by decide)) hp, releaseAfterSymbol_of_held hl]
    rfl
  · exact step_of_alarmHoldsLock hr ht ((alarmHoldsLock_iff s).mpr ⟨hd, hl⟩)
  · have ha : alarmHoldsLock s = false := alarmHoldsLock_eq_false fun hd => hnot.resolve_left (by rw [hd]; decide)
    rw [step_of_releasing hr ht ha hp, releaseAfterSymbol_of_not_held hl]

/-! ## A symbol does not look at POLL's phase -/

/-- `r` with `f` done to its next state. -/
def mapNext (f : State → State) : Result → Result
  | .next t => .next (f t)
  | .fault r => .fault r
  | .refused r => .refused r

section
variable (s : State) (p : PollPhase)

theorem abort_setPoll : abort (s.setPoll p) = (abort s).setPoll p := by
  cases hc : s.ds.isCancelled with
  | true => rw [abort_idle hc, abort_idle (s := s.setPoll p) hc]
  | false =>
    rw [abort_building hc, abort_building (s := s.setPoll p) hc]
    rfl

theorem advanceStep_setPoll : advanceStep (s.setPoll p) = mapNext (·.setPoll p) (advanceStep s) := by
  rw [advanceStep, advanceStep, apply_ite (mapNext _)]
  rfl

theorem execBit_setPoll (b : Bool) : execBit b (s.setPoll p) = mapNext (·.setPoll p) (execBit b s) := by
  rcases execBit_cases b s with ⟨hc, hlt, hx⟩ | ⟨hc, h31, hx⟩ | ⟨hdue, hx⟩ <;> rw [hx]
  · exact execBit_shift (s := s.setPoll p) b hc hlt
  · exact execBit_last (s := s.setPoll p) b hc h31
  · rw [execBit_reject (s := s.setPoll p) b hdue, abort_setPoll]
    rfl

theorem exec_start_setPoll (h : MayExecute s) :
    exec .start (s.setPoll p) = mapNext (·.setPoll p) (exec .start s) := by
  cases hc : s.ds.isCancelled with
  | true =>
    rw [exec_start_of_idle h hc]
    exact exec_start_of_idle (s := s.setPoll p) h hc
  | false =>
    rw [exec_start_of_building h hc]
    exact exec_start_of_building (s := s.setPoll p) h hc

/-- Where POLL stands is local to `PROCESS` (`10_state.md` rule R38): a symbol does the same in every phase. -/
theorem exec_symbol_setPoll (sym : Symbol) (h : MayExecute s) :
    exec sym.toInstr (s.setPoll p) = mapNext (·.setPoll p) (exec sym.toInstr s) := by
  have h' : MayExecute (s.setPoll p) := h
  have aborts : (.next (abort (s.setPoll p)) : Result) = mapNext (·.setPoll p) (.next (abort s)) :=
    congrArg _ (abort_setPoll s p)
  have bit (b : Bool) :
      exec (bitSymbol b).toInstr (s.setPoll p) = mapNext (·.setPoll p) (exec (bitSymbol b).toInstr s) := by
    rw [exec_bitSymbol h', exec_bitSymbol h, execBit_setPoll]
  cases sym with
  | invalid =>
    rw [Symbol.toInstr, exec_invalid_eq h', exec_invalid_eq h]
    exact aborts
  | zero => exact bit false
  | one => exact bit true
  | start => exact exec_start_setPoll s p h
  | endSym =>
    rw [Symbol.toInstr, exec_endSym_eq h', exec_endSym_eq h, apply_ite (mapNext _), ← aborts, ← advanceStep_setPoll]
    rfl
  | repeatSym =>
    rw [Symbol.toInstr, exec_repeatSym_eq h', exec_repeatSym_eq h, apply_ite (mapNext _), ← aborts,
      ← advanceStep_setPoll]
    rfl

end

/-! ## The whole call -/

/-- POLL stands before a turn of the loop of `PROCESS`, alone, with an owner that returns; its phase is left out. -/
structure MayProcess (s : State) : Prop where
  timeInRange : timeInRange s.time = true
  noTurn      : s.turns = []
  decInit     : s.decInit = true
  lockFree    : s.ds.lock = .free
  returns     : s.owner = .returns

/-- `s` with the lock taken for the symbol of its first two pulses, of which `rest` are left. -/
def locked (rest : List Pulse) (s : State) : State := (s.setPulseQ rest).setLock .heldByPoll

section
variable {s t : State} {sym : Symbol} {rest : List Pulse}

theorem MayProcess.mayExecute_locked (h : MayProcess s) (rest : List Pulse) : MayExecute (locked rest s) := ⟨h.decInit, rfl⟩

/-- After a symbol and the release of its lock POLL may go on, with the pulses that were left. -/
theorem MayProcess.symbol (h : MayProcess s) (hx : exec sym.toInstr (locked rest s) = .next t) :
    MayProcess (t.setLock .free) ∧ t.pulseQ = rest ∧ t.poll = s.poll := by
  obtain ⟨d, as, tr, rfl, -⟩ := symbol_frame hx
  exact ⟨⟨h.timeInRange, h.noTurn, h.decInit, rfl, h.returns⟩, rfl, rfl⟩

/-- From before `PollAcquire` on, a symbol takes three steps, if it is not refused. -/
theorem MayProcess.run_symbol (h : MayProcess s) (n : Nat) (hx : exec sym.toInstr (locked rest s) = .next t) :
    run (n + 3) ((s.setPulseQ rest).setPoll (.acquire sym)) = run n ((t.setLock .free).setPoll .process) := by
  have hlocked := h.mayExecute_locked rest
  have hx' : exec sym.toInstr ((locked rest s).setPoll (.execute sym)) = .next (t.setPoll (.execute sym)) := by
    rw [exec_symbol_setPoll _ _ sym hlocked, hx]
    rfl
  obtain ⟨⟨hr, ht, hd, -, -⟩, -⟩ := h.symbol hx
  have hl : t.ds.lock = .heldByPoll := by
    obtain ⟨d, as, tr, rfl, hl, -⟩ := symbol_frame hx
    exact hl
  obtain ⟨hacquire, -⟩ :=
    symbolTakesThreeLockedSteps ((s.setPulseQ rest).setPoll (.acquire sym)) sym h.timeInRange h.noTurn
  obtain ⟨-, -, hexecute, -⟩ :=
    symbolTakesThreeLockedSteps ((locked rest s).setPoll (.execute sym)) sym h.timeInRange h.noTurn
  obtain ⟨-, -, -, hrelease, -⟩ := symbolTakesThreeLockedSteps (t.setPoll .release) sym hr ht
  rw [run_succ_next (hacquire rfl h.lockFree)]
  refine (run_succ_next (hexecute rfl h.returns _ hx')).trans ?_
  exact run_succ_next (hrelease rfl hl)

/-- A refused symbol stops the machine at its `Exec`. -/
theorem MayProcess.run_symbol_refused (h : MayProcess s) {r : Refusal}
    (hx : exec sym.toInstr (locked rest s) = .refused r) :
    run 2 ((s.setPulseQ rest).setPoll (.acquire sym)) = .refused r := by
  have hx' : exec sym.toInstr ((locked rest s).setPoll (.execute sym)) = .refused r := by
    rw [exec_symbol_setPoll _ _ sym (h.mayExecute_locked rest), hx]
    rfl
  obtain ⟨hacquire, -⟩ :=
    symbolTakesThreeLockedSteps ((s.setPulseQ rest).setPoll (.acquire sym)) sym h.timeInRange h.noTurn
  rw [run_succ_next (hacquire rfl h.lockFree)]
  refine run_succ_refused (n := 0) ?_
  rw [← executeSymbol_of_refused hx']
  exact step_of_executing (s := (locked rest s).setPoll (.execute sym)) h.timeInRange h.noTurn
    (alarmHoldsLock_of_eq (l := .heldByPoll) rfl (by decide)) rfl

end

theorem processCall_of_few {ps : List Pulse} (hfew : ps.length < 2) (s : State) : processCall ps s = .next s := by
  match ps with
  | [] | [_] => rfl
  | _ :: _ :: _ => simp at hfew

section
variable {s t : State} {cur next : Pulse} {rest : List Pulse}

theorem processCall_of_next (hx : exec (symbolOf cur next).toInstr (locked (next :: rest) s) = .next t) :
    processCall (cur :: next :: rest) s = processCall (next :: rest) (t.setLock .free) := by
  change exec _ { s with pulseQ := next :: rest, ds := { s.ds with lock := .heldByPoll } } = _ at hx
  rw [processCall, hx]
  rfl

theorem processCall_of_refused {r : Refusal}
    (hx : exec (symbolOf cur next).toInstr (locked (next :: rest) s) = .refused r) :
    processCall (cur :: next :: rest) s = .refused r := by
  change exec _ { s with pulseQ := next :: rest, ds := { s.ds with lock := .heldByPoll } } = _ at hx
  rw [processCall, hx]

end

theorem run_process_few {ps : List Pulse} {s u : State} {p : PollPhase} (hfew : ps.length < 2) (hp : s.poll = .idle)
    (hq : s.pulseQ = ps) (hu : step u = .next (processIteration (s.setPoll p))) : run 1 u = processCall ps s := by
  subst hq
  rw [processIteration_of_few (s := s.setPoll p) hfew] at hu
  rw [run_succ_next hu, processCall_of_few hfew, run_zero]
  exact congrArg _ (setPoll_idle_of_idle hp)

/-- The head of the loop and everything after it, by induction on the queued pulses. The step before, from `u`, is the
word's or the loop's own. -/
theorem run_process (ps : List Pulse) {s u : State} {p : PollPhase} (h : MayProcess s) (hp : s.poll = .idle)
    (hq : s.pulseQ = ps) (hu : step u = .next (processIteration (s.setPoll p))) : ∃ n, run n u = processCall ps s := by
  induction ps generalizing s u p with
  | nil => exact ⟨1, run_process_few (by simp) hp hq hu⟩
  | cons cur ps ih =>
    cases ps with
    | nil => exact ⟨1, run_process_few (by simp) hp hq hu⟩
    | cons next rest =>
      rw [processIteration_pair (s := s.setPoll p) hq] at hu
      cases hx : exec (symbolOf cur next).toInstr (locked (next :: rest) s) with
      | next t =>
        obtain ⟨hmay, hrest, hpoll⟩ := h.symbol hx
        have hstep : step ((t.setLock .free).setPoll .process) =
            .next (processIteration ((t.setLock .free).setPoll .process)) :=
          step_of_processing (s := (t.setLock .free).setPoll .process) hmay.timeInRange hmay.noTurn
            (alarmHoldsLock_of_eq (l := .free) rfl (by decide)) rfl
        obtain ⟨n, hn⟩ := ih hmay (hpoll.trans hp) hrest hstep
        rw [processCall_of_next hx]
        exact ⟨n + 4, (run_succ_next hu).trans ((h.run_symbol n hx).trans hn)⟩
      | fault r => cases r
      | refused r =>
        rw [processCall_of_refused hx]
        exact ⟨3, (run_succ_next hu).trans (h.run_symbol_refused hx)⟩

/-- Settles O21: the word's step is the first turn of the loop. -/
theorem processRunsToItsEnd : Obligations.ProcessRunsToItsEnd := by
  intro s hr hp hd hl ht ho
  have hfirst : step { s with turns := [.op (encode .process)] } = .next (processIteration s) := by
    have hself : { s with turns := [.op (encode .process)] }.setTurns [] = s := by
      rw [← ht]
      rfl
    rw [step_request (s := { s with turns := [.op (encode .process)] }) (i := .process) hr rfl rfl, hself,
      takeOperation_pollOperation_free rfl hp (alarmHoldsLock_of_eq hl (by decide)), exec_process hp hd]
  exact run_process s.pulseQ ⟨hr, ht, hd, hl, ho⟩ hp rfl (p := s.poll) hfirst

end Sys2Proof.Machine
end

section
/-! Where the events come from (`43_nec_decoder.md` rule R135, `60_exceptions.md` rules R150, R151): what a symbol emits,
and everything an observer can see of one step. -/

namespace Sys2Proof.Machine

open Sys2Proof.Safety

/-! ## What a symbol emits -/

/-- The entry that the announcement of the word `w` adds to the trace (rules R78, R127). -/
def announcement (w : DataWord) (s : State) : TraceEntry :=
  ⟨s.time, .poll, .event (.newCommand (w.extractLsb' 0 8) (w.extractLsb' 16 8) false)⟩

theorem wordEvents_of_valid {w : DataWord} (s : State) (h : WordValid w) : wordEvents w s = [announcement w s] := if_pos h

theorem wordEvents_of_invalid {w : DataWord} (s : State) (h : ¬ WordValid w) : wordEvents w s = [] := if_neg h

/-- A symbol emits nothing and closes no message; or ends the one in progress, which stays closed unless a `START` opens
the next; or, at the 32nd bit, announces a valid word. -/
theorem symbol_trace {s t : State} {sym : Symbol} (h : exec sym.toInstr s = .next t) :
    (t.trace = s.trace ∧ (s.ds.isCancelled = false → t.ds.isCancelled = false)) ∨
    (t.trace = s.trace ++ [eot .poll s] ∧ s.ds.isCancelled = false ∧
      (t.ds.isCancelled = false → sym = .start ∧ t.ds.step = 0)) ∨
    (∃ b, sym = bitSymbol b ∧ t = completed (withBit b s.ds) s ∧ t.trace = s.trace ++ [announcement (withBit b s.ds) s] ∧
      s.ds.isCancelled = false ∧ s.ds.step = 31 ∧ WordValid (withBit b s.ds)) := by
  obtain ⟨-, ⟨-, -, rfl⟩ | ⟨hc, -, rfl⟩ | ⟨-, -, rfl⟩ | ⟨hsym, hc, rfl⟩ | ⟨b, -, -, -, rfl⟩ | ⟨b, hsym, hc, h31, rfl⟩ |
    ⟨-, -, -, -, rfl⟩ | ⟨-, hc, -, -, -, rfl⟩⟩ := symbol_cases h
  · exact .inl ⟨rfl, id⟩
  · exact .inr (.inl ⟨rfl, hc, fun hopen => nomatch hopen⟩)
  · exact .inl ⟨rfl, fun _ => rfl⟩
  · exact .inr (.inl ⟨rfl, hc, fun _ => ⟨hsym, rfl⟩⟩)
  · exact .inl ⟨rfl, id⟩
  · by_cases hw : WordValid (withBit b s.ds)
    · refine .inr (.inr ⟨b, hsym, rfl, ?_, hc, h31, hw⟩)
      exact congrArg (s.trace ++ ·) (wordEvents_of_valid s hw)
    · refine .inl ⟨?_, fun _ => hc⟩
      exact (congrArg (s.trace ++ ·) (wordEvents_of_invalid s hw)).trans (List.append_nil _)
  · exact .inl ⟨rfl, id⟩
  · exact .inl ⟨rfl, fun _ => hc⟩

/-- The data a callback finds at a bit that is due. -/
theorem beforeCallback_bitSymbol_data {s : State} (b : Bool) (hdue : s.ds.bitDue = true) :
    (beforeCallback (bitSymbol b) s).ds.data = withBit b s.ds := by
  cases b with
  | false => rfl
  | true =>
    rw [bitSymbol, if_pos rfl, beforeCallback, if_pos hdue]
    rfl

/-! ## What an observer can see of a step -/

/-- `Observed s t`: what the step from `s` to `t` adds to the trace, and what an entry says of the two states. -/
inductive Observed (s t : State) : Prop where
  | nothing : t.trace = s.trace → (MessageOpen s → MessageOpen t) → Observed s t
  | ended (g : Agent) : t.trace = s.trace ++ [eot g s] → t.time = s.time → MessageOpen s →
      (MessageOpen t → s.poll = .execute .start ∧ t.ds.step = 0 ∨ s.owner = .neverReturns) →
      (g = .poll ∧ s.ds.lock = .heldByPoll ∨ g = .alarm ∧ s.ds.lock = .free) → Observed s t
  | announced : t.trace = s.trace ++ [announcement t.ds.data s] → t.time = s.time → MessageOpen s → MessageOpen t →
      s.ds.step = 31 → (t.ds.step = 32 ∨ s.owner = .neverReturns) → s.ds.lock = .heldByPoll → WordValid t.ds.data →
      Observed s t
  | edgeInitOk (l : Level) : t.trace = s.trace ++ [⟨s.time, .poll, .edgeInitOk l⟩] → t.time = s.time →
      s.erInit = false → t.erInit = true → t.erIdleLevel = l → (MessageOpen s → MessageOpen t) → Observed s t
  | edgeInitFailed (t0 : Time) : t.trace = s.trace ++ [⟨s.time, .poll, .edgeInitFailed .calibrationTimeout⟩] →
      t.time = s.time → s.poll = .calibrate t0 → t.poll = .idle → t.erInit = false → t.erEnabled = false →
      t.ds = s.ds → t.alarms = s.alarms → (MessageOpen s → MessageOpen t) → Observed s t

section
variable {u t : State}

theorem observed_edgeInitOk (hi : u.erInit = false) (l : Level) : Observed u (finishEdgeInit l u) :=
  .edgeInitOk l rfl rfl hi rfl rfl id

/-- A failed calibration leaves the receiver as it was, not initialised (rule R151). -/
theorem observed_edgeInitFailed (h : Inv u) {t0 : Time} (hp : u.poll = .calibrate t0) :
    Observed u (raiseCalibrationTimeout u) := by
  obtain ⟨hi, -⟩ := h.phaseLegal_of_eq hp
  obtain ⟨hen, -⟩ := h.initConsistent
  exact .edgeInitFailed t0 rfl rfl hp rfl hi (hen.trans hi) rfl rfl id

/-- An executed symbol, the callback returning. -/
theorem observed_execute {sym : Symbol} (hp : u.poll = .execute sym) (hx : exec sym.toInstr u = .next t) :
    Observed u (t.setPoll .release) := by
  obtain ⟨⟨hd, hl⟩, -⟩ := symbol_cases hx
  obtain ⟨htime, hdec⟩ : t.time = u.time ∧ t.decInit = u.decInit := by
    obtain ⟨d, as, tr, rfl, -⟩ := symbol_frame hx
    exact ⟨rfl, rfl⟩
  rcases symbol_trace hx with ⟨htrace, hopen⟩ | ⟨htrace, hc, hclosed⟩ | ⟨b, -, rfl, htrace, hc, h31, hw⟩
  · exact .nothing htrace fun ⟨_, hc⟩ => ⟨hdec.trans hd, hopen hc⟩
  · refine .ended .poll htrace htime ⟨hd, hc⟩ (fun ⟨_, hc⟩ => ?_) (.inl ⟨rfl, hl⟩)
    obtain ⟨rfl, hstep⟩ := hclosed hc
    exact .inl ⟨hp, hstep⟩
  · exact .announced htrace rfl ⟨hd, hc⟩ ⟨hd, hc⟩ h31 (.inl rfl) hl hw

/-- An executed symbol whose callback never returns: its entry is the last thing written (log 14). -/
theorem observed_executeStuck {sym : Symbol} (hx : exec sym.toInstr u = .next t) (ho : u.owner = .neverReturns)
    (hcalled : u.trace.length < t.trace.length) :
    Observed u (((beforeCallback sym u).setTrace t.trace).setPoll .stuck) := by
  obtain ⟨⟨hd, hl⟩, -⟩ := symbol_cases hx
  have hframe := beforeCallback_eq sym u
  rcases symbol_trace hx with ⟨htrace, -⟩ | ⟨htrace, hc, -⟩ | ⟨b, rfl, -, htrace, hc, h31, hw⟩
  · rw [htrace] at hcalled
    exact absurd hcalled (Nat.lt_irrefl _)
  · rw [hframe]
    exact .ended .poll htrace rfl ⟨hd, hc⟩ (fun _ => .inr ho) (.inl ⟨rfl, hl⟩)
  · have hdata := beforeCallback_bitSymbol_data b ((bitDue_iff u.ds).mpr ⟨hc, by rw [h31]; decide⟩)
    rw [hframe] at hdata ⊢
    refine .announced ?_ rfl ⟨hd, hc⟩ ⟨hd, hc⟩ h31 (.inr ho) hl ?_
    · exact htrace.trans (congrArg (u.trace ++ [announcement · u]) hdata.symm)
    · exact hdata.symm ▸ hw

theorem PollMove.observed (hm : PollMove u t) (h : Inv u) : Observed u t := by
  cases hm with
  | edgeInit l _ hi => exact observed_edgeInitOk hi l
  | calibrated t0 hp =>
    obtain ⟨hi, -⟩ := h.phaseLegal_of_eq hp
    exact observed_edgeInitOk (u := u) hi u.irIn
  | calibrationFailed t0 hp => exact observed_edgeInitFailed h hp
  | decInit _ hi => exact .nothing rfl fun ⟨hd, _⟩ => nomatch hi.symm.trans hd
  | execute sym v hp hx => exact observed_execute hp hx
  | executeStuck sym v _ hx ho hcalled => exact observed_executeStuck hx ho hcalled
  | _ => exact .nothing rfl id

/-- Only an existing decoder has alarms. -/
theorem decInit_of_mem_alarms (h : Inv u) {a : Time} (ha : a ∈ u.alarms) : u.decInit = true := by
  obtain ⟨-, -, -, hnone⟩ := h.initConsistent
  by_contra hd
  rw [hnone (Bool.eq_false_iff.mpr hd)] at ha
  exact List.not_mem_nil ha

theorem Move.observed {x : Option Turn} (hm : Move x u t) (h : Inv u) : Observed u t := by
  cases hm with
  | poll _ _ hp => exact hp.observed h
  | alarmEnds a ha _ hl hc =>
    exact .ended .alarm rfl rfl ⟨decInit_of_mem_alarms h ha, hc⟩ (fun ⟨_, hopen⟩ => nomatch hopen) (.inr ⟨rfl, hl⟩)
  | alarmStuck a ha _ hl hc _ ho =>
    exact .ended .alarm rfl rfl ⟨decInit_of_mem_alarms h ha, hc⟩ (fun _ => .inr ho) (.inr ⟨rfl, hl⟩)
  | stay | pin | alarmSpent | time | owner => exact .nothing rfl id

end

/-- Settles O52: a step makes one move, and each kind of entry says what its clause asks. -/
theorem eventsOfOneStep : Obligations.EventsOfOneStep := by
  intro s t h hstep
  obtain ⟨-, ts, -, hm⟩ := step_move hstep
  cases hm.observed (h.setTurns ts) with
  | nothing htrace hopen => exact .inl ⟨htrace, hopen⟩
  | ended g htrace htime hopen hclosed hagent => exact .inr ⟨_, htrace, htime.symm, hopen, hclosed, hagent⟩
  | announced htrace htime hs ht h31 h32 hl hw =>
    exact .inr ⟨_, htrace, htime.symm, hs, ht, h31, h32, rfl, rfl, hl, hw, rfl, rfl⟩
  | edgeInitOk l htrace htime hi hinit hlevel hopen =>
    exact .inr ⟨_, htrace, htime.symm, rfl, hi, hinit, hlevel, hopen⟩
  | edgeInitFailed t0 htrace htime hp hidle hi hen hds has hopen =>
    exact .inr ⟨_, htrace, htime.symm, rfl, rfl, ⟨t0, hp⟩, hidle, hi, hen, hds, has, hopen⟩

end Sys2Proof.Machine
end

section
/-! The end timer (`44_end_timer.md`): what a fired alarm does in every state in which it is due, the two alarms of a
message that is armed again, and how long a message stays open. -/

namespace Sys2Proof.Machine

open Sys2Proof.Safety

/-! ## `ALARM_FIRE` -/

section
variable {a : Time} {s : State}

/-- The state in which a due alarm finalises the message in progress (rules R141, R142). -/
abbrev AlarmMayFinalise (s : State) : Prop :=
  s.ds.lock = .free ∧ s.ds.isCancelled = false ∧ s.ds.sparedUntil.toNat ≤ s.time.toNat

theorem exec_alarmFire_of_not_pending (ha : a ∉ s.alarms) : exec (.alarmFire a) s = .refused .alarmNotPending :=
  if_neg (mt List.contains_iff_mem.mp ha)

theorem exec_alarmFire_of_not_due (ha : a ∈ s.alarms) (hd : s.time.toNat < a.toNat) :
    exec (.alarmFire a) s = .refused .alarmNotDue := by
  rw [exec, execAlarmFire, if_pos (List.contains_iff_mem.mpr ha), if_neg (Nat.not_le.mpr hd)]

section
variable (ha : a ∈ s.alarms) (hd : a.toNat ≤ s.time.toNat)
include ha hd

/-- A pending alarm that is due fires, whatever else the state holds. -/
theorem exec_alarmFire_of_due : ∃ t, exec (.alarmFire a) s = .next t := by
  rw [exec, execAlarmFire, if_pos (List.contains_iff_mem.mpr ha), if_pos hd]
  exact ⟨_, rfl⟩

theorem exec_alarmFire_finalises (h : AlarmMayFinalise s) :
    exec (.alarmFire a) s = .next { s with
      alarms := s.alarms.erase a, ds := { s.ds with isCancelled := true }, trace := s.trace ++ [eot .alarm s] } := by
  obtain ⟨t, hx⟩ := exec_alarmFire_of_due ha hd
  obtain ⟨-, -, ⟨-, -, -, rfl⟩ | ⟨hnot, -⟩⟩ := execAlarmFire_cases hx
  · exact hx
  · exact absurd h hnot

/-- An alarm that may not finalise only spends itself. -/
theorem exec_alarmFire_spends (h : ¬ AlarmMayFinalise s) :
    exec (.alarmFire a) s = .next { s with alarms := s.alarms.erase a } := by
  obtain ⟨t, hx⟩ := exec_alarmFire_of_due ha hd
  obtain ⟨-, -, ⟨hl, hc, hs, -⟩ | ⟨-, rfl⟩⟩ := execAlarmFire_cases hx
  · exact absurd ⟨hl, hc, hs⟩ h
  · exact hx

end

theorem not_alarmMayFinalise_of_held (hl : s.ds.lock ≠ .free) : ¬ AlarmMayFinalise s := fun ⟨hfree, _, _⟩ => hl hfree

theorem not_alarmMayFinalise_of_idle (hc : s.ds.isCancelled = true) : ¬ AlarmMayFinalise s :=
  fun ⟨_, hopen, _⟩ => nomatch hopen.symm.trans hc

theorem not_alarmMayFinalise_of_guard (hs : s.time.toNat < s.ds.sparedUntil.toNat) : ¬ AlarmMayFinalise s :=
  fun ⟨_, _, hpassed⟩ => absurd hs (Nat.not_lt.mpr hpassed)

end

/-- Settles O37: the three states in which an alarm may not finalise, and the one in which it does. -/
theorem alarmFireCompletes : Obligations.AlarmFireCompletes := by
  refine ⟨fun a s ha hd => ⟨fun hl hc hs => ?_, fun hl hor => ?_, fun hl => ?_⟩, fun a s t hx => ?_, rfl⟩
  · exact exec_alarmFire_finalises ha hd ⟨hl, hc, hs⟩
  · exact exec_alarmFire_spends ha hd (hor.elim not_alarmMayFinalise_of_idle not_alarmMayFinalise_of_guard)
  · exact exec_alarmFire_spends ha hd (not_alarmMayFinalise_of_held hl)
  · obtain ⟨ha, hd, -⟩ := execAlarmFire_cases hx
    exact ⟨ha, hd⟩

/-- Settles O38: an alarm may not finalise under a held lock. -/
theorem contentionSpendsTheAlarm : Obligations.ContentionSpendsTheAlarm :=
  fun _ _ ha hd hl => ⟨exec_alarmFire_spends ha hd (not_alarmMayFinalise_of_held hl), if_neg hl⟩

/-- Settles O39: the two tests before an alarm is spent. -/
theorem alarmNeverFiresEarly : Obligations.AlarmNeverFiresEarly :=
  fun _ _ => ⟨exec_alarmFire_of_not_pending, exec_alarmFire_of_not_due⟩

/-! ## The alarm of an earlier `Arm` -/

theorem timeInRange_of_le {t1 t2 : Time} (hle : t1.toNat ≤ t2.toNat) (hr : timeInRange t2 = true) :
    timeInRange t1 = true := (timeInRange_iff t1).mpr (hle.trans_lt ((timeInRange_iff t2).mp hr))

/-- No delay of the timer wraps from a `TIME` in range (`10_state.md` rule R34). -/
theorem toNat_add_of_timeInRange {t d : Time} (hr : timeInRange t = true) (hd : d.toNat ≤ 125000) :
    (t + d).toNat = t.toNat + d.toNat := by
  have hbelow := (timeInRange_iff t).mp hr
  exact BitVec.toNat_add_of_lt (show t.toNat + d.toNat < 2 ^ 64 by omega)

/-- Settles O40: the guard of the later `Arm` stands 120000 after it, the alarm of the earlier one 125000 after that one. -/
theorem supersededAlarmIsHarmless : Obligations.SupersededAlarmIsHarmless := by
  intro s t1 t2 hle hr2 hspared ha hdue hl
  have hr1 : timeInRange t1 = true := timeInRange_of_le hle hr2
  have hguard : s.ds.sparedUntil.toNat = t2.toNat + 120000 := by
    rw [hspared]
    exact toNat_add_of_timeInRange hr2 (by decide)
  have hdeadline : (t1 + 125000).toNat = t1.toNat + 125000 := toNat_add_of_timeInRange hr1 (by decide)
  have hd : (t1 + 125000).toNat ≤ s.time.toNat := hdeadline.trans_le hdue
  refine ⟨fun hlt => ?_, fun htime hgap => ?_, fun htime hgap hc => ?_⟩
  · exact exec_alarmFire_spends ha hd (not_alarmMayFinalise_of_guard (hlt.trans_eq hguard.symm))
  · have hlt : s.time.toNat < s.ds.sparedUntil.toNat := by rw [htime, hdeadline, hguard]; omega
    exact exec_alarmFire_spends ha hd (not_alarmMayFinalise_of_guard hlt)
  · have hpassed : s.ds.sparedUntil.toNat ≤ s.time.toNat := by rw [htime, hdeadline, hguard]; omega
    exact exec_alarmFire_finalises ha hd ⟨hl, hc, hpassed⟩

/-! ## The timeout -/

/-- Settles O41: ENV's turn brings `TIME` to the deadline, 5000 beyond the guard, and the alarm's word fires it there. -/
theorem timeoutEndsTheMessage : Obligations.TimeoutEndsTheMessage := by
  rintro s tL tE ⟨-, hc⟩ ho hl hp hr hrE hdeadline hle halarms hspared hturns
  have hadvance : step s = .next { s with turns := [.op (encode (.alarmFire tE))], time := tE } := by
    obtain ⟨htime, -⟩ := environmentDuties s _ hr
    obtain ⟨-, -, hlegal⟩ := htime tE hturns (by rw [hp]; exact fun _ => nofun)
    exact hlegal hle ((timeInRange_iff tE).mp hrE)
  have hguard : s.ds.sparedUntil.toNat ≤ tE.toNat := by
    have hrL : timeInRange tL = true := timeInRange_of_le (by omega) hrE
    have hsum : s.ds.sparedUntil.toNat = tL.toNat + 120000 := by
      rw [hspared]
      exact toNat_add_of_timeInRange hrL (by decide)
    omega
  have hfire : exec (.alarmFire tE) { s with turns := [], time := tE } = .next { s with
      turns := [], time := tE, alarms := [], ds := { s.ds with isCancelled := true },
      trace := s.trace ++ [⟨tE, .alarm, .event .endOfTransmission⟩] } := by
    have hspent : s.alarms.erase tE = [] := by rw [halarms, List.erase_cons_head]
    rw [← hspent]
    exact exec_alarmFire_finalises (s := { s with turns := [], time := tE }) (halarms ▸ List.mem_singleton_self tE)
      (Nat.le_refl _) ⟨hl, hc, hguard⟩
  obtain ⟨-, -, -, hrequest, -⟩ := stepRunsRequestedOperation
    { s with turns := [.op (encode (.alarmFire tE))], time := tE } (.alarmFire tE) [] hrE rfl rfl
  rw [run_succ_next hadvance]
  exact run_succ_next ((hrequest rfl ho).trans hfire)

/-! ## A message kept open -/

theorem endings_append (tr added : List TraceEntry) : endings (tr ++ added) = endings tr + endings added :=
  List.countP_append

theorem endings_wordEvents (w : DataWord) (s : State) : endings (wordEvents w s) = 0 := by
  by_cases hw : WordValid w
  · rw [wordEvents_of_valid s hw]
    rfl
  · rw [wordEvents_of_invalid s hw]
    rfl

/-- What one move keeps of a message: it stays open, and no `end_of_transmission` is emitted. -/
abbrev OpenKept (s t : State) : Prop := MessageOpen t ∧ endings t.trace = endings s.trace

section
variable {s t : State}

/-- The rules that accept a symbol are the negations of those that reject it (rules R125, R128 to R130). -/
theorem not_rejected_of_accepted {sym : Symbol} (h : Accepted s.ds sym) : ¬ Rejected s sym := by
  cases sym with
  | start | invalid => exact h.elim
  | zero | one | endSym | repeatSym => simpa [Rejected, Accepted] using h

theorem ne_start_of_accepted {sym : Symbol} (h : Accepted s.ds sym) : sym ≠ .start := by
  rintro rfl
  exact h

/-- An accepted symbol goes on with its message. -/
theorem symbol_keeps_open {sym : Symbol} (hx : exec sym.toInstr s = .next t) (hc : s.ds.isCancelled = false)
    (hacc : Accepted s.ds sym) : OpenKept s t := by
  obtain ⟨⟨hd, -⟩, ⟨hidle, -⟩ | ⟨-, hrej, -⟩ | ⟨hstart, -⟩ | ⟨hstart, -⟩ | ⟨b, -, -, -, rfl⟩ | ⟨b, -, -, -, rfl⟩ |
    ⟨-, -, -, -, rfl⟩ | ⟨-, -, -, -, -, rfl⟩⟩ := symbol_cases hx
  · exact nomatch hc.symm.trans hidle
  · exact absurd hrej (not_rejected_of_accepted hacc)
  · exact absurd hstart (ne_start_of_accepted hacc)
  · exact absurd hstart (ne_start_of_accepted hacc)
  · exact ⟨⟨hd, hc⟩, rfl⟩
  · refine ⟨⟨hd, hc⟩, (endings_append _ _).trans ?_⟩
    rw [endings_wordEvents, Nat.add_zero]
  · exact ⟨⟨hd, hc⟩, rfl⟩
  · exact ⟨⟨hd, hc⟩, rfl⟩

section
variable (hopen : MessageOpen s) (hacc : ∀ sym, s.poll = .execute sym → Accepted s.ds sym)
include hopen hacc

/-- Of POLL's steps only the symbols emit events: what `EDGE_INIT` adds to the trace is its result, and a `DEC_INIT` is
not run a second time (rule R173). -/
theorem PollMove.keeps_open (hm : PollMove s t) : OpenKept s t := by
  obtain ⟨hd, hc⟩ := hopen
  cases hm with
  | edgeInit | calibrated | calibrationFailed => exact ⟨⟨hd, hc⟩, endings_append _ _⟩
  | decInit _ hi => exact nomatch hd.symm.trans hi
  | execute sym v hp hx => exact symbol_keeps_open (t := v) hx hc (hacc sym hp)
  | executeStuck sym v hp hx =>
    obtain ⟨-, htrace⟩ := symbol_keeps_open hx hc (hacc sym hp)
    rw [beforeCallback_eq]
    exact ⟨⟨hd, hc⟩, htrace⟩
  | _ => exact ⟨⟨hd, hc⟩, rfl⟩

/-- Before the guard no alarm finalises (rule R144), and POLL goes on with the message. -/
theorem Move.keeps_open {x : Option Turn} (hm : Move x s t) (hguard : s.time.toNat < s.ds.sparedUntil.toNat) :
    OpenKept s t := by
  cases hm with
  | poll _ _ hp => exact hp.keeps_open hopen hacc
  | alarmEnds _ _ _ _ _ hpassed | alarmStuck _ _ _ _ _ hpassed => exact absurd hguard (Nat.not_lt.mpr hpassed)
  | stay | pin | alarmSpent | time | owner => exact ⟨hopen, rfl⟩

theorem step_keeps_open (hguard : s.time.toNat < s.ds.sparedUntil.toNat) (h : step s = .next t) : OpenKept s t := by
  obtain ⟨-, ts, -, hm⟩ := step_move h
  exact hm.keeps_open (s := s.setTurns ts) hopen hacc hguard

end

/-- A run of one step more is a step and a run. -/
theorem run_succ_eq_next {n : Nat} (h : run (n + 1) s = .next t) : ∃ u, step s = .next u ∧ run n u = .next t := by
  cases hx : step s with
  | next u => exact ⟨u, rfl, (run_succ_next hx).symm.trans h⟩
  | fault r => cases r
  | refused r => exact nomatch (run_succ_refused hx).symm.trans h

end

/-- Settles O42: by induction on the length of the run, the premise on its first state serving the first step. -/
theorem guardKeepsMessageOpen : Obligations.GuardKeepsMessageOpen := by
  intro n
  induction n with
  | zero =>
    intro s t hopen _ hrun
    cases hrun
    exact ⟨hopen, rfl⟩
  | succ n ih =>
    intro s t hopen hpremise hrun
    obtain ⟨u, hstep, hrest⟩ := run_succ_eq_next hrun
    obtain ⟨hguard, hacc⟩ := hpremise 0 s (Nat.succ_pos n) (run_zero s)
    obtain ⟨hopenU, hfirst⟩ := step_keeps_open hopen hacc hguard hstep
    have hlater {k : Nat} {v : State} (hv : run k u = .next v) : run (k + 1) s = .next v := (run_succ_next hstep).trans hv
    obtain ⟨hopenT, hrestTrace⟩ :=
      ih u t hopenU (fun k v hk hv => hpremise (k + 1) v (Nat.succ_lt_succ hk) (hlater hv)) hrest
    exact ⟨hopenT, hrestTrace.trans hfirst⟩

end Sys2Proof.Machine
end

section
/-! Exceptions (`60_exceptions.md`): a level change and an alarm do not see each other (rule R159), and what the two
absorbed conditions, a full edge queue and a protocol violation, leave behind (rules R152, R153). -/

namespace Sys2Proof.Machine

open Sys2Proof.Safety

/-! ## `CAPTURE` and `ALARM_FIRE` -/

/-- An alarm does not look at the edge queue: it fires in the same way on any other queue, and leaves that queue. -/
theorem exec_alarmFire_setEdgeQ {a : Time} {s u : State} (q : List Edge) (h : exec (.alarmFire a) s = .next u) :
    exec (.alarmFire a) (s.setEdgeQ q) = .next (u.setEdgeQ q) := by
  obtain ⟨ha, hd, ⟨hl, hc, hs, rfl⟩ | ⟨hnot, rfl⟩⟩ := execAlarmFire_cases h
  · exact exec_alarmFire_finalises (s := s.setEdgeQ q) ha hd ⟨hl, hc, hs⟩
  · exact exec_alarmFire_spends (s := s.setEdgeQ q) ha hd hnot

/-- Settles O44: an alarm keeps all that a capture reads, so both orders end in the alarm's state with the capture's
queue. -/
theorem captureAndAlarmCommute : Obligations.CaptureAndAlarmCommute := by
  intro s t u d a hcapture halarm
  rw [exec_capture_eq] at hcapture
  obtain rfl := Host.Outcome.next.inj hcapture
  refine ⟨_, exec_alarmFire_setEdgeQ _ halarm, ?_⟩
  obtain ⟨alarmFrame, -⟩ := handlersFrame s u
  obtain ⟨b, as, tr, rfl, -⟩ := alarmFrame a halarm
  exact exec_capture_eq d _

/-! ## When a condition is met -/

section
variable {s : State}

theorem conditionOf_capture_eq_queueOverflow_iff {d : Direction} :
    conditionOf (.capture d) s = some .queueOverflow ↔ s.erEnabled = true ∧ s.edgeQ.length = 128 := by
  simp only [conditionOf, qCount_eq, Bool.and_eq_true, ite_eq_left_iff, reduceCtorEq, imp_false, not_not]
  exact and_congr_right' decide_eq_true_iff

theorem sequenceViolation_eq_some_iff {due : Bool} :
    sequenceViolation s due = some .protocolViolation ↔ s.ds.isCancelled = false ∧ due = false := by
  simp [sequenceViolation]

/-- A bit violates the protocol after the 32nd, or as the 32nd of a word with wrong complements (rule R153). -/
theorem bitViolation_eq_some_iff {w : DataWord} :
    bitViolation s w = some .protocolViolation ↔
      s.ds.isCancelled = false ∧ (31 < s.ds.step.toNat ∨ s.ds.step = 31 ∧ ¬ WordValid w) := by
  have hdue (hc : s.ds.isCancelled = false) : s.ds.bitDue = false ↔ 31 < s.ds.step.toNat := by
    rw [← Bool.not_eq_true, bitDue_iff, and_iff_right hc, Nat.not_le]
  have hword : complementsValid w = false ↔ ¬ WordValid w := by rw [← Bool.not_eq_true, complementsValid_iff]
  simp only [bitViolation, building_eq, Bool.and_eq_true, Bool.or_eq_true, Bool.not_eq_true', atLastBit_iff, hword,
    ite_eq_left_iff, reduceCtorEq, imp_false, not_not]
  exact and_congr_right fun hc => or_congr_left (hdue hc)

/-- The condition of a bit is that of the word with the bit. -/
theorem conditionOf_bitSymbol (b : Bool) : conditionOf (bitSymbol b).toInstr s = bitViolation s (withBit b s.ds) := by
  cases b <;> rfl

/-- The symbol is the 32nd bit of a word with wrong complements (rule R127). -/
abbrev CompletesInvalidWord (s : State) (sym : Symbol) : Prop :=
  ∃ b, sym = bitSymbol b ∧ s.ds.step = 31 ∧ ¬ WordValid (withBit b s.ds)

/-- A symbol that meets `ProtocolViolation` is a rejected symbol of the message in progress, or completes a word that is
not announced (rule R153). -/
theorem rejected_or_completesInvalidWord {sym : Symbol} (h : conditionOf sym.toInstr s = some .protocolViolation) :
    s.ds.isCancelled = false ∧ (Rejected s sym ∨ CompletesInvalidWord s sym) := by
  have bit (b : Bool) (h : conditionOf (bitSymbol b).toInstr s = some .protocolViolation) :
      s.ds.isCancelled = false ∧ (Rejected s (bitSymbol b) ∨ CompletesInvalidWord s (bitSymbol b)) := by
    rw [conditionOf_bitSymbol, bitViolation_eq_some_iff] at h
    obtain ⟨hc, hlate | hlast⟩ := h
    · exact ⟨hc, .inl (.inr (.inl ⟨bitSymbol_cases b, hlate⟩))⟩
    · exact ⟨hc, .inr ⟨b, rfl, hlast⟩⟩
  cases sym with
  | start => exact nomatch h
  | zero => exact bit false h
  | one => exact bit true h
  | invalid =>
    obtain ⟨hc, -⟩ := sequenceViolation_eq_some_iff.mp h
    exact ⟨hc, .inl (.inl rfl)⟩
  | endSym =>
    obtain ⟨hc, hdue⟩ := sequenceViolation_eq_some_iff.mp h
    exact ⟨hc, .inl (.inr (.inr (.inl ⟨rfl, by simpa [DecoderState.endDue, hc] using hdue⟩)))⟩
  | repeatSym =>
    obtain ⟨hc, hdue⟩ := sequenceViolation_eq_some_iff.mp h
    refine ⟨hc, .inl (.inr (.inr (.inr ⟨rfl, fun hstep => ?_⟩)))⟩
    exact Bool.false_ne_true (hdue.symm.trans ((repeatDue_iff _).mpr ⟨hc, hstep⟩))

end

/-- Settles O57: a full queue loses the edge; a rejected symbol aborts; a word with wrong complements completes without
an event. -/
theorem absorbedConditions : Obligations.AbsorbedConditions := by
  refine fun s t => ⟨fun d hx hcond => ?_, fun sym hx hcond => ?_⟩
  · obtain ⟨hen, hfull⟩ := conditionOf_capture_eq_queueOverflow_iff.mp hcond
    exact Host.Outcome.next.inj (hx.symm.trans (exec_capture_of_full hen hfull.ge))
  · obtain ⟨hm, -⟩ := symbol_cases hx
    obtain ⟨hc, hrejected | ⟨b, rfl, h31, hinvalid⟩⟩ := rejected_or_completesInvalidWord hcond
    · exact .inl (Host.Outcome.next.inj (hx.symm.trans (exec_of_rejected hm hc hrejected)))
    · obtain rfl : t = completed (withBit b s.ds) s :=
        Host.Outcome.next.inj (hx.symm.trans ((exec_bitSymbol hm b).trans (execBit_last b hc h31)))
      have htrace : s.trace ++ wordEvents (withBit b s.ds) s = s.trace := by
        rw [wordEvents_of_invalid s hinvalid, List.append_nil]
      exact .inr ⟨htrace, hc, rfl, rfl, hinvalid⟩

end Sys2Proof.Machine
end

section
/-! Reset and initialisation (`70_reset_and_hazards.md` rules R170 to R173): the power-on state, and the refusals of
operations out of their order. -/

namespace Sys2Proof.Machine

open Sys2Proof.Safety

/-! ## Power-on -/

section
variable {s : State}

theorem pollStep_of_idle (hp : s.poll = .idle) : pollStep s = .next s := by
  rw [pollStep, hp]
  exact ite_self _

/-- Between two operations, with no turn left, nothing happens (rule R170). -/
theorem step_of_rest (hr : timeInRange s.time = true) (ht : s.turns = []) (hp : s.poll = .idle) : step s = .next s := by
  rw [step_of_no_turn hr ht, pollStep_of_idle hp]

end

/-- Settles O1: the interrupt is not enabled, no alarm is pending, and POLL is between two operations. -/
theorem powerOnIsUninitialised : Obligations.PowerOnIsUninitialised := fun _ _ hr =>
  ⟨rfl, rfl, rfl, rfl, rfl, rfl, rfl, fun _ => exec_capture_of_disabled rfl,
    fun _ => exec_alarmFire_of_not_pending List.not_mem_nil, step_of_rest hr rfl rfl⟩

/-- Nothing is queued and the pin has not changed. -/
theorem queuesInTime_of_nothing {s : State} (hedges : s.edgeQ = []) (hpulses : s.pulseQ = [])
    (hlevel : s.levelSince = none) (hlast : s.lastCapture = none) : QueuesInTime s := by
  simp [QueuesInTime, hedges, hpulses, hlevel, hlast]

/-- At power-on there is nothing queued and no decoder, so all that is asked beside `TIME` is asked of nothing. -/
theorem inv_powerOn {t : Time} (l : Level) (hr : timeInRange t = true) : Inv (State.powerOn t l) where
  timeInRange := hr
  queuesBounded := ⟨Nat.zero_le 128, Nat.zero_le 32⟩
  alarmsSorted := .nil
  initConsistent := ⟨rfl, fun _ => rfl, fun _ => ⟨rfl, rfl⟩, fun _ => rfl⟩
  phaseLegal := phaseLegal_of_idle rfl
  lockMatchesPhase := fun hd => nomatch hd
  endFlagMatchesStep := fun hd => nomatch hd
  unreceivedBitsClear := fun hd => nomatch hd
  queuesInTime := queuesInTime_of_nothing rfl rfl rfl rfl

/-- Settles O2: `State.reset` is the power-on state of `TIME` 0. -/
theorem powerOnMeetsInvariant : Obligations.PowerOnMeetsInvariant :=
  ⟨fun _ l hr => inv_powerOn l hr, inv_powerOn .low (by decide)⟩

/-! ## Operations before their initialisation, and a second initialisation -/

section
variable {s : State} (hp : s.poll = .idle)
include hp

theorem exec_drain_of_uninitialised (h : s.erInit = false ∨ s.pdInit = false) :
    exec .drain s = .refused .notInitialised := by
  have hmissing : (s.erInit && s.pdInit) = false := by
    rcases h with h | h
    · rw [h, Bool.false_and]
    · rw [h, Bool.and_false]
  rw [exec, execDrain, whenPollIdle_eq _ hp, if_neg (Bool.eq_false_iff.mp hmissing)]

theorem exec_process_of_uninitialised (hd : s.decInit = false) : exec .process s = .refused .notInitialised := by
  rw [exec, execProcess, whenPollIdle_eq _ hp, if_neg (Bool.eq_false_iff.mp hd)]

theorem exec_decInit_of_uninitialised (hd : s.decInit = false) (hpd : s.pdInit = false) :
    exec .decInit s = .refused .notInitialised := by
  rw [exec, execDecInit, whenPollIdle_eq _ hp, if_neg (Bool.eq_false_iff.mp hd), if_neg (Bool.eq_false_iff.mp hpd)]

theorem exec_edgeInit_second (hi : s.erInit = true) (pin : Pin) (mode : IdleMode) :
    exec (.edgeInit pin mode) s = .refused .initialisedTwice :=
  (whenPollIdle_eq _ hp).trans (if_pos hi)

theorem exec_pulseInit_second (hi : s.pdInit = true) : exec .pulseInit s = .refused .initialisedTwice :=
  (whenPollIdle_eq _ hp).trans (if_pos hi)

theorem exec_decInit_second (hi : s.decInit = true) : exec .decInit s = .refused .initialisedTwice :=
  (whenPollIdle_eq _ hp).trans (if_pos hi)

end

/-- Settles O7: the check of each operation of POLL; and a `CAPTURE` while the interrupt is not enabled. -/
theorem useBeforeInitIsRefused : Obligations.UseBeforeInitIsRefused := fun _ hp =>
  ⟨exec_drain_of_uninitialised hp, exec_process_of_uninitialised hp, exec_decInit_of_uninitialised hp,
    fun hen _ => exec_capture_of_disabled hen⟩

/-! ## One operation inside another -/

/-- Every operation of POLL begins by asking that POLL is between two operations (`00_scope.md` rule R7). -/
theorem exec_pollOperation_guarded {i : Instr} (hk : takerOf i = .pollOperation) (s : State) :
    ∃ body, exec i s = whenPollIdle s body := by
  cases i with
  | edgeInit | pulseInit | drain | decInit | process => exact ⟨_, rfl⟩
  | capture | alarmFire | invalid | zero | one | start | repeatSym | endSym => cases hk

theorem exec_pollOperation_of_busy {i : Instr} {s : State} (hp : s.poll ≠ .idle) (hk : takerOf i = .pollOperation) :
    exec i s = .refused .pollBusy := by
  obtain ⟨body, hx⟩ := exec_pollOperation_guarded hk s
  rw [hx, whenPollIdle, if_neg hp]

/-- Settles O8: the test of each initialisation's flag, and the guard every operation of POLL begins with. -/
theorem secondInitAndOverlapAreRefused : Obligations.SecondInitAndOverlapAreRefused := fun _ =>
  ⟨exec_edgeInit_second, exec_pulseInit_second, exec_decInit_second, fun hp =>
    ⟨fun _ _ => exec_pollOperation_of_busy hp rfl, exec_pollOperation_of_busy hp rfl,
      exec_pollOperation_of_busy hp rfl, exec_pollOperation_of_busy hp rfl, exec_pollOperation_of_busy hp rfl⟩⟩

end Sys2Proof.Machine
end

section
/-! Callbacks (`43_nec_decoder.md` rule R135, `70_reset_and_hazards.md` rule R183, `93_implementation_defined.md` U12):
what an owner that never returns leaves behind, what one that re-enters is answered, and what can happen afterwards. -/

namespace Sys2Proof.Machine

open Sys2Proof.Safety

/-! ## An atomic step that invokes a callback -/

section
variable {s t : State} (stuck : State) (h : s.trace.length < t.trace.length)
include h

theorem callBack_neverReturns (ho : s.owner = .neverReturns) : callBack s t stuck = .next stuck := by
  rw [callBack, if_pos h, ho]

theorem callBack_reenters (ho : s.owner = .reenters) : callBack s t stuck = .refused .callbackReenters := by
  rw [callBack, if_pos h, ho]

end

/-- One entry more is a longer trace: the sign of a callback (log 14). -/
theorem length_lt_of_entry {s t : State} {e : TraceEntry} (h : t.trace = s.trace ++ [e]) :
    s.trace.length < t.trace.length := by
  rw [h, List.length_append]
  exact Nat.lt_succ_self _

/-- A symbol that emits something was executed in a message in progress. -/
theorem building_of_entry {s t : State} {sym : Symbol} {e : TraceEntry} (hx : exec sym.toInstr s = .next t)
    (h : t.trace = s.trace ++ [e]) : s.ds.isCancelled = false := by
  rcases symbol_trace hx with ⟨htrace, -⟩ | ⟨-, hc, -⟩ | ⟨b, -, -, -, hc, -⟩
  · have hlonger := length_lt_of_entry h
    rw [htrace] at hlonger
    exact absurd hlonger (Nat.lt_irrefl _)
  · exact hc
  · exact hc

/-- In a message in progress the callback of a symbol finds the bit of a `ONE` in `data`, and nothing else written. -/
theorem beforeCallback_building {s : State} (sym : Symbol) (hc : s.ds.isCancelled = false) :
    beforeCallback sym s = s.setData
      (if sym = .one ∧ s.ds.step.toNat ≤ 31 then s.ds.data ||| (1#32 <<< s.ds.step.toNat) else s.ds.data) := by
  have hdue : s.ds.bitDue = true ↔ s.ds.step.toNat ≤ 31 := (bitDue_iff s.ds).trans (and_iff_right hc)
  rw [beforeCallback_eq, setDataBit]
  simp only [hdue]

/-- An alarm that emits something has finalised the message in progress. -/
theorem alarmMayFinalise_of_entry {a : Time} {s t : State} {e : TraceEntry} (hx : exec (.alarmFire a) s = .next t)
    (h : t.trace = s.trace ++ [e]) : AlarmMayFinalise s := by
  obtain ⟨-, -, ⟨hl, hc, hs, -⟩ | ⟨-, rfl⟩⟩ := execAlarmFire_cases hx
  · exact ⟨hl, hc, hs⟩
  · exact absurd (length_lt_of_entry h) (Nat.lt_irrefl _)

/-- Settles O48: POLL's step is the symbol's meaning and ALARM's the alarm's, each with the callback behind it. -/
theorem callbackRunsUnderTheLock : Obligations.CallbackRunsUnderTheLock := by
  intro s t e hr htrace
  have hcalled : s.trace.length < t.trace.length := length_lt_of_entry htrace
  refine ⟨fun sym hturns hp hx => ?_, fun a rest hturns hx => ?_⟩
  · obtain ⟨⟨-, hl⟩, -⟩ := symbol_cases hx
    have hheld : t.ds.lock = .heldByPoll := by
      obtain ⟨d, as, tr, rfl, hlock, -⟩ := symbol_frame hx
      exact hlock.trans hl
    have hstep : step s =
        callBack s (t.setPoll .release) (((beforeCallback sym s).setTrace t.trace).setPoll .stuck) := by
      rw [step_of_executing hr hturns (alarmHoldsLock_of_eq hl (by decide)) hp, executeSymbol, hx]
    rw [hstep]
    refine ⟨hl, hheld, fun ho => ?_, fun ho => callBack_reenters _ hcalled ho⟩
    rw [callBack_neverReturns (t := t.setPoll .release) _ hcalled ho,
      beforeCallback_building sym (building_of_entry hx htrace)]
    rfl
  · obtain ⟨ha, hd, -⟩ := execAlarmFire_cases hx
    have hfinal : AlarmMayFinalise s := alarmMayFinalise_of_entry hx htrace
    obtain rfl := Host.Outcome.next.inj ((exec_alarmFire_finalises ha hd hfinal).symm.trans hx)
    rw [step_request hr rfl hturns, takeOperation_alarm rfl, fireAlarm,
      exec_alarmFire_finalises (s := s.setTurns rest) ha hd hfinal]
    exact ⟨fun ho => callBack_neverReturns (s := s.setTurns rest) _ hcalled ho,
      fun ho => callBack_reenters (s := s.setTurns rest) _ hcalled ho⟩

/-! ## After a callback that never returns -/

/-- A callback has never returned: POLL's, or ALARM's (log 14). -/
abbrev CallbackStuck (s : State) : Prop := s.poll = .stuck ∨ s.ds.lock = .heldByAlarm

section
variable {s t : State}

/-- The lock stays with the agent that invoked the callback (rule R183). -/
theorem CallbackStuck.lock_ne_free (hs : CallbackStuck s) (h : Inv s) (hd : s.decInit = true) : s.ds.lock ≠ .free := by
  rcases hs with hp | hl
  · have hheld : s.ds.lock = .heldByPoll := (h.lockMatchesPhase hd).mpr (by rw [hp]; rfl)
    rw [hheld]
    decide
  · rw [hl]
    decide

/-- POLL makes no step (`20_memory.md` rule R62, U12). -/
theorem CallbackStuck.pollStep_eq (hs : CallbackStuck s) (hd : s.decInit = true) : pollStep s = .next s := by
  rcases hs with hp | hl
  · rw [pollStep, hp]
    exact ite_self _
  · exact pollStep_of_alarmHoldsLock ((alarmHoldsLock_iff s).mpr ⟨hd, hl⟩)

theorem CallbackStuck.not_pollMove (hs : CallbackStuck s) (hd : s.decInit = true) (ha : alarmHoldsLock s = false) :
    ¬ PollMove s t := by
  rcases hs with hp | hl
  · exact fun hm => hm.poll_ne_stuck hp
  · exact absurd ((alarmHoldsLock_iff s).mpr ⟨hd, hl⟩) (Bool.eq_false_iff.mp ha)

/-- An operation requested of POLL waits. -/
theorem CallbackStuck.takeOperation_eq (hs : CallbackStuck s) (hd : s.decInit = true) {i : Instr}
    (hk : takerOf i = .pollOperation) (rest : List Turn) : takeOperation i (s.setTurns rest) s = .next s := by
  have hwaits : (s.setTurns rest).poll ≠ .idle ∨ alarmHoldsLock (s.setTurns rest) = true := by
    rcases hs with hp | hl
    · exact .inl (by rw [State.setTurns_poll, hp]; decide)
    · exact .inr ((alarmHoldsLock_iff _).mpr ⟨hd, hl⟩)
  rw [takeOperation_pollOperation_waits hk hwaits, hs.pollStep_eq hd]

/-- Settles O49: of all moves there remain CAP's and ENV's and an alarm that only spends itself. -/
theorem stuckCallbackKeepsTheLock : Obligations.StuckCallbackKeepsTheLock := by
  intro s t h hd hs hstep
  obtain ⟨hr, ts, -, hm⟩ := step_move hstep
  have hstuck : CallbackStuck (s.setTurns ts) := hs
  have hheld : (s.setTurns ts).ds.lock ≠ .free := hstuck.lock_ne_free (h.setTurns ts) hd
  have hrest : s.turns = [] → t = s := fun ht => by
    rw [step_of_no_turn hr ht, CallbackStuck.pollStep_eq hs hd] at hstep
    exact (Host.Outcome.next.inj hstep).symm
  have hwait : ∀ i rest, i.wf = true → takerOf i = .pollOperation → s.turns = .op (encode i) :: rest → t = s :=
    fun i rest hwf hk ht => by
      rw [step_request hr hwf ht, CallbackStuck.takeOperation_eq hs hd hk rest] at hstep
      exact (Host.Outcome.next.inj hstep).symm
  cases hm with
  | poll _ ha hp => exact absurd hp (hstuck.not_pollMove hd ha)
  | alarmEnds _ _ _ hl | alarmStuck _ _ _ hl => exact absurd hl hheld
  | pin d =>
    refine ⟨rfl, rfl, rfl, rfl, rfl, rfl, rfl, rfl, hd, ?_, .inl rfl, hrest, hwait⟩
    show (if s.erEnabled then _ else _) = _ ∨ ∃ e, (if s.erEnabled then _ else _) = _
    split
    · exact (qTryPush_cases 128 s.edgeQ ⟨s.time, d⟩).symm.imp_right fun hpush => ⟨_, hpush⟩
    · exact .inl rfl
  | alarmSpent a ha =>
    exact ⟨rfl, rfl, rfl, rfl, rfl, rfl, rfl, rfl, hd, .inl rfl, .inr ⟨a, ha, rfl⟩, hrest, hwait⟩
  | stay | time | owner =>
    exact ⟨rfl, rfl, rfl, rfl, rfl, rfl, rfl, rfl, hd, .inl rfl, .inl rfl, hrest, hwait⟩

end

end Sys2Proof.Machine
end

section
/-! Hazards and quiescence (`70_reset_and_hazards.md` rules R177, R179, R187): a message ended by a late alarm stays
silent, and in a quiescent state nothing more happens. -/

namespace Sys2Proof.Safety

open Sys2Proof.Machine

/-! ## A late alarm -/

/-- In Idle a sequence of symbols without a `START` changes nothing (rule R132). -/
theorem execSymbols_of_idle {s : State} (h : MayExecute s) (hc : s.ds.isCancelled = true) {syms : List Symbol}
    (hne : .start ∉ syms) : execSymbols syms s = .next s := by
  induction syms with
  | nil => rfl
  | cons sym rest ih =>
    have hx : exec sym.toInstr s = .next s := exec_of_idle h hc (List.ne_of_not_mem_cons hne).symm
    rw [execSymbols_cons sym rest hx]
    exact ih (List.not_mem_of_not_mem_cons hne)

/-- Settles O46: the alarm leaves the decoder Idle, whichever message it was armed for. -/
theorem lateAlarmSilencesMessage : Obligations.LateAlarmSilencesMessage := by
  rintro a s syms ⟨hd, hc⟩ hl ha hdue hs hne
  refine ⟨_, exec_alarmFire_finalises ha hdue ⟨hl, hc, hs⟩, rfl, execSymbols_of_idle ?_ ?_ hne⟩
  · exact ⟨hd, rfl⟩
  · rfl

/-! ## What a quiescent state rules out -/

section
variable {s t u : State}

/-- The pulse queue is not full, so it is the edges that keep `DRAIN` from doing anything. -/
theorem Quiescent.few_edges (h : Quiescent s) : s.edgeQ.length < 2 := by
  obtain ⟨hfew | hfull, hpulses, -⟩ := h
  · exact hfew
  · rw [hfull] at hpulses
    exact absurd hpulses (by decide)

theorem Quiescent.few_pulses (h : Quiescent s) : s.pulseQ.length < 2 := by
  obtain ⟨-, hpulses, -⟩ := h
  exact hpulses

/-- The next turn changes no level. -/
theorem Quiescent.irIn_of_drivesPin {d : Direction} (h : Quiescent s) (hx : DrivesPin s.turns.head? d) :
    s.irIn = d.toLevel := by
  obtain ⟨-, -, -, -, -, hlevel⟩ := h
  rcases hx with hx | ⟨w, hx, hw⟩
  · obtain ⟨hdriven, -⟩ := hlevel _ (List.mem_of_head? hx)
    exact (hdriven _ rfl).symm
  · obtain ⟨-, hcaptured⟩ := hlevel _ (List.mem_of_head? hx)
    exact (hcaptured w d rfl hw).symm

/-- A state stays quiescent when its next turn is taken off the list. -/
theorem Quiescent.setTurns {ts : List Turn} (h : Quiescent s) (hts : ts = s.turns ∨ ∃ x, s.turns = x :: ts) :
    Quiescent (s.setTurns ts) := by
  have hsub : ts ⊆ s.turns := by
    rcases hts with rfl | ⟨x, hx⟩
    · exact List.Subset.refl _
    · rw [hx]
      exact List.subset_cons_self x ts
  obtain ⟨hdrain, hprocess, hphase, hlock, halarms, hlevel⟩ := h
  exact ⟨hdrain, hprocess, hphase, hlock, halarms, fun x hx => hlevel x (hsub hx)⟩

/-! ## A move in a quiescent state -/

/-- From `s` to `t` the queues, the pin, the turns and an existing decoder stay, no symbol, lock or alarm has come up,
and no event was delivered (rule R187). -/
structure Rests (s t : State) : Prop where
  edgeQ    : t.edgeQ = s.edgeQ
  pulseQ   : t.pulseQ = s.pulseQ
  irIn     : t.irIn = s.irIn
  turns    : t.turns = s.turns
  noSymbol : ∀ sym, t.poll ≠ .acquire sym
  lockFree : t.ds.lock = .free
  noAlarm  : t.alarms = []
  ds       : s.decInit = true → t.ds = s.ds
  trace    : t.trace = s.trace ∨ ∃ e, t.trace = s.trace ++ [e] ∧ ∀ v, e.what ≠ .event v

theorem Rests.quiescent (h : Rests s t) (hq : Quiescent s) : Quiescent t := by
  obtain ⟨hdrain, hprocess, -, -, -, hlevel⟩ := hq
  rw [Quiescent, NoLevelChange, h.edgeQ, h.pulseQ, h.irIn, h.turns]
  exact ⟨hdrain, hprocess, h.noSymbol, h.lockFree, h.noAlarm, hlevel⟩

/-- Of POLL's steps there remain the initialisations and the returns of `DRAIN` and `PROCESS`. -/
theorem Quiescent.pollMove (hq : Quiescent u) (h : Inv u) (hm : PollMove u t) : Rests u t := by
  have hedges : u.edgeQ.length < 2 := hq.few_edges
  have hpulses : u.pulseQ.length < 2 := hq.few_pulses
  obtain ⟨-, -, hphase, hlock, halarms, -⟩ := hq
  obtain ⟨-, noEdges, noPulses, -⟩ := h.initConsistent
  have initialises (l : Level) (hi : u.erInit = false) : Rests u (finishEdgeInit l u) :=
    ⟨(noEdges hi).symm, rfl, rfl, rfl, fun _ => nofun, hlock, halarms, fun _ => rfl, .inr ⟨_, rfl, fun _ => nofun⟩⟩
  cases hm with
  | edgeInit l _ hi => exact initialises l hi
  | calibrated t0 hp =>
    obtain ⟨hi, -⟩ := h.phaseLegal_of_eq hp
    exact initialises u.irIn hi
  | calibrationFailed =>
    exact ⟨rfl, rfl, rfl, rfl, fun _ => nofun, hlock, halarms, fun _ => rfl, .inr ⟨_, rfl, fun _ => nofun⟩⟩
  | pulseInit _ hi =>
    obtain ⟨hempty, -⟩ := noPulses hi
    exact ⟨rfl, hempty.symm, rfl, rfl, hphase, hlock, halarms, fun _ => rfl, .inl rfl⟩
  | decInit _ hi =>
    exact ⟨rfl, rfl, rfl, rfl, hphase, rfl, rfl, fun hd => (nomatch hi.symm.trans hd), .inl rfl⟩
  | calibrating | drainEnd | processEnd =>
    exact ⟨rfl, rfl, rfl, rfl, fun _ => nofun, hlock, halarms, fun _ => rfl, .inl rfl⟩
  | drainDrop _ _ _ _ hq | drainPair _ _ _ _ hq => exact absurd hedges (by simp [hq])
  | processHead _ _ _ _ hq => exact absurd hpulses (by simp [hq])
  | acquire sym hp => exact absurd hp (hphase sym)
  | execute _ _ _ hx | executeStuck _ _ _ hx =>
    obtain ⟨⟨-, hheld⟩, -⟩ := symbol_cases hx
    exact nomatch hlock.symm.trans hheld
  | release _ hheld => exact nomatch hlock.symm.trans hheld

/-- No alarm fires and no level changes, so what is left beside POLL's steps is `TIME` and the owner. -/
theorem Quiescent.move {x : Option Turn} (hq : Quiescent u) (h : Inv u)
    (hlevel : ∀ d, DrivesPin x d → u.irIn = d.toLevel) (hm : Move x u t) : Rests u t := by
  have hpoll : PollMove u t → Rests u t := hq.pollMove h
  obtain ⟨-, -, hphase, hlock, halarms, -⟩ := hq
  have hnone (a : Time) : a ∉ u.alarms := by
    rw [halarms]
    exact List.not_mem_nil
  cases hm with
  | poll _ _ hp => exact hpoll hp
  | pin d hx hne => exact absurd (hlevel d hx) hne
  | alarmEnds a ha | alarmStuck a ha | alarmSpent a ha => exact absurd ha (hnone a)
  | stay | time | owner => exact ⟨rfl, rfl, rfl, rfl, hphase, hlock, halarms, fun _ => rfl, .inl rfl⟩

end

/-- Settles O47: the loops find too little, no alarm is pending, and a step is one move of those a quiescent state
leaves. -/
theorem quiescentStatesRest : Obligations.QuiescentStatesRest := by
  intro s hq
  refine ⟨fun hp her hpd => ?_, fun hp hd => ?_, fun a => ?_, fun t h hstep => ?_, step_of_rest⟩
  · rw [exec_drain hp her hpd, drainIteration_of_few (Quiescent.few_edges hq), setPoll_idle_of_idle hp]
  · rw [exec_process hp hd, processIteration_of_few (Quiescent.few_pulses hq), setPoll_idle_of_idle hp]
  · obtain ⟨-, -, -, -, halarms, -⟩ := hq
    exact exec_alarmFire_of_not_pending (by rw [halarms]; exact List.not_mem_nil)
  · obtain ⟨-, ts, hts, hm⟩ := step_move hstep
    have hquiet : Quiescent (s.setTurns ts) := Quiescent.setTurns hq hts
    have hlevel (d : Direction) (hx : DrivesPin s.turns.head? d) : s.irIn = d.toLevel :=
      Quiescent.irIn_of_drivesPin hq hx
    have hrests : Rests (s.setTurns ts) t := hquiet.move (h.setTurns ts) hlevel hm
    exact ⟨hrests.quiescent hquiet, hrests.edgeQ, hrests.pulseQ, hrests.irIn, hrests.ds, hrests.trace⟩

end Sys2Proof.Safety
end
